-- ==== Sys2Proof/Word.lean ====
section
/-! DEFINITION. The word types of ACS-CDFC: `uN` values are bit vectors of N bits (R9), a byte string is a
list of u8 (R10), a timestamp is a `u(TS_WIDTH)` with `TS_WIDTH = 32` (R7, R12). The block has no
general-purpose register width of its own (R20). -/

namespace Sys2Proof

/-- `u8` (R9). -/
abbrev Byte := BitVec 8

/-- A byte string (R10); text is a byte string. -/
abbrev Bytes := List Byte

/-- A timestamp: `u(TS_WIDTH)`, a count of microseconds (R7, R12). -/
abbrev Stamp := BitVec 32

/-- `u64`: the bit accumulator and a ReaderEvent's code (R22, R71). -/
abbrev Code := BitVec 64

end Sys2Proof
end

