-- ==== Sys2Proof/Config.lean ====
section
/-! DEFINITION. The implementation parameters of R7: the fixed constants, the instantiation parameters
(`Config`, with the spec's defaults), and the two open draws SWEEP_ORDER and LINE_ORDER as opaque
constants. The check of R8 is `configOk` in Machine/Boundary.lean. -/

namespace Sys2Proof

/-- The parameters an instance of the block fixes (R7, R32): no operation reads or writes them as state.
`readerId` is `READER_ID[0 .. NUM_READERS-1]`. -/
structure Config where
  /-- `READER_ID[c]` for each channel c, in channel order. -/
  readerId : List Byte
  /-- `EVQ_CAP`, the capacity of the event hand-off queue. -/
  evqCap : Nat
  /-- `TXT_MAX_LINE`, the longest text line accepted, in bytes, its newline included. -/
  txtMaxLine : Nat
  /-- `DEVICE_KINDS`, the strings used as the text `type` of an IdentifyResponse. -/
  deviceKinds : List Bytes
  deriving DecidableEq, Repr

/-- `NUM_READERS`: one channel for each reader id. -/
def Config.numReaders (cfg : Config) : Nat := cfg.readerId.length

/-- The default configuration of R7: two readers with ids 1 and 2, `EVQ_CAP = 16`, `TXT_MAX_LINE = 256`,
`DEVICE_KINDS = {"identity"}` (the eight ASCII codes of "identity"). -/
def Config.default : Config where
  readerId := [1, 2]
  evqCap := 16
  txtMaxLine := 256
  deviceKinds := [[0x69, 0x64, 0x65, 0x6E, 0x74, 0x69, 0x74, 0x79]]

/-- `TS_WIDTH` (R7): the width of `Stamp`. -/
def Config.tsWidth : Nat := 32

/-- `MIN_PULSE_US` (R7): the minimum spacing of accepted edges, microseconds. -/
def Config.minPulseUs : Nat := 200

/-- `IDLE_US` (R7): the quiet period before a finalize, microseconds. -/
def Config.idleUs : Nat := 50000

/-- `BIT_CAP` (R7): the ceiling on bit_count. -/
def Config.bitCap : Nat := 64

/-- `W26_LEN` (R7): the bit length that gets the parity check. -/
def Config.w26Len : Nat := 26

/-- The draw `SWEEP_ORDER` (R7, R60, R115), a free value: for the n-th draw, a sort key for each channel.
The channels due in one sweep are finalized in the order of their keys; every permutation is the
order of some keys, and no proof can know these (DESIGN CHOICE, safe: log entry 5). -/
opaque Config.sweepKey : Nat → Nat → Nat

/-- The draw `LINE_ORDER` (R7, R122, R124), a free value: for the n-th draw and a channel, whether the edge
on line D1 is taken before the one on D0 when both fell in one sample (DESIGN CHOICE, safe: log entry 6). -/
opaque Config.d1First : Nat → Nat → Bool

end Sys2Proof
end

