-- ==== Sys2Proof/Machine/Operands.lean ====
section
/-! DEFINITION. Operand assembly (R88) and the notation primitives of R9 to R12: XOR, slices, hexadecimal and
decimal spellings, the big-endian 32-bit code, the train shift, elapsed time, and the string
alphabet of R205. The block has no addressing modes: an operand is a field of an operation record
or of a frame. -/

namespace Sys2Proof

/-- The ASCII codes of a quoted literal (R10). -/
def ascii (s : String) : Bytes := s.toList.map fun ch => BitVec.ofNat 8 ch.toNat

/-- The byte 0x0A, written `\n`. -/
def newline : Byte := 0x0A
/-- The byte 0x22, the JSON string delimiter. -/
def quote : Byte := 0x22
/-- The byte 0x5C. -/
def backslash : Byte := 0x5C
/-- The byte 0x2C. -/
def comma : Byte := 0x2C
/-- The byte 0x3A. -/
def colon : Byte := 0x3A
/-- The byte 0x7B. -/
def openBrace : Byte := 0x7B
/-- The byte 0x7D. -/
def closeBrace : Byte := 0x7D
/-- The byte 0x3C, the opening envelope marker. -/
def markOpen : Byte := 0x3C
/-- The byte 0x3E, the closing envelope marker. -/
def markClose : Byte := 0x3E
/-- The byte 0x7C, the marker before the checksum digits. -/
def markBar : Byte := 0x7C

/-- `XOR(s)`: the exclusive-or of all bytes, 0 for the empty string (R10). -/
def xorBytes : Bytes → Byte
  | [] => 0
  | x :: xs => x ^^^ xorBytes xs

/-- `s[i .. j]`: bytes i to j inclusive (R10). -/
def slice (s : Bytes) (i j : Nat) : Bytes := (s.drop i).take (j + 1 - i)

/-- `s[i]`, byte i of a byte string (R10); every use is guarded by a length test. -/
def byteAt (s : Bytes) (i : Nat) : Byte := s.getD i 0

/-- The code of four consecutive big-endian bytes (R52):
`(p[k] << 24) | (p[k+1] << 16) | (p[k+2] << 8) | p[k+3]`. -/
def be32 (b3 b2 b1 b0 : Byte) : BitVec 32 :=
  (b3.setWidth 32 <<< 24) ||| (b2.setWidth 32 <<< 16) ||| (b1.setWidth 32 <<< 8) ||| b0.setWidth 32

/-- `[k[31:24], k[23:16], k[15:8], k[7:0]]` (R157). -/
def be32Bytes (k : BitVec 32) : Bytes :=
  [k.extractLsb' 24 8, k.extractLsb' 16 8, k.extractLsb' 8 8, k.extractLsb' 0 8]

/-- One more bit of a train: `(acc << 1) | zext_64(b)` (R88, R112). -/
def shiftIn (acc : Code) (b : Nat) : Code := (acc <<< 1) ||| BitVec.ofNat 64 b

/-- `elapsed(a, t) = (t - a) mod 2^TS_WIDTH` (R12). -/
def elapsed (a t : Stamp) : Nat := (t - a).toNat

/-- The byte of one decimal digit. -/
def digitByte (d : Nat) : Byte := BitVec.ofNat 8 (0x30 + d)

/-- A decimal digit `0` to `9`. -/
def isDigit (b : Byte) : Bool := decide (0x30 ≤ b.toNat ∧ b.toNat ≤ 0x39)

/-- The decimal spelling of n in at most `fuel` digits. -/
def decDigits : Nat → Nat → Bytes
  | 0, _ => []
  | fuel + 1, n => if n < 10 then [digitByte n] else decDigits fuel (n / 10) ++ [digitByte (n % 10)]

/-- `DEC(n)`: the canonical decimal spelling (R10, R204). Every integer of the block is at most
`2^64 - 1`, which has 20 digits. -/
def dec (n : Nat) : Bytes := decDigits 20 n

/-- The value of a string of decimal digits, most significant first (R53). -/
def decValue (ds : Bytes) : Nat := ds.foldl (fun n d => 10 * n + (d.toNat - 0x30)) 0

/-- The uppercase hexadecimal digit of a nibble. -/
def hexDigit (n : Nat) : Byte := if n < 10 then BitVec.ofNat 8 (0x30 + n) else BitVec.ofNat 8 (0x37 + n)

/-- `HEX2(v)`: two uppercase hexadecimal digits, high nibble first (R10, R201). -/
def hex2 (v : Byte) : Bytes := [hexDigit (v.toNat / 16), hexDigit (v.toNat % 16)]

/-- The value of a hexadecimal digit `0-9`, `A-F` or `a-f`; `none` for any other byte (R201). -/
def hexVal (b : Byte) : Option Nat :=
  let n := b.toNat
  if 0x30 ≤ n ∧ n ≤ 0x39 then some (n - 0x30)
  else if 0x41 ≤ n ∧ n ≤ 0x46 then some (n - 0x37)
  else if 0x61 ≤ n ∧ n ≤ 0x66 then some (n - 0x57)
  else none

/-- The value two checksum digits spell, `16 * hexval(H[0]) + hexval(H[1])`; `none` if either is not a
hexadecimal digit (R201). -/
def hexPair (h l : Byte) : Option Byte :=
  match hexVal h, hexVal l with
  | some a, some b => some (BitVec.ofNat 8 (16 * a + b))
  | _, _ => none

/-- `schar`: printable ASCII 0x20 to 0x7E except 0x22 and 0x5C (R205). -/
def isSchar (b : Byte) : Bool :=
  decide (0x20 ≤ b.toNat ∧ b.toNat ≤ 0x7E) && b != quote && b != backslash

/-- A string of the alphabet of R205. -/
def isStr (s : Bytes) : Bool := s.all isSchar

end Sys2Proof
end

