-- ==== Sys2Proof/Machine/Messages.lean ====
section
/-! DEFINITION. The records of the ports: the two message types (R85, R86), the ReaderEvent (R71), JSON values,
diagnostics (R261), reject reasons (R262), the results of decode and encode requests (R13) and of a
port operation (R90). -/

namespace Sys2Proof

/-- A door contact's state (R85, R86). -/
inductive DoorState
  | opened
  | closed
  deriving DecidableEq, Repr

/-- `BinMsg`, the message type of the binary format (R85). -/
inductive BinMsg
  | identify
  | setAddress (newAddress : Byte)
  | identifyResponse (uid : Bytes)
  | addressAck (status address : Byte)
  | cardRead (readerId bitLength : Byte) (code : BitVec 32)
  | heartbeat
  | rex (readerId : Byte)
  | doorContact (readerId : Byte) (state : DoorState)
  | feedbackGrant (readerId : Byte)
  | feedbackDeny (readerId : Byte)
  deriving DecidableEq, Repr

/-- The constructors of `BinMsg`, one per assigned tag (R78). -/
inductive BinKind
  | identify | setAddress | identifyResponse | addressAck | cardRead
  | heartbeat | rex | doorContact | feedbackGrant | feedbackDeny
  deriving DecidableEq, Repr

/-- `TxtMsg`, the message type of the text format (R86). -/
inductive TxtMsg
  | cardRead (hubAddr rdrId : Byte) (card : Code) (bits : Byte)
  | heartbeat (hubAddr : Byte)
  | rexEvent (hubAddr rdrId : Byte)
  | doorContact (hubAddr rdrId : Byte) (state : DoorState)
  | feedbackGrant (addr rdrId : Byte)
  | feedbackDeny (addr rdrId : Byte)
  | identify
  | setAddress (newAddr : Byte) (targetUid : Option Bytes)
  | identifyResponse (deviceKind uid : Bytes) (addr readers : Byte)
  | addressAck (status addr : Byte)
  deriving DecidableEq, Repr

/-- The text variants (R83). -/
inductive TxtKind
  | cardRead | heartbeat | rexEvent | doorContact | feedbackGrant
  | feedbackDeny | identify | setAddress | identifyResponse | addressAck
  deriving DecidableEq, Repr

/-- A value of the JSON subset: a string or an unsigned integer (R203). -/
inductive JVal
  | str (s : Bytes)
  | num (n : Nat)
  deriving DecidableEq, Repr

/-- A parsed object: its members in the order they stand (R203). -/
abbrev JObj := List (Bytes × JVal)

/-- A ReaderEvent (R71). -/
structure ReaderEvent where
  readerId : Byte
  code : Code
  bitLength : Byte
  deriving DecidableEq, Repr

/-- The diagnostic codes (R261). -/
inductive DiagCode
  | parity
  | evqOverflow
  | unencodable
  deriving DecidableEq, Repr

/-- The number of a diagnostic code (R261). -/
def DiagCode.number : DiagCode → Byte
  | .parity => 0x01
  | .evqOverflow => 0x02
  | .unencodable => 0x03

/-- A diagnostic pulse `Diag(code, arg)`; arg is a reader id (R260, R261). -/
structure Diag where
  code : DiagCode
  arg : Byte
  deriving DecidableEq, Repr

/-- The reject reasons (R262). -/
inductive RejectReason
  | binTruncated | binLength | binChecksum | binFields
  | txtTruncated | txtEnvelope | txtHex | txtChecksum | txtJson | txtFields | txtOverlong
  deriving DecidableEq, Repr

/-- The number of a reject reason (R262). -/
def RejectReason.number : RejectReason → Byte
  | .binTruncated => 0x10
  | .binLength => 0x11
  | .binChecksum => 0x12
  | .binFields => 0x13
  | .txtTruncated => 0x20
  | .txtEnvelope => 0x21
  | .txtHex => 0x22
  | .txtChecksum => 0x23
  | .txtJson => 0x24
  | .txtFields => 0x25
  | .txtOverlong => 0x26

/-- What BIN_DECODE returns (R13, R151). -/
inductive BinResult
  | msg (m : BinMsg)
  | unknown (tag : Byte) (fields : Bytes)
  | filler
  | reject (r : RejectReason)
  deriving DecidableEq, Repr

/-- What TXT_DECODE returns (R13, R202): an Unknown carries the `type` string, and the `cmd` string when
the type is "command" (R86). -/
inductive TxtResult
  | msg (m : TxtMsg)
  | unknown (type : Bytes) (cmd : Option Bytes)
  | reject (r : RejectReason)
  deriving DecidableEq, Repr

/-- What an encode request returns (R13). -/
inductive EncResult
  | frame (s : Bytes)
  | unencodable
  deriving DecidableEq, Repr

/-- The result an operation returns to its requester (R90); `none` for an operation with no result. -/
inductive Result
  | none
  | popped (ev : Option ReaderEvent)
  | lookup (c : Option Nat)
  | encoded (r : EncResult)
  | binDecoded (r : BinResult)
  | txtDecoded (r : TxtResult)
  | received (r : Option TxtResult)
  deriving DecidableEq, Repr

end Sys2Proof
end

