-- ==== Sys2Proof/Machine/BinCodec.lean ====
section
/-! DEFINITION. The binary format of the Codec Unit: FIELDS and PARSE of each tag (R153 to R162), framing and
checksum (R75 to R77, R151, R152), BIN_ENCODE (R150) and BIN_DECODE (R151). -/

namespace Sys2Proof

/-- The tag of a message (R78). -/
def BinKind.tag : BinKind → Byte
  | .identify => 0x01
  | .setAddress => 0x02
  | .feedbackGrant => 0x10
  | .feedbackDeny => 0x11
  | .identifyResponse => 0x41
  | .addressAck => 0x42
  | .cardRead => 0x81
  | .heartbeat => 0x82
  | .rex => 0x83
  | .doorContact => 0x84

/-- The message a tag selects, matched under mask 0xFF; `none` for an unassigned tag (R78, R80). -/
def binKindOf (tag : Byte) : Option BinKind :=
  if tag = 0x01 then some .identify
  else if tag = 0x02 then some .setAddress
  else if tag = 0x10 then some .feedbackGrant
  else if tag = 0x11 then some .feedbackDeny
  else if tag = 0x41 then some .identifyResponse
  else if tag = 0x42 then some .addressAck
  else if tag = 0x81 then some .cardRead
  else if tag = 0x82 then some .heartbeat
  else if tag = 0x83 then some .rex
  else if tag = 0x84 then some .doorContact
  else none

/-- The state byte of a DoorContact: 1 for Open, 0 for Closed (R88, R160). -/
def stateByte : DoorState → Byte
  | .opened => 1
  | .closed => 0

/-- `FIELDS_<tag>(m)`: the tag and the field bytes of a message (R153 to R162). -/
def binFields : BinMsg → Byte × Bytes
  | .identify => (0x01, [])
  | .setAddress a => (0x02, [a])
  | .identifyResponse uid => (0x41, BitVec.ofNat 8 uid.length :: uid)
  | .addressAck st a => (0x42, [st, a])
  | .cardRead r bl k => (0x81, r :: bl :: be32Bytes k)
  | .heartbeat => (0x82, [])
  | .rex r => (0x83, [r])
  | .doorContact r st => (0x84, [r, stateByte st])
  | .feedbackGrant r => (0x10, [r])
  | .feedbackDeny r => (0x11, [r])

/-- `PARSE_01` (R153). -/
def parseBinIdentify : Bytes → BinResult
  | [] => .msg .identify
  | _ => .reject .binFields

/-- `PARSE_02` (R154). -/
def parseBinSetAddress : Bytes → BinResult
  | [a] => .msg (.setAddress a)
  | _ => .reject .binFields

/-- `PARSE_41` (R155): `|F| = 1 + F[0]`. -/
def parseBinIdentifyResponse : Bytes → BinResult
  | n :: uid => if uid.length = n.toNat then .msg (.identifyResponse uid) else .reject .binFields
  | [] => .reject .binFields

/-- `PARSE_42` (R156). -/
def parseBinAddressAck : Bytes → BinResult
  | [st, a] => .msg (.addressAck st a)
  | _ => .reject .binFields

/-- `PARSE_81` (R157). -/
def parseBinCardRead : Bytes → BinResult
  | [r, bl, b3, b2, b1, b0] => .msg (.cardRead r bl (be32 b3 b2 b1 b0))
  | _ => .reject .binFields

/-- `PARSE_82` (R158). -/
def parseBinHeartbeat : Bytes → BinResult
  | [] => .msg .heartbeat
  | _ => .reject .binFields

/-- `PARSE_83` (R159). -/
def parseBinRex : Bytes → BinResult
  | [r] => .msg (.rex r)
  | _ => .reject .binFields

/-- `PARSE_84` (R160): the state byte is 0 or 1. -/
def parseBinDoorContact : Bytes → BinResult
  | [r, st] =>
    if st = 1 then .msg (.doorContact r .opened)
    else if st = 0 then .msg (.doorContact r .closed)
    else .reject .binFields
  | _ => .reject .binFields

/-- `PARSE_10` (R161). -/
def parseBinFeedbackGrant : Bytes → BinResult
  | [r] => .msg (.feedbackGrant r)
  | _ => .reject .binFields

/-- `PARSE_11` (R162). -/
def parseBinFeedbackDeny : Bytes → BinResult
  | [r] => .msg (.feedbackDeny r)
  | _ => .reject .binFields

/-- `PARSE_<tag>` for an assigned tag (R151). -/
def parseBin : BinKind → Bytes → BinResult
  | .identify => parseBinIdentify
  | .setAddress => parseBinSetAddress
  | .identifyResponse => parseBinIdentifyResponse
  | .addressAck => parseBinAddressAck
  | .cardRead => parseBinCardRead
  | .heartbeat => parseBinHeartbeat
  | .rex => parseBinRex
  | .doorContact => parseBinDoorContact
  | .feedbackGrant => parseBinFeedbackGrant
  | .feedbackDeny => parseBinFeedbackDeny

/-- A frame of the layout of R75: the payload `[tag, L] ++ F`, then the checksum byte. -/
def binFrame (tag len : Byte) (fields : Bytes) (cs : Byte) : Bytes := tag :: len :: (fields ++ [cs])

/-- The first of the length and checksum steps of R151 that a string other than the filler fails, in the
order of R263; `none` where it passes them all (R152). -/
def binFramingFault (s : Bytes) : Option RejectReason :=
  let n := s.length
  let len := (byteAt s 1).toNat
  if n < 3 then some .binTruncated
  else if n < len + 3 then some .binTruncated
  else if n > len + 3 then some .binLength
  else if xorBytes (slice s 0 (n - 2)) ≠ byteAt s (n - 1) then some .binChecksum
  else none

/-- `BIN_DECODE(s)` (R151). -/
def binDecode (s : Bytes) : BinResult :=
  if s = [0x00] then .filler
  else
    match binFramingFault s with
    | some r => .reject r
    | none =>
      match binKindOf (byteAt s 0) with
      | some k => parseBin k (slice s 2 (s.length - 2))
      | none => .unknown (byteAt s 0) (slice s 2 (s.length - 2))

/-- The result of a frame whose tag has selected `parse`: the framing and checksum steps of R151, then
`PARSE_<tag>` on the field bytes. -/
def binRow (parse : Bytes → BinResult) (tag len : Byte) (fields : Bytes) (cs : Byte) : BinResult :=
  match binFramingFault (binFrame tag len fields cs) with
  | some r => .reject r
  | none => parse fields

/-- `BIN_ENCODE(m)`; `none` is `Nothing` (R150, R165). -/
def binEncode : Option BinMsg → EncResult
  | none => .frame [0x00]
  | some m =>
    let tag := (binFields m).1
    let fields := (binFields m).2
    if fields.length > 255 then .unencodable
    else
      let p := tag :: BitVec.ofNat 8 fields.length :: fields
      .frame (p ++ [xorBytes p])

end Sys2Proof
end

