-- ==== Sys2Proof/Machine/Json.lean ====
section
/-! DEFINITION. The JSON subset of the text format: PARSE_JSON (R203 to R205) and the serialization of an object
(R207). -/

namespace Sys2Proof

/-- The content of a string and what follows its closing quote; every content byte is an `schar`
(R203, R205). The opening quote has been read. -/
def scanStr : Bytes → Option (Bytes × Bytes)
  | [] => none
  | x :: xs =>
    if x = quote then some ([], xs)
    else if isSchar x then
      match scanStr xs with
      | some (s, rest) => some (x :: s, rest)
      | none => none
    else none

/-- The longest run of decimal digits at the start, and the rest. -/
def spanDigits : Bytes → Bytes × Bytes
  | [] => ([], [])
  | x :: xs => if isDigit x then (x :: (spanDigits xs).1, (spanDigits xs).2) else ([], x :: xs)

/-- The value of a `uint` token (R203, R204): `"0"`, or 1 to 20 digits of which the first is not 0, and at
most `2^64 - 1`. -/
def uintValue (ds : Bytes) : Option Nat :=
  if (ds = [0x30] ∨ (ds ≠ [] ∧ ds.head? ≠ some 0x30 ∧ ds.length ≤ 20)) ∧ decValue ds < 2 ^ 64 then
    some (decValue ds)
  else none

/-- `value = string / uint` (R203), and the rest. -/
def scanValue : Bytes → Option (JVal × Bytes)
  | [] => none
  | x :: xs =>
    if x = quote then
      match scanStr xs with
      | some (s, rest) => some (.str s, rest)
      | none => none
    else
      match uintValue (spanDigits (x :: xs)).1 with
      | some n => some (.num n, (spanDigits (x :: xs)).2)
      | none => none

/-- `member = string ":" value` (R203), and the rest. -/
def scanMember : Bytes → Option ((Bytes × JVal) × Bytes)
  | [] => none
  | x :: xs =>
    if x = quote then
      match scanStr xs with
      | some (key, y :: rest) =>
        if y = colon then
          match scanValue rest with
          | some (v, rest') => some ((key, v), rest')
          | none => none
        else none
      | _ => none
    else none

/-- `member *( "," member ) "}"` (R203), and the rest; `fuel` bounds the number of members. -/
def scanMembers : Nat → Bytes → Option (JObj × Bytes)
  | 0, _ => none
  | fuel + 1, s =>
    match scanMember s with
    | some (m, y :: rest) =>
      if y = comma then
        match scanMembers fuel rest with
        | some (ms, rest') => some (m :: ms, rest')
        | none => none
      else if y = closeBrace then some ([m], rest)
      else none
    | _ => none

/-- The grammar of R203, matching the whole string; the members in their order. -/
def parseObject : Bytes → Option JObj
  | [] => none
  | x :: xs =>
    if x = openBrace then
      if xs = [closeBrace] then some []
      else
        match scanMembers xs.length xs with
        | some (o, []) => some o
        | _ => none
    else none

/-- `PARSE_JSON(J)` (R203): a grammatical object no key of which occurs twice. -/
def parseJson (j : Bytes) : Option JObj :=
  match parseObject j with
  | some o => if (o.map Prod.fst).Nodup then some o else none
  | none => none

/-- A value as the encoder writes it (R207). -/
def valueBytes : JVal → Bytes
  | .str s => quote :: (s ++ [quote])
  | .num n => dec n

/-- A member as the encoder writes it: `"key":value` (R207). -/
def memberBytes (m : Bytes × JVal) : Bytes := quote :: (m.1 ++ quote :: colon :: valueBytes m.2)

/-- The members joined by commas (R207). -/
def membersBytes : JObj → Bytes
  | [] => []
  | [m] => memberBytes m
  | m :: m' :: ms => memberBytes m ++ comma :: membersBytes (m' :: ms)

/-- An object written compactly (R207). -/
def objectBytes (o : JObj) : Bytes := openBrace :: (membersBytes o ++ [closeBrace])

/-- A value that R203 to R205 can spell. -/
def JVal.ok : JVal → Bool
  | .str s => isStr s
  | .num n => decide (n < 2 ^ 64)

/-- An object that PARSE_JSON can answer: keys and values of the grammar, no key twice (R203). -/
def objectOk (o : JObj) : Bool :=
  o.all (fun m => isStr m.1 && m.2.ok) && decide (o.map Prod.fst).Nodup

/-- The integer at a key, if it is in 0..255 (`U8`, R84). -/
def getU8 (o : JObj) (key : Bytes) : Option Byte :=
  match o.lookup key with
  | some (.num n) => if n ≤ 255 then some (BitVec.ofNat 8 n) else none
  | _ => none

/-- The integer at a key, if it is in 0..2^64-1 (`U64`, R84). -/
def getU64 (o : JObj) (key : Bytes) : Option Code :=
  match o.lookup key with
  | some (.num n) => if n < 2 ^ 64 then some (BitVec.ofNat 64 n) else none
  | _ => none

/-- The string at a key (`STR`, R84). -/
def getStr (o : JObj) (key : Bytes) : Option Bytes :=
  match o.lookup key with
  | some (.str s) => some s
  | _ => none

/-- The string at an optional key: `some none` where the key is absent (R84, R215). -/
def getOptStr (o : JObj) (key : Bytes) : Option (Option Bytes) :=
  match o.lookup key with
  | none => some none
  | some (.str s) => some (some s)
  | some (.num _) => none

/-- The door state at a key: the string "open" or "closed" (`STATE`, R84). -/
def getState (o : JObj) (key : Bytes) : Option DoorState :=
  match getStr o key with
  | some s => if s = ascii "open" then some .opened else if s = ascii "closed" then some .closed else none
  | none => none

/-- No member has a key outside the list (R206: "extra keys" are rejected). -/
def closedKeys (allowed : List Bytes) (o : JObj) : Bool := o.all fun m => allowed.contains m.1

end Sys2Proof
end

