-- ==== Sys2Proof/Machine/TxtCodec.lean ====
section
/-! DEFINITION. The text format of the Codec Unit: the type map (R83) and schema (R84), SCHEMA and JSON (R206 to
R217), the envelope and checksum (R81, R82, R201), TXT_ENCODE (R200) and TXT_DECODE (R202). -/

namespace Sys2Proof

/-- The key "type" (R84). -/
def kType : Bytes := ascii "type"
/-- The key "cmd" (R84). -/
def kCmd : Bytes := ascii "cmd"
/-- The key "hub_addr" (R84). -/
def kHubAddr : Bytes := ascii "hub_addr"
/-- The key "addr" (R84). -/
def kAddr : Bytes := ascii "addr"
/-- The key "rdr_id" (R84). -/
def kRdrId : Bytes := ascii "rdr_id"
/-- The key "card" (R84). -/
def kCard : Bytes := ascii "card"
/-- The key "bits" (R84). -/
def kBits : Bytes := ascii "bits"
/-- The key "state" (R84). -/
def kState : Bytes := ascii "state"
/-- The key "new_addr" (R84). -/
def kNewAddr : Bytes := ascii "new_addr"
/-- The key "target_uid" (R84). -/
def kTargetUid : Bytes := ascii "target_uid"
/-- The key "uid" (R84). -/
def kUid : Bytes := ascii "uid"
/-- The key "readers" (R84). -/
def kReaders : Bytes := ascii "readers"
/-- The key "status" (R84). -/
def kStatus : Bytes := ascii "status"
/-- The type value "command" (R83). -/
def tCommand : Bytes := ascii "command"

/-- The variant a `cmd` value selects (R83). -/
def txtCommandOf (cmd : Bytes) : Option TxtKind :=
  if cmd = ascii "feedback_grant" then some .feedbackGrant
  else if cmd = ascii "feedback_deny" then some .feedbackDeny
  else if cmd = ascii "identify" then some .identify
  else if cmd = ascii "set_address" then some .setAddress
  else none

/-- The variant a `type` value other than "command" selects (R83, R206). -/
def txtTypeOf (cfg : Config) (ty : Bytes) : Option TxtKind :=
  if ty = ascii "card_read" then some .cardRead
  else if ty = ascii "heartbeat" then some .heartbeat
  else if ty = ascii "event_rex" then some .rexEvent
  else if ty = ascii "event_door_contact" then some .doorContact
  else if ty = ascii "ack_set_address" then some .addressAck
  else if cfg.deviceKinds.contains ty then some .identifyResponse
  else none

/-- What an object's `type` and `cmd` select (R83, R206). -/
inductive TxtSelection
  | noType
  | unknown (type : Bytes) (cmd : Option Bytes)
  | variant (k : TxtKind)
  deriving DecidableEq, Repr

/-- The selecting steps of SCHEMA (R206, R218). -/
def txtSelect (cfg : Config) (o : JObj) : TxtSelection :=
  match getStr o kType with
  | none => .noType
  | some ty =>
    if ty = tCommand then
      match getStr o kCmd with
      | none => .noType
      | some cmd =>
        match txtCommandOf cmd with
        | some k => .variant k
        | none => .unknown ty (some cmd)
    else
      match txtTypeOf cfg ty with
      | some k => .variant k
      | none => .unknown ty none

/-- A decoded message, or REJ_TXT_FIELDS where a key is missing or not of its type (R206). -/
def txtMsgOr : Option TxtMsg → TxtResult
  | some m => .msg m
  | none => .reject .txtFields

/-- The schema check of one variant: no key outside its list, then its values (R206). -/
def txtSchema (allowed : List Bytes) (values : JObj → Option TxtMsg) (o : JObj) : TxtResult :=
  if closedKeys allowed o then txtMsgOr (values o) else .reject .txtFields

/-- The schema of CardRead (R84, R208). -/
def schemaCardRead : JObj → TxtResult :=
  txtSchema [kType, kHubAddr, kRdrId, kCard, kBits] fun o => do
    let a ← getU8 o kHubAddr
    let r ← getU8 o kRdrId
    let k ← getU64 o kCard
    let b ← getU8 o kBits
    return .cardRead a r k b

/-- The schema of Heartbeat (R84, R209). -/
def schemaHeartbeat : JObj → TxtResult :=
  txtSchema [kType, kHubAddr] fun o => do
    let a ← getU8 o kHubAddr
    return .heartbeat a

/-- The schema of RexEvent (R84, R210). -/
def schemaRexEvent : JObj → TxtResult :=
  txtSchema [kType, kHubAddr, kRdrId] fun o => do
    let a ← getU8 o kHubAddr
    let r ← getU8 o kRdrId
    return .rexEvent a r

/-- The schema of DoorContact (R84, R211). -/
def schemaDoorContact : JObj → TxtResult :=
  txtSchema [kType, kHubAddr, kRdrId, kState] fun o => do
    let a ← getU8 o kHubAddr
    let r ← getU8 o kRdrId
    let st ← getState o kState
    return .doorContact a r st

/-- The schema of FeedbackGrant (R84, R212). -/
def schemaFeedbackGrant : JObj → TxtResult :=
  txtSchema [kType, kCmd, kAddr, kRdrId] fun o => do
    let a ← getU8 o kAddr
    let r ← getU8 o kRdrId
    return .feedbackGrant a r

/-- The schema of FeedbackDeny (R84, R213). -/
def schemaFeedbackDeny : JObj → TxtResult :=
  txtSchema [kType, kCmd, kAddr, kRdrId] fun o => do
    let a ← getU8 o kAddr
    let r ← getU8 o kRdrId
    return .feedbackDeny a r

/-- The schema of Identify (R84, R214). -/
def schemaIdentify : JObj → TxtResult :=
  txtSchema [kType, kCmd] fun _ => some .identify

/-- The schema of SetAddress (R84, R215). -/
def schemaSetAddress : JObj → TxtResult :=
  txtSchema [kType, kCmd, kNewAddr, kTargetUid] fun o => do
    let n ← getU8 o kNewAddr
    let u ← getOptStr o kTargetUid
    return .setAddress n u

/-- The schema of IdentifyResponse: `type` is the device kind (R84, R216). -/
def schemaIdentifyResponse : JObj → TxtResult :=
  txtSchema [kType, kUid, kAddr, kReaders] fun o => do
    let k ← getStr o kType
    let u ← getStr o kUid
    let a ← getU8 o kAddr
    let n ← getU8 o kReaders
    return .identifyResponse k u a n

/-- The schema of AddressAck (R84, R217). -/
def schemaAddressAck : JObj → TxtResult :=
  txtSchema [kType, kStatus, kAddr] fun o => do
    let st ← getU8 o kStatus
    let a ← getU8 o kAddr
    return .addressAck st a

/-- The schema of a variant (R206). -/
def schemaOf : TxtKind → JObj → TxtResult
  | .cardRead => schemaCardRead
  | .heartbeat => schemaHeartbeat
  | .rexEvent => schemaRexEvent
  | .doorContact => schemaDoorContact
  | .feedbackGrant => schemaFeedbackGrant
  | .feedbackDeny => schemaFeedbackDeny
  | .identify => schemaIdentify
  | .setAddress => schemaSetAddress
  | .identifyResponse => schemaIdentifyResponse
  | .addressAck => schemaAddressAck

/-- `SCHEMA(o)` (R206). -/
def txtSchemaOf (cfg : Config) (o : JObj) : TxtResult :=
  match txtSelect cfg o with
  | .noType => .reject .txtFields
  | .unknown ty cmd => .unknown ty cmd
  | .variant k => schemaOf k o

/-- A U8 as a JSON value. -/
def u8Val (v : Byte) : JVal := .num v.toNat

/-- A STATE as a JSON value (R207). -/
def stateVal : DoorState → JVal
  | .opened => .str (ascii "open")
  | .closed => .str (ascii "closed")

/-- The keys and values of a message in the encoder's order (R84, R207): an optional key whose value is
None is left out. -/
def txtObject : TxtMsg → JObj
  | .cardRead a r k b =>
    [(kType, .str (ascii "card_read")), (kHubAddr, u8Val a), (kRdrId, u8Val r), (kCard, .num k.toNat),
      (kBits, u8Val b)]
  | .heartbeat a => [(kType, .str (ascii "heartbeat")), (kHubAddr, u8Val a)]
  | .rexEvent a r => [(kType, .str (ascii "event_rex")), (kHubAddr, u8Val a), (kRdrId, u8Val r)]
  | .doorContact a r st =>
    [(kType, .str (ascii "event_door_contact")), (kHubAddr, u8Val a), (kRdrId, u8Val r), (kState, stateVal st)]
  | .feedbackGrant a r =>
    [(kType, .str tCommand), (kCmd, .str (ascii "feedback_grant")), (kAddr, u8Val a), (kRdrId, u8Val r)]
  | .feedbackDeny a r =>
    [(kType, .str tCommand), (kCmd, .str (ascii "feedback_deny")), (kAddr, u8Val a), (kRdrId, u8Val r)]
  | .identify => [(kType, .str tCommand), (kCmd, .str (ascii "identify"))]
  | .setAddress n none => [(kType, .str tCommand), (kCmd, .str (ascii "set_address")), (kNewAddr, u8Val n)]
  | .setAddress n (some u) =>
    [(kType, .str tCommand), (kCmd, .str (ascii "set_address")), (kNewAddr, u8Val n), (kTargetUid, .str u)]
  | .identifyResponse k u a n =>
    [(kType, .str k), (kUid, .str u), (kAddr, u8Val a), (kReaders, u8Val n)]
  | .addressAck st a =>
    [(kType, .str (ascii "ack_set_address")), (kStatus, u8Val st), (kAddr, u8Val a)]

/-- Every string value of an object is in the alphabet of R205. -/
def stringsOk (o : JObj) : Bool :=
  o.all fun m =>
    match m.2 with
    | .str s => isStr s
    | .num _ => true

/-- `JSON(m)`; `none` where a string value has a byte outside the alphabet (R207). -/
def txtJson (m : TxtMsg) : Option Bytes :=
  if stringsOk (txtObject m) then some (objectBytes (txtObject m)) else none

/-- The line of a payload: `"<" ++ J ++ ">|" ++ H ++ "\n"` with the checksum digits given (R81). -/
def txtLine (j : Bytes) (h l : Byte) : Bytes := markOpen :: (j ++ [markClose, markBar, h, l, newline])

/-- The line of a payload with its own checksum, as the encoder writes it (R81, R82, R201). -/
def txtFrame (j : Bytes) : Bytes :=
  markOpen :: (j ++ markClose :: markBar :: (hex2 (xorBytes j) ++ [newline]))

/-- `TXT_ENCODE(m)` (R200). -/
def txtEncode (cfg : Config) (m : TxtMsg) : EncResult :=
  match txtJson m with
  | none => .unencodable
  | some j => if (txtFrame j).length > cfg.txtMaxLine then .unencodable else .frame (txtFrame j)

/-- `J = s[1 .. n-6]` (R81, R202). -/
def txtPayload (s : Bytes) : Bytes := slice s 1 (s.length - 6)

/-- The first of the envelope and checksum steps of R202 that a line fails, in the order of R264; `none`
where it passes them all. -/
def txtFramingFault (cfg : Config) (s : Bytes) : Option RejectReason :=
  let n := s.length
  if n < 6 ∨ byteAt s (n - 1) ≠ newline then some .txtTruncated
  else if n > cfg.txtMaxLine then some .txtOverlong
  else if byteAt s 0 ≠ markOpen ∨ byteAt s (n - 5) ≠ markClose ∨ byteAt s (n - 4) ≠ markBar then
    some .txtEnvelope
  else
    match hexPair (byteAt s (n - 3)) (byteAt s (n - 2)) with
    | none => some .txtHex
    | some v => if v ≠ xorBytes (txtPayload s) then some .txtChecksum else none

/-- `TXT_DECODE(s)` (R202). -/
def txtDecode (cfg : Config) (s : Bytes) : TxtResult :=
  match txtFramingFault cfg s with
  | some r => .reject r
  | none =>
    match parseJson (txtPayload s) with
    | none => .reject .txtJson
    | some o => txtSchemaOf cfg o

end Sys2Proof
end

