-- ==== Sys2Proof/Machine/Boundary.lean ====
section
/-! DEFINITION. The checks at the block's boundary: configuration well-formedness (R8), and which operands spell an
operation of the block (R276). An operation that fails its check gets no step: its meaning answers
with a refusal of its own name. -/

namespace Sys2Proof

/-- The reserved `type` values, which no device kind may be (R8). -/
def reservedTypes : List Bytes :=
  [ascii "card_read", ascii "heartbeat", ascii "event_rex", ascii "event_door_contact", ascii "command",
    ascii "ack_set_address"]

/-- A string that may be a device kind (R8). -/
def deviceKindOk (k : Bytes) : Bool := k != [] && isStr k && !reservedTypes.contains k

/-- Configuration well-formedness (R8). `READER_ID[c]` is in 0..255 by its type. -/
def configOk (cfg : Config) : Bool :=
  decide (1 ≤ cfg.numReaders ∧ cfg.numReaders ≤ 255) && decide cfg.readerId.Nodup &&
    decide (1 ≤ cfg.evqCap) && decide (8 ≤ cfg.txtMaxLine) &&
    decide (Config.minPulseUs < Config.idleUs ∧ Config.idleUs < 2 ^ (Config.tsWidth - 1)) &&
    cfg.deviceKinds.all deviceKindOk

/-- An EDGE names a channel of the block and line 0 or 1 (R70, R276). -/
def edgeOk (cfg : Config) (c b : Nat) : Bool := decide (c < cfg.numReaders ∧ b ≤ 1)

/-- The level vectors of a SAMPLE have one level in {0, 1} for each channel (R72, R276). -/
def sampleOk (cfg : Config) (d0 d1 : List Nat) : Bool :=
  decide (d0.length = cfg.numReaders ∧ d1.length = cfg.numReaders) &&
    d0.all (fun v => decide (v ≤ 1)) && d1.all (fun v => decide (v ≤ 1))

/-- A well-typed BinMsg: `|uid| <= 254` (R85, R276). -/
def binMsgOk : BinMsg → Bool
  | .identifyResponse uid => decide (uid.length ≤ 254)
  | _ => true

/-- A BIN_ENCODE request: a well-typed BinMsg, or Nothing (R150). -/
def binRequestOk : Option BinMsg → Bool
  | some m => binMsgOk m
  | none => true

/-- A well-typed TxtMsg: its device kind is in `DEVICE_KINDS` (R86, R216, R276). -/
def txtMsgOk (cfg : Config) : TxtMsg → Bool
  | .identifyResponse k _ _ _ => cfg.deviceKinds.contains k
  | _ => true

end Sys2Proof
end

