-- ==== Sys2Proof/Machine/Ports.lean ====
section
/-! DEFINITION. What arrives at the block's ports (R90, R91): operation records on the operation ports, byte strings on
the binary bus, lines on the text port. -/

namespace Sys2Proof

/-- The port operations (R90): the port an operation arrives on selects it. -/
inductive PortOp
  | edge | tick | sample | pop | lookup | binEncode | binDecode | ev2bin
  | txtEncode | txtDecode | ev2txt | rxbyte | reset
  deriving DecidableEq, Repr

/-- One operand of an operation record. A message is written as its constructor and then its fields. -/
inductive Operand
  | num (n : Nat)
  | levels (l : List Nat)
  | bytes (s : Bytes)
  | bin (k : BinKind)
  | txt (k : TxtKind)
  | door (st : DoorState)
  /-- `None` for an optional field. -/
  | absent
  /-- `Nothing`, the request for the filler (R150). -/
  | nothing
  deriving DecidableEq, Repr

/-- One input of the block. -/
inductive Input
  /-- An operation record `(OPERATION, operands)` (R90, R91). -/
  | record (op : PortOp) (args : List Operand)
  /-- One transaction of the binary bus: a whole byte string (R73). -/
  | bus (s : Bytes)
  /-- One text line, up to and including its newline (R73). -/
  | line (s : Bytes)
  deriving DecidableEq, Repr

/-- Why an input spells no operation of the block; the decoder rejects it by this name. -/
inductive DecodeError
  /-- The record does not have the operands of its operation. -/
  | operands (op : PortOp)
  /-- An integer operand does not fit its width. -/
  | range (op : PortOp)
  deriving DecidableEq, Repr

end Sys2Proof
end

