-- ==== Sys2Proof/Machine/State.lean ====
section
/-! DEFINITION. The state: everything 10_state.md gives the block, and the model's own fields (the configuration, the
draw counter, the outputs of the latest operation, the inputs to come). -/

namespace Sys2Proof.Machine

/-- Nothing stops the block: it "takes no trap" and no condition "makes the block stop" (R266; no entry of
93_implementation_defined.md uses `fault` or `stuck`), so there is no fault to name. -/
inductive Fault
  deriving DecidableEq, Repr

/-- Why an input gets no step. Each is safe: the spec says that such an input is no operation of the block
and that a model refuses it (R276). -/
inductive Refusal
  /-- Raised by exec for an instruction that has no meaning yet; safe. No arm raises it. -/
  | notModelled (mnemonic : String)
  /-- Raised by step under a configuration that fails R8; safe (R276). -/
  | badConfiguration
  /-- Raised by step for an input that spells no operation, with the decoder's name for what is wrong;
  safe (R276). -/
  | badRecord (e : DecodeError)
  /-- Raised by EDGE for a channel or a line the block does not have; safe (R70, R276). -/
  | badEdge
  /-- Raised by SAMPLE for level vectors that are not one level in {0, 1} per channel; safe (R276). -/
  | badSample
  /-- Raised by BIN_ENCODE for a BinMsg with a uid of more than 254 bytes; safe (R276). -/
  | badBinMsg
  /-- Raised by TXT_ENCODE for a device kind outside DEVICE_KINDS; safe (R216, R276). -/
  | badTxtMsg
  /-- Raised by a BIN or TXT row whose operands are a frame of another row, a term the decoder never
  gives; safe (R78, R83). -/
  | notThisRow
  deriving DecidableEq, Repr

/-- The registers of one decoder channel (R22). -/
structure Channel where
  /-- accumulated_bits, the first bit of the train most significant. -/
  acc : Code
  /-- bit_count. -/
  cnt : Byte
  /-- last_pulse_time. -/
  last : Stamp
  /-- The idle timer is running. -/
  armed : Bool
  /-- The last sampled level of line D0; true is high. -/
  prev0 : Bool
  /-- The last sampled level of line D1; true is high. -/
  prev1 : Bool
  /-- The line front end has taken its first sample since reset. -/
  seen : Bool
  deriving DecidableEq, Repr

/-- A channel after reset (R35). -/
def Channel.reset : Channel where
  acc := 0
  cnt := 0
  last := 0
  armed := false
  prev0 := true
  prev1 := true
  seen := false

/-- The state of the block. -/
structure State where
  /-- The channel registers, channel c at index c (R22). -/
  chans : List Channel
  /-- The event hand-off queue, oldest first (R27). -/
  evq : List ReaderEvent
  /-- The bytes of the current text line so far (R29). -/
  rxbuf : Bytes
  /-- The rest of an overlong line is being thrown away (R29). -/
  rxdiscard : Bool
  /-- The model's own: the configuration of this block (R7), which no operation writes (DESIGN CHOICE, safe:
  log entry 1). -/
  cfg : Config
  /-- The model's own: how many open draws have been taken (DESIGN CHOICE, safe: log entry 5). -/
  draws : Nat
  /-- The model's own: the diagnostic pulses of the latest operation, in the order emitted (R260; DESIGN CHOICE,
  safe: log entry 4). -/
  diags : List Diag
  /-- The model's own: the result of the latest operation (R90; DESIGN CHOICE, safe: log entry 4). -/
  result : Result
  /-- The model's own: the inputs still to come, in the total order of R55 (DESIGN CHOICE, safe: log entry 2). -/
  input : List Input
  deriving DecidableEq, Repr

/-- The state of R35 under a configuration, with nothing to come and no draw taken. -/
def State.resetWith (cfg : Config) : State where
  chans := List.replicate cfg.numReaders Channel.reset
  evq := []
  rxbuf := []
  rxdiscard := false
  cfg := cfg
  draws := 0
  diags := []
  result := .none
  input := []

/-- The machine right after reset, under the default configuration (R7, R35). -/
def State.reset : State := State.resetWith Config.default

end Sys2Proof.Machine
end

