-- ==== Sys2Proof/Machine/Flags.lean ====
section
/-! DEFINITION. The block has no flag register (R31). The two conditions that show at the outputs, and the two conditions
of time the Decoder Unit tests, each computed from state: nothing here is stored. -/

namespace Sys2Proof.Machine

/-- `popcount(v)` (R9). -/
def popcount {w : Nat} (v : BitVec w) : Nat := (List.range w).countP fun i => v.getLsbD i

/-- `W26_OK(v)`: `v[25:13]` has an even and `v[12:0]` an odd number of ones (R117). -/
def w26Ok (v : Code) : Bool :=
  decide (popcount (v.extractLsb' 13 13) % 2 = 0) && decide (popcount (v.extractLsb' 0 13) % 2 = 1)

/-- The output `ev_valid`: the hand-off queue is not empty (R28). -/
def State.evValid (s : State) : Bool := !s.evq.isEmpty

/-- The idle timer of a channel is due at t (R114). -/
def Channel.due (ch : Channel) (t : Stamp) : Bool :=
  ch.armed && decide (Config.idleUs ≤ elapsed ch.last t)

/-- `ACCEPT`: an edge at t passes the debounce test (R111). -/
def Channel.accepts (ch : Channel) (t : Stamp) : Bool := decide (Config.minPulseUs ≤ elapsed ch.last t)

end Sys2Proof.Machine
end

