-- ==== Sys2Proof/Machine/Ops.lean ====
section
/-! DEFINITION. The operations the meanings share: outputs, channel access, PUSH, FINALIZE, SWEEP, APPEND and ARM, the
edge, the line front end, and the text receiver. There is no exception entry and no return from one
to share: the block takes no trap (R266, R267). -/

namespace Sys2Proof.Machine

/-- The outputs belong to one operation: a new one starts with none (R260). -/
def State.begin (s : State) : State := { s with diags := [], result := .none }

/-- `emit Diag(code, arg)` (R260). -/
def State.emit (s : State) (code : DiagCode) (arg : Byte) : State :=
  { s with diags := s.diags ++ [⟨code, arg⟩] }

/-- `return v` (R11). -/
def State.answer (s : State) (r : Result) : State := { s with result := r }

/-- A channel's registers; those of reset for an index the block does not have. -/
def State.chan (s : State) (c : Nat) : Channel := s.chans.getD c Channel.reset

/-- Write a channel's registers; an index the block does not have is left alone. -/
def State.modifyChan (s : State) (c : Nat) (f : Channel → Channel) : State :=
  { s with chans := s.chans.modify c f }

/-- `READER_ID[c]` (R7). -/
def readerIdOf (cfg : Config) (c : Nat) : Byte := cfg.readerId.getD c 0

/-- `PUSH(ev)`: at capacity the newest event is dropped with DIAG_EVQ_OVERFLOW (R27, R118). -/
def push (ev : ReaderEvent) (s : State) : State :=
  if s.evq.length ≥ s.cfg.evqCap then s.emit .evqOverflow ev.readerId
  else { s with evq := s.evq ++ [ev] }

/-- The clearing of FINALIZE: the train, its timestamp and the timer; the line front end stays (R22, R116). -/
def Channel.cleared (ch : Channel) : Channel := { ch with acc := 0, cnt := 0, last := 0, armed := false }

/-- What FINALIZE does with a finished train (R116). -/
def deliver (c : Nat) (ch : Channel) (s : State) : State :=
  if ch.cnt = 0 then s
  else if ch.cnt.toNat = Config.w26Len ∧ w26Ok ch.acc = false then s.emit .parity (readerIdOf s.cfg c)
  else push ⟨readerIdOf s.cfg c, ch.acc, ch.cnt⟩ s

/-- `FINALIZE(c)` (R116). -/
def finalize (c : Nat) (s : State) : State := (deliver c (s.chan c) s).modifyChan c Channel.cleared

/-- The channels whose idle timer is due at t (R114, R115). -/
def dueChannels (s : State) (t : Stamp) : List Nat :=
  (List.range s.cfg.numReaders).filter fun c => (s.chan c).due t

/-- Channels in the order of their keys. -/
def orderBy (key : Nat → Nat) (d : List Nat) : List Nat := d.insertionSort fun a b => key a ≤ key b

/-- The sweep with its order given: every due channel is finalized, in the order of the keys (R115). -/
def sweepBy (key : Nat → Nat) (t : Stamp) (s : State) : State :=
  (orderBy key (dueChannels s t)).foldl (fun s c => finalize c s) s

/-- `SWEEP(t)` (R115). SWEEP_ORDER is a draw: where two or more channels are due, the next free order is
taken. -/
def sweep (t : Stamp) (s : State) : State :=
  if (dueChannels s t).length < 2 then sweepBy (fun _ => 0) t s
  else { sweepBy (Config.sweepKey s.draws) t s with draws := s.draws + 1 }

/-- `APPEND(c, b)`: bits after the 64th are dropped (R112). -/
def Channel.append (ch : Channel) (b : Nat) : Channel :=
  if ch.cnt.toNat < Config.bitCap then { ch with acc := shiftIn ch.acc b, cnt := ch.cnt + 1 } else ch

/-- `ARM(c, t)` (R113). -/
def Channel.arm (ch : Channel) (t : Stamp) : Channel := { ch with last := t, armed := true }

/-- The edge itself, after the sweep: a bounce is ignored, an accepted edge appends its bit and arms the
timer (R110, R111). -/
def takeEdge (c b : Nat) (t : Stamp) (s : State) : State :=
  if (s.chan c).accepts t then s.modifyChan c fun ch => (ch.append b).arm t else s

/-- `EDGE(c, b, t)`: due timers first (R110). -/
def edgeOp (c b : Nat) (t : Stamp) (s : State) : State := takeEdge c b t (sweep t s)

/-- The level of one line in a sample; 1 is high (R72). -/
def levelOf (d : List Nat) (c : Nat) : Bool := d.getD c 1 == 1

/-- The lines of a channel that fall from the last sampled level to a new one (R122). -/
def fallingLines (ch : Channel) (l0 l1 : Bool) : List Nat :=
  (if ch.prev0 && !l0 then [0] else []) ++ (if ch.prev1 && !l1 then [1] else [])

/-- One channel of a sample with the order of two edges given: the levels are loaded, and after the
first sample each falling line is an edge (R122). -/
def sampleChanBy (d1First : Bool) (t : Stamp) (c : Nat) (l0 l1 : Bool) (s : State) : State :=
  let ch := s.chan c
  let loaded := s.modifyChan c fun ch => { ch with prev0 := l0, prev1 := l1, seen := true }
  let lines := fallingLines ch l0 l1
  if ch.seen then
    (if d1First then lines.reverse else lines).foldl (fun s b => edgeOp c b t s) loaded
  else loaded

/-- One channel of a sample. LINE_ORDER is a draw: where both lines fall, the next free order is taken
(R122, R124). -/
def sampleChan (t : Stamp) (c : Nat) (l0 l1 : Bool) (s : State) : State :=
  if (s.chan c).seen = true ∧ (fallingLines (s.chan c) l0 l1).length = 2 then
    sampleChanBy (Config.d1First s.draws c) t c l0 l1 { s with draws := s.draws + 1 }
  else sampleChanBy false t c l0 l1 s

/-- `SAMPLE(t, d0, d1)` (R122). -/
def sampleOp (t : Stamp) (d0 d1 : List Nat) (s : State) : State :=
  (List.range s.cfg.numReaders).foldl (fun s c => sampleChan t c (levelOf d0 c) (levelOf d1 c) s) (sweep t s)

/-- `RXBYTE(x)`: the receiver's registers after the byte, and what it returns (R230). -/
def receive (x : Byte) (s : State) : State :=
  if s.rxdiscard then
    (if x = newline then { s with rxdiscard := false } else s).answer (.received none)
  else if x = newline then
    { s with rxbuf := [] }.answer (.received (some (txtDecode s.cfg (s.rxbuf ++ [newline]))))
  else if s.rxbuf.length = s.cfg.txtMaxLine - 1 then
    { s with rxbuf := [], rxdiscard := true }.answer (.received (some (.reject .txtOverlong)))
  else { s with rxbuf := s.rxbuf ++ [x] }.answer (.received none)

/-- `RESET`: every register to its reset value; configuration, draws and inputs are no registers (R290). -/
def resetRegisters (s : State) : State :=
  { s with
    chans := List.replicate s.cfg.numReaders Channel.reset
    evq := []
    rxbuf := []
    rxdiscard := false }

end Sys2Proof.Machine
end

