-- ==== Sys2Proof/Machine/BinFrames.lean ====
section
/-! DEFINITION. The meanings of the BIN rows: a frame on the binary bus is checked (R151, R152), its field bytes are
parsed by its tag's rule (R153 to R164), and the result is returned. No register changes (R30). -/

namespace Sys2Proof.Machine

/-- The result of a decode request on the binary port is returned; nothing else happens (R30, R58). -/
def answerBin (r : BinResult) (s : State) : Host.Outcome State Fault Refusal :=
  .next (s.begin.answer (.binDecoded r))

/-- A frame with tag 0x01, `Identify` (R153). -/
def execBinIdentify (len : Byte) (fields : Bytes) (cs : Byte) (s : State) :
    Host.Outcome State Fault Refusal :=
  answerBin (binRow parseBinIdentify 0x01 len fields cs) s

/-- A frame with tag 0x02, `SetAddress` (R154). -/
def execBinSetAddress (len : Byte) (fields : Bytes) (cs : Byte) (s : State) :
    Host.Outcome State Fault Refusal :=
  answerBin (binRow parseBinSetAddress 0x02 len fields cs) s

/-- A frame with tag 0x10, `FeedbackGrant` (R161). -/
def execBinFeedbackGrant (len : Byte) (fields : Bytes) (cs : Byte) (s : State) :
    Host.Outcome State Fault Refusal :=
  answerBin (binRow parseBinFeedbackGrant 0x10 len fields cs) s

/-- A frame with tag 0x11, `FeedbackDeny` (R162). -/
def execBinFeedbackDeny (len : Byte) (fields : Bytes) (cs : Byte) (s : State) :
    Host.Outcome State Fault Refusal :=
  answerBin (binRow parseBinFeedbackDeny 0x11 len fields cs) s

/-- A frame with tag 0x41, `IdentifyResponse` (R155). -/
def execBinIdentifyResponse (len : Byte) (fields : Bytes) (cs : Byte) (s : State) :
    Host.Outcome State Fault Refusal :=
  answerBin (binRow parseBinIdentifyResponse 0x41 len fields cs) s

/-- A frame with tag 0x42, `AddressAck` (R156). -/
def execBinAddressAck (len : Byte) (fields : Bytes) (cs : Byte) (s : State) :
    Host.Outcome State Fault Refusal :=
  answerBin (binRow parseBinAddressAck 0x42 len fields cs) s

/-- A frame with tag 0x81, `CardRead` (R157). -/
def execBinCardRead (len : Byte) (fields : Bytes) (cs : Byte) (s : State) :
    Host.Outcome State Fault Refusal :=
  answerBin (binRow parseBinCardRead 0x81 len fields cs) s

/-- A frame with tag 0x82, `Heartbeat` (R158). -/
def execBinHeartbeat (len : Byte) (fields : Bytes) (cs : Byte) (s : State) :
    Host.Outcome State Fault Refusal :=
  answerBin (binRow parseBinHeartbeat 0x82 len fields cs) s

/-- A frame with tag 0x83, `Rex` (R159). -/
def execBinRex (len : Byte) (fields : Bytes) (cs : Byte) (s : State) :
    Host.Outcome State Fault Refusal :=
  answerBin (binRow parseBinRex 0x83 len fields cs) s

/-- A frame with tag 0x84, `DoorContact` (R160). -/
def execBinDoorContact (len : Byte) (fields : Bytes) (cs : Byte) (s : State) :
    Host.Outcome State Fault Refusal :=
  answerBin (binRow parseBinDoorContact 0x84 len fields cs) s

/-- The one-byte string 0x00, the filler (R165). -/
def execBinFiller (s : State) : Host.Outcome State Fault Refusal := answerBin .filler s

/-- A frame with an unassigned tag: past framing and checksum it is an Unknown, its field bytes unchecked
(R80, R163). A term with an assigned tag is no frame of this row. -/
def execBinUnknown (tag len : Byte) (fields : Bytes) (cs : Byte) (s : State) :
    Host.Outcome State Fault Refusal :=
  if binKindOf tag = none then answerBin (binRow (fun f => .unknown tag f) tag len fields cs) s
  else .refused .notThisRow

end Sys2Proof.Machine
end

