-- ==== Sys2Proof/Machine/CodecUnit.lean ====
section
/-! DEFINITION. The meanings of the Codec Unit's port operations (41_binary_codec.md, 42_text_codec.md): encode and decode
requests, the event bridges, and the text line receiver. -/

namespace Sys2Proof.Machine

/-- `BIN_ENCODE(m)`, with `none` for Nothing (R150, R165). -/
def execBinEncode (m : Option BinMsg) (s : State) : Host.Outcome State Fault Refusal :=
  if binRequestOk m then .next (s.begin.answer (.encoded (binEncode m))) else .refused .badBinMsg

/-- `BIN_DECODE(s)` (R151). -/
def execBinDecode (bytes : Bytes) (s : State) : Host.Outcome State Fault Refusal :=
  .next (s.begin.answer (.binDecoded (binDecode bytes)))

/-- `EV2BIN(ev)`: a code that does not fit 32 bits is not sent in binary (R166). -/
def execEv2bin (ev : ReaderEvent) (s : State) : Host.Outcome State Fault Refusal :=
  if ev.code.toNat ≥ 2 ^ 32 then
    .next ((s.begin.emit .unencodable ev.readerId).answer (.encoded .unencodable))
  else
    .next (s.begin.answer
      (.encoded (binEncode (some (.cardRead ev.readerId ev.bitLength (ev.code.extractLsb' 0 32))))))

/-- `TXT_ENCODE(m)` (R200). -/
def execTxtEncode (m : TxtMsg) (s : State) : Host.Outcome State Fault Refusal :=
  if txtMsgOk s.cfg m then .next (s.begin.answer (.encoded (txtEncode s.cfg m))) else .refused .badTxtMsg

/-- `TXT_DECODE(s)` (R202). -/
def execTxtDecode (bytes : Bytes) (s : State) : Host.Outcome State Fault Refusal :=
  .next (s.begin.answer (.txtDecoded (txtDecode s.cfg bytes)))

/-- `EV2TXT(ev, NODE_ADDR)` (R219). -/
def execEv2txt (ev : ReaderEvent) (nodeAddr : Byte) (s : State) : Host.Outcome State Fault Refusal :=
  let r := txtEncode s.cfg (.cardRead nodeAddr ev.readerId ev.code ev.bitLength)
  if r = .unencodable then .next ((s.begin.emit .unencodable ev.readerId).answer (.encoded r))
  else .next (s.begin.answer (.encoded r))

/-- `RXBYTE(x)` (R230). -/
def execRxbyte (x : Byte) (s : State) : Host.Outcome State Fault Refusal := .next (receive x s.begin)

end Sys2Proof.Machine
end

