-- ==== Sys2Proof/Machine/DecoderUnit.lean ====
section
/-! DEFINITION. The meanings of the Decoder Unit's operations (40_decoder.md) and of RESET (R290). -/

namespace Sys2Proof.Machine

/-- `EDGE(c, b, t)` (R110); a channel or line the block does not have spells no operation (R70). -/
def execEdge (c b : Nat) (t : Stamp) (s : State) : Host.Outcome State Fault Refusal :=
  if edgeOk s.cfg c b then .next (edgeOp c b t s.begin) else .refused .badEdge

/-- `TICK(t)` (R119). -/
def execTick (t : Stamp) (s : State) : Host.Outcome State Fault Refusal := .next (sweep t s.begin)

/-- `SAMPLE(t, d0, d1)` (R122). -/
def execSample (t : Stamp) (d0 d1 : List Nat) (s : State) : Host.Outcome State Fault Refusal :=
  if sampleOk s.cfg d0 d1 then .next (sampleOp t d0 d1 s.begin) else .refused .badSample

/-- `POP` (R120). -/
def execPop (s : State) : Host.Outcome State Fault Refusal :=
  match s.evq with
  | [] => .next (s.begin.answer (.popped none))
  | ev :: rest => .next ({ s.begin with evq := rest }.answer (.popped (some ev)))

/-- `LOOKUP(rid)` (R121). -/
def execLookup (rid : Byte) (s : State) : Host.Outcome State Fault Refusal :=
  .next (s.begin.answer (.lookup (s.cfg.readerId.idxOf? rid)))

/-- `RESET` (R290); it emits no diagnostic. -/
def execReset (s : State) : Host.Outcome State Fault Refusal := .next (resetRegisters s.begin)

end Sys2Proof.Machine
end

