-- ==== Sys2Proof/Machine/TxtFrames.lean ====
section
/-! DEFINITION. The meanings of the TXT rows: a parsed object whose `type` and `cmd` select the row is held against
the row's schema (R206 to R218), and the result is returned. No register changes (R30). -/

namespace Sys2Proof.Machine

/-- The result of a decode request on the text port is returned; nothing else happens (R30, R58). -/
def answerTxt (r : TxtResult) (s : State) : Host.Outcome State Fault Refusal :=
  .next (s.begin.answer (.txtDecoded r))

/-- An object of the variant k is held against a schema; an object of another variant is no frame of the
row. -/
def txtRow (k : TxtKind) (schema : JObj → TxtResult) (o : JObj) (s : State) :
    Host.Outcome State Fault Refusal :=
  if txtSelect s.cfg o = .variant k then answerTxt (schema o) s else .refused .notThisRow

/-- `CardRead` (R208). -/
def execTxtCardRead (o : JObj) (s : State) : Host.Outcome State Fault Refusal :=
  txtRow .cardRead schemaCardRead o s

/-- `Heartbeat` (R209). -/
def execTxtHeartbeat (o : JObj) (s : State) : Host.Outcome State Fault Refusal :=
  txtRow .heartbeat schemaHeartbeat o s

/-- `RexEvent` (R210). -/
def execTxtRexEvent (o : JObj) (s : State) : Host.Outcome State Fault Refusal :=
  txtRow .rexEvent schemaRexEvent o s

/-- `DoorContact` (R211). -/
def execTxtDoorContact (o : JObj) (s : State) : Host.Outcome State Fault Refusal :=
  txtRow .doorContact schemaDoorContact o s

/-- `FeedbackGrant` (R212). -/
def execTxtFeedbackGrant (o : JObj) (s : State) : Host.Outcome State Fault Refusal :=
  txtRow .feedbackGrant schemaFeedbackGrant o s

/-- `FeedbackDeny` (R213). -/
def execTxtFeedbackDeny (o : JObj) (s : State) : Host.Outcome State Fault Refusal :=
  txtRow .feedbackDeny schemaFeedbackDeny o s

/-- `Identify` (R214). -/
def execTxtIdentify (o : JObj) (s : State) : Host.Outcome State Fault Refusal :=
  txtRow .identify schemaIdentify o s

/-- `SetAddress` (R215). -/
def execTxtSetAddress (o : JObj) (s : State) : Host.Outcome State Fault Refusal :=
  txtRow .setAddress schemaSetAddress o s

/-- `IdentifyResponse` (R216). -/
def execTxtIdentifyResponse (o : JObj) (s : State) : Host.Outcome State Fault Refusal :=
  txtRow .identifyResponse schemaIdentifyResponse o s

/-- `AddressAck` (R217). -/
def execTxtAddressAck (o : JObj) (s : State) : Host.Outcome State Fault Refusal :=
  txtRow .addressAck schemaAddressAck o s

/-- An object whose `type`, or whose `cmd` under "command", is not assigned: its other keys are not checked
(R218). -/
def execTxtUnknown (o : JObj) (s : State) : Host.Outcome State Fault Refusal :=
  match txtSelect s.cfg o with
  | .unknown ty cmd => answerTxt (.unknown ty cmd) s
  | _ => .refused .notThisRow

end Sys2Proof.Machine
end

