-- ==== Sys2Proof/Syntax.lean ====
section
/-! DEFINITION. The operation set: one constructor for each row of spec/opcode_table.json. -/

namespace Sys2Proof

/-- The operations. The BIN rows are the frames of the binary port, told apart by the tag byte (R78): their
operands are the frame's other parts in the order of R75 (L, field bytes, checksum byte). The TXT
rows are the lines of the text port, told apart by `type` and `cmd` (R83) once envelope, checksum
and JSON have passed (R202): their operand is the parsed object, members in the order they stand.
The others are the port operations of R90 with their inputs. -/
inductive Instr
  | binIdentify (len : Byte) (fields : Bytes) (cs : Byte)
  | binSetAddress (len : Byte) (fields : Bytes) (cs : Byte)
  | binFeedbackGrant (len : Byte) (fields : Bytes) (cs : Byte)
  | binFeedbackDeny (len : Byte) (fields : Bytes) (cs : Byte)
  | binIdentifyResponse (len : Byte) (fields : Bytes) (cs : Byte)
  | binAddressAck (len : Byte) (fields : Bytes) (cs : Byte)
  | binCardRead (len : Byte) (fields : Bytes) (cs : Byte)
  | binHeartbeat (len : Byte) (fields : Bytes) (cs : Byte)
  | binRex (len : Byte) (fields : Bytes) (cs : Byte)
  | binDoorContact (len : Byte) (fields : Bytes) (cs : Byte)
  | binFiller
  | binUnknown (tag len : Byte) (fields : Bytes) (cs : Byte)
  | txtCardRead (o : JObj)
  | txtHeartbeat (o : JObj)
  | txtRexEvent (o : JObj)
  | txtDoorContact (o : JObj)
  | txtFeedbackGrant (o : JObj)
  | txtFeedbackDeny (o : JObj)
  | txtIdentify (o : JObj)
  | txtSetAddress (o : JObj)
  | txtIdentifyResponse (o : JObj)
  | txtAddressAck (o : JObj)
  | txtUnknown (o : JObj)
  | edge (c b : Nat) (t : Stamp)
  | tick (t : Stamp)
  | sample (t : Stamp) (d0 d1 : List Nat)
  | pop
  | lookup (rid : Byte)
  | binEncode (m : Option BinMsg)
  | binDecode (s : Bytes)
  | ev2bin (ev : ReaderEvent)
  | txtEncode (m : TxtMsg)
  | txtDecode (s : Bytes)
  | ev2txt (ev : ReaderEvent) (nodeAddr : Byte)
  | rxbyte (x : Byte)
  | reset
  deriving DecidableEq, Repr

end Sys2Proof
end

