-- ==== Sys2Proof/Machine/Dispatch.lean ====
section
/-! DEFINITION. One arm per operation. -/

namespace Sys2Proof.Machine

def exec (i : Instr) (s : State) : Host.Outcome State Fault Refusal :=
  match i with
  | .binIdentify len fields cs => Sys2Proof.Machine.execBinIdentify len fields cs s
  | .binSetAddress len fields cs => Sys2Proof.Machine.execBinSetAddress len fields cs s
  | .binFeedbackGrant len fields cs => Sys2Proof.Machine.execBinFeedbackGrant len fields cs s
  | .binFeedbackDeny len fields cs => Sys2Proof.Machine.execBinFeedbackDeny len fields cs s
  | .binIdentifyResponse len fields cs => Sys2Proof.Machine.execBinIdentifyResponse len fields cs s
  | .binAddressAck len fields cs => Sys2Proof.Machine.execBinAddressAck len fields cs s
  | .binCardRead len fields cs => Sys2Proof.Machine.execBinCardRead len fields cs s
  | .binHeartbeat len fields cs => Sys2Proof.Machine.execBinHeartbeat len fields cs s
  | .binRex len fields cs => Sys2Proof.Machine.execBinRex len fields cs s
  | .binDoorContact len fields cs => Sys2Proof.Machine.execBinDoorContact len fields cs s
  | .binFiller => Sys2Proof.Machine.execBinFiller s
  | .binUnknown tag len fields cs => Sys2Proof.Machine.execBinUnknown tag len fields cs s
  | .txtCardRead o => Sys2Proof.Machine.execTxtCardRead o s
  | .txtHeartbeat o => Sys2Proof.Machine.execTxtHeartbeat o s
  | .txtRexEvent o => Sys2Proof.Machine.execTxtRexEvent o s
  | .txtDoorContact o => Sys2Proof.Machine.execTxtDoorContact o s
  | .txtFeedbackGrant o => Sys2Proof.Machine.execTxtFeedbackGrant o s
  | .txtFeedbackDeny o => Sys2Proof.Machine.execTxtFeedbackDeny o s
  | .txtIdentify o => Sys2Proof.Machine.execTxtIdentify o s
  | .txtSetAddress o => Sys2Proof.Machine.execTxtSetAddress o s
  | .txtIdentifyResponse o => Sys2Proof.Machine.execTxtIdentifyResponse o s
  | .txtAddressAck o => Sys2Proof.Machine.execTxtAddressAck o s
  | .txtUnknown o => Sys2Proof.Machine.execTxtUnknown o s
  | .edge c b t => Sys2Proof.Machine.execEdge c b t s
  | .tick t => Sys2Proof.Machine.execTick t s
  | .sample t d0 d1 => Sys2Proof.Machine.execSample t d0 d1 s
  | .pop => Sys2Proof.Machine.execPop s
  | .lookup rid => Sys2Proof.Machine.execLookup rid s
  | .binEncode m => Sys2Proof.Machine.execBinEncode m s
  | .binDecode bs => Sys2Proof.Machine.execBinDecode bs s
  | .ev2bin ev => Sys2Proof.Machine.execEv2bin ev s
  | .txtEncode m => Sys2Proof.Machine.execTxtEncode m s
  | .txtDecode bs => Sys2Proof.Machine.execTxtDecode bs s
  | .ev2txt ev nodeAddr => Sys2Proof.Machine.execEv2txt ev nodeAddr s
  | .rxbyte x => Sys2Proof.Machine.execRxbyte x s
  | .reset => Sys2Proof.Machine.execReset s

end Sys2Proof.Machine
end

