-- ==== Sys2Proof/Decode.lean ====
section
/-! DEFINITION. From an input of the block to its operation, and back. The decoder is total: a byte string on the bus and
a line on the text port always give an operation, and a record that spells none is rejected by name. -/

namespace Sys2Proof

/-- A `u8` operand. -/
def operandU8 (op : PortOp) (n : Nat) : Except DecodeError Byte :=
  if n < 2 ^ 8 then .ok (BitVec.ofNat 8 n) else .error (.range op)

/-- A `u32` operand. -/
def operandU32 (op : PortOp) (n : Nat) : Except DecodeError (BitVec 32) :=
  if n < 2 ^ 32 then .ok (BitVec.ofNat 32 n) else .error (.range op)

/-- A `u64` operand. -/
def operandU64 (op : PortOp) (n : Nat) : Except DecodeError Code :=
  if n < 2 ^ 64 then .ok (BitVec.ofNat 64 n) else .error (.range op)

/-- A ReaderEvent `(reader_id, code, bit_length)` (R71). -/
def operandEvent (op : PortOp) (r k b : Nat) : Except DecodeError ReaderEvent := do
  let r ← operandU8 op r
  let k ← operandU64 op k
  let b ← operandU8 op b
  return ⟨r, k, b⟩

/-- The operand of BIN_ENCODE: a BinMsg (R85) or Nothing. -/
def operandBin : List Operand → Except DecodeError (Option BinMsg)
  | [.nothing] => .ok none
  | [.bin .identify] => .ok (some .identify)
  | [.bin .setAddress, .num a] => do return some (.setAddress (← operandU8 .binEncode a))
  | [.bin .identifyResponse, .bytes uid] => .ok (some (.identifyResponse uid))
  | [.bin .addressAck, .num st, .num a] => do
    return some (.addressAck (← operandU8 .binEncode st) (← operandU8 .binEncode a))
  | [.bin .cardRead, .num r, .num bl, .num k] => do
    return some (.cardRead (← operandU8 .binEncode r) (← operandU8 .binEncode bl) (← operandU32 .binEncode k))
  | [.bin .heartbeat] => .ok (some .heartbeat)
  | [.bin .rex, .num r] => do return some (.rex (← operandU8 .binEncode r))
  | [.bin .doorContact, .num r, .door st] => do
    return some (.doorContact (← operandU8 .binEncode r) st)
  | [.bin .feedbackGrant, .num r] => do return some (.feedbackGrant (← operandU8 .binEncode r))
  | [.bin .feedbackDeny, .num r] => do return some (.feedbackDeny (← operandU8 .binEncode r))
  | _ => .error (.operands .binEncode)

/-- The operand of TXT_ENCODE: a TxtMsg (R86). An integer outside its width is refused (R276). -/
def operandTxt : List Operand → Except DecodeError TxtMsg
  | [.txt .cardRead, .num a, .num r, .num k, .num b] => do
    return .cardRead (← operandU8 .txtEncode a) (← operandU8 .txtEncode r) (← operandU64 .txtEncode k)
      (← operandU8 .txtEncode b)
  | [.txt .heartbeat, .num a] => do return .heartbeat (← operandU8 .txtEncode a)
  | [.txt .rexEvent, .num a, .num r] => do
    return .rexEvent (← operandU8 .txtEncode a) (← operandU8 .txtEncode r)
  | [.txt .doorContact, .num a, .num r, .door st] => do
    return .doorContact (← operandU8 .txtEncode a) (← operandU8 .txtEncode r) st
  | [.txt .feedbackGrant, .num a, .num r] => do
    return .feedbackGrant (← operandU8 .txtEncode a) (← operandU8 .txtEncode r)
  | [.txt .feedbackDeny, .num a, .num r] => do
    return .feedbackDeny (← operandU8 .txtEncode a) (← operandU8 .txtEncode r)
  | [.txt .identify] => .ok .identify
  | [.txt .setAddress, .num n, .absent] => do return .setAddress (← operandU8 .txtEncode n) none
  | [.txt .setAddress, .num n, .bytes u] => do return .setAddress (← operandU8 .txtEncode n) (some u)
  | [.txt .identifyResponse, .bytes k, .bytes u, .num a, .num n] => do
    return .identifyResponse k u (← operandU8 .txtEncode a) (← operandU8 .txtEncode n)
  | [.txt .addressAck, .num st, .num a] => do
    return .addressAck (← operandU8 .txtEncode st) (← operandU8 .txtEncode a)
  | _ => .error (.operands .txtEncode)

/-- The operation of a record (R90). -/
def decodeRecord : PortOp → List Operand → Except DecodeError Instr
  | .edge, [.num c, .num b, .num t] => do return .edge c b (← operandU32 .edge t)
  | .tick, [.num t] => do return .tick (← operandU32 .tick t)
  | .sample, [.num t, .levels d0, .levels d1] => do return .sample (← operandU32 .sample t) d0 d1
  | .pop, [] => .ok .pop
  | .lookup, [.num rid] => do return .lookup (← operandU8 .lookup rid)
  | .binEncode, args => do return .binEncode (← operandBin args)
  | .binDecode, [.bytes s] => .ok (.binDecode s)
  | .ev2bin, [.num r, .num k, .num b] => do return .ev2bin (← operandEvent .ev2bin r k b)
  | .txtEncode, args => do return .txtEncode (← operandTxt args)
  | .txtDecode, [.bytes s] => .ok (.txtDecode s)
  | .ev2txt, [.num r, .num k, .num b, .num a] => do
    return .ev2txt (← operandEvent .ev2txt r k b) (← operandU8 .ev2txt a)
  | .rxbyte, [.num x] => do return .rxbyte (← operandU8 .rxbyte x)
  | .reset, [] => .ok .reset
  | op, _ => .error (.operands op)

/-- The row of an assigned tag (R78). -/
def binRowOf : BinKind → Byte → Bytes → Byte → Instr
  | .identify => .binIdentify
  | .setAddress => .binSetAddress
  | .identifyResponse => .binIdentifyResponse
  | .addressAck => .binAddressAck
  | .cardRead => .binCardRead
  | .heartbeat => .binHeartbeat
  | .rex => .binRex
  | .doorContact => .binDoorContact
  | .feedbackGrant => .binFeedbackGrant
  | .feedbackDeny => .binFeedbackDeny

/-- A transaction of the binary bus: the filler, or the row its tag byte selects under mask 0xFF (R78,
R165). A string too short to have a tag, a length and a checksum byte selects no row; it is a plain
BIN_DECODE request (R169). -/
def decodeBus (s : Bytes) : Instr :=
  if s = [0x00] then .binFiller
  else if s.length < 3 then .binDecode s
  else
    let len := byteAt s 1
    let fields := slice s 2 (s.length - 2)
    let cs := byteAt s (s.length - 1)
    match binKindOf (byteAt s 0) with
    | some k => binRowOf k len fields cs
    | none => .binUnknown (byteAt s 0) len fields cs

/-- The row of a text variant (R83). -/
def txtRowOf : TxtKind → JObj → Instr
  | .cardRead => .txtCardRead
  | .heartbeat => .txtHeartbeat
  | .rexEvent => .txtRexEvent
  | .doorContact => .txtDoorContact
  | .feedbackGrant => .txtFeedbackGrant
  | .feedbackDeny => .txtFeedbackDeny
  | .identify => .txtIdentify
  | .setAddress => .txtSetAddress
  | .identifyResponse => .txtIdentifyResponse
  | .addressAck => .txtAddressAck

/-- A line of the text port: the row its `type` and `cmd` select once envelope, checksum and grammar have
passed (R202, R206). A line that selects no row is a plain TXT_DECODE request. -/
def decodeLine (cfg : Config) (s : Bytes) : Instr :=
  match txtFramingFault cfg s with
  | some _ => .txtDecode s
  | none =>
    match parseJson (txtPayload s) with
    | none => .txtDecode s
    | some o =>
      match txtSelect cfg o with
      | .noType => .txtDecode s
      | .unknown _ _ => .txtUnknown o
      | .variant k => txtRowOf k o

/-- The operation an input spells, or the name of what is wrong with it. -/
def decode (cfg : Config) : Input → Except DecodeError Instr
  | .record op args => decodeRecord op args
  | .bus s => .ok (decodeBus s)
  | .line s => .ok (decodeLine cfg s)

/-! ## The encoder -/

/-- The operands of a ReaderEvent. -/
def eventOperands (ev : ReaderEvent) : List Operand :=
  [.num ev.readerId.toNat, .num ev.code.toNat, .num ev.bitLength.toNat]

/-- The operands of a BIN_ENCODE request. -/
def binOperands : Option BinMsg → List Operand
  | none => [.nothing]
  | some .identify => [.bin .identify]
  | some (.setAddress a) => [.bin .setAddress, .num a.toNat]
  | some (.identifyResponse uid) => [.bin .identifyResponse, .bytes uid]
  | some (.addressAck st a) => [.bin .addressAck, .num st.toNat, .num a.toNat]
  | some (.cardRead r bl k) => [.bin .cardRead, .num r.toNat, .num bl.toNat, .num k.toNat]
  | some .heartbeat => [.bin .heartbeat]
  | some (.rex r) => [.bin .rex, .num r.toNat]
  | some (.doorContact r st) => [.bin .doorContact, .num r.toNat, .door st]
  | some (.feedbackGrant r) => [.bin .feedbackGrant, .num r.toNat]
  | some (.feedbackDeny r) => [.bin .feedbackDeny, .num r.toNat]

/-- The operands of a TXT_ENCODE request. -/
def txtOperands : TxtMsg → List Operand
  | .cardRead a r k b => [.txt .cardRead, .num a.toNat, .num r.toNat, .num k.toNat, .num b.toNat]
  | .heartbeat a => [.txt .heartbeat, .num a.toNat]
  | .rexEvent a r => [.txt .rexEvent, .num a.toNat, .num r.toNat]
  | .doorContact a r st => [.txt .doorContact, .num a.toNat, .num r.toNat, .door st]
  | .feedbackGrant a r => [.txt .feedbackGrant, .num a.toNat, .num r.toNat]
  | .feedbackDeny a r => [.txt .feedbackDeny, .num a.toNat, .num r.toNat]
  | .identify => [.txt .identify]
  | .setAddress n none => [.txt .setAddress, .num n.toNat, .absent]
  | .setAddress n (some u) => [.txt .setAddress, .num n.toNat, .bytes u]
  | .identifyResponse k u a n =>
    [.txt .identifyResponse, .bytes k, .bytes u, .num a.toNat, .num n.toNat]
  | .addressAck st a => [.txt .addressAck, .num st.toNat, .num a.toNat]

/-- The line of a TXT row's object, with its checksum (R81, R82). -/
def lineOf (o : JObj) : Input := .line (txtFrame (objectBytes o))

/-- The input that spells an operation: the frame of a BIN row (R75), the line of a TXT row (R81), the
record of a port operation (R91). -/
def encode : Instr → Input
  | .binIdentify len fields cs => .bus (binFrame 0x01 len fields cs)
  | .binSetAddress len fields cs => .bus (binFrame 0x02 len fields cs)
  | .binFeedbackGrant len fields cs => .bus (binFrame 0x10 len fields cs)
  | .binFeedbackDeny len fields cs => .bus (binFrame 0x11 len fields cs)
  | .binIdentifyResponse len fields cs => .bus (binFrame 0x41 len fields cs)
  | .binAddressAck len fields cs => .bus (binFrame 0x42 len fields cs)
  | .binCardRead len fields cs => .bus (binFrame 0x81 len fields cs)
  | .binHeartbeat len fields cs => .bus (binFrame 0x82 len fields cs)
  | .binRex len fields cs => .bus (binFrame 0x83 len fields cs)
  | .binDoorContact len fields cs => .bus (binFrame 0x84 len fields cs)
  | .binFiller => .bus [0x00]
  | .binUnknown tag len fields cs => .bus (binFrame tag len fields cs)
  | .txtCardRead o => lineOf o
  | .txtHeartbeat o => lineOf o
  | .txtRexEvent o => lineOf o
  | .txtDoorContact o => lineOf o
  | .txtFeedbackGrant o => lineOf o
  | .txtFeedbackDeny o => lineOf o
  | .txtIdentify o => lineOf o
  | .txtSetAddress o => lineOf o
  | .txtIdentifyResponse o => lineOf o
  | .txtAddressAck o => lineOf o
  | .txtUnknown o => lineOf o
  | .edge c b t => .record .edge [.num c, .num b, .num t.toNat]
  | .tick t => .record .tick [.num t.toNat]
  | .sample t d0 d1 => .record .sample [.num t.toNat, .levels d0, .levels d1]
  | .pop => .record .pop []
  | .lookup rid => .record .lookup [.num rid.toNat]
  | .binEncode m => .record .binEncode (binOperands m)
  | .binDecode s => .record .binDecode [.bytes s]
  | .ev2bin ev => .record .ev2bin (eventOperands ev)
  | .txtEncode m => .record .txtEncode (txtOperands m)
  | .txtDecode s => .record .txtDecode [.bytes s]
  | .ev2txt ev a => .record .ev2txt (eventOperands ev ++ [.num a.toNat])
  | .rxbyte x => .record .rxbyte [.num x.toNat]
  | .reset => .record .reset []

/-! ## The table's words -/

/-- The low n bytes of a number, the least significant first. -/
def leBytes : Nat → Nat → Bytes
  | 0, _ => []
  | n + 1, w => BitVec.ofNat 8 w :: leBytes n (w / 256)

/-- The bus transaction of a table word: its bits as bytes, the first byte holding bits 7..0, every later
byte 0, cut where the length byte ends the frame (R89: `3 + f[1]` bytes). A word that is the single
byte 0 is the filler, which has no further byte (R165). -/
def tableFrame (nbits w : Nat) : Bytes :=
  if nbits ≤ 8 ∧ w % 256 = 0 then [0x00]
  else
    let bytes := leBytes ((nbits + 7) / 8) w ++ List.replicate 258 0
    bytes.take (3 + (byteAt bytes 1).toNat)

/-- The operation the decoder reads from a table word laid out as a bus transaction. -/
def decodeTableWord (nbits w : Nat) : Option Instr :=
  match decode Config.default (.bus (tableFrame nbits w)) with
  | .ok i => some i
  | .error _ => none

end Sys2Proof
end

