-- ==== Sys2Proof/Machine/Fetch.lean ====
section
/-! DEFINITION. Taking the next input. The block fetches no instructions (R21, R64): what it does next is the next input
of the total order of R55. -/

namespace Sys2Proof.Machine

/-- The operation the next input spells, if there is an input. -/
def State.fetch (s : State) : Option (Except DecodeError Instr) := s.input.head?.map (decode s.cfg)

/-- The state once the next input has been taken. -/
def State.consume (s : State) : State := { s with input := s.input.tail }

end Sys2Proof.Machine
end

