-- ==== Sys2Proof/Machine/Step.lean ====
section
/-! DEFINITION. One step: the next input is decoded and its operation runs to completion (R21, R55). -/

namespace Sys2Proof.Machine

/-- One operation of the total order of R55. With no input the block does nothing; under a configuration
that fails R8, or for an input that spells no operation, there is no step (R276). -/
def step (s : State) : Host.Outcome State Fault Refusal :=
  if configOk s.cfg then
    match s.fetch with
    | none => .next s
    | some (.error e) => .refused (.badRecord e)
    | some (.ok i) => exec i s.consume
  else .refused .badConfiguration

/-- The state with a table word, laid out as a bus transaction, as the next input. -/
def State.withFetchWord (s : State) (nbits w : Nat) : State :=
  { s with input := .bus (tableFrame nbits w) :: s.input }

end Sys2Proof.Machine
end

