-- ==== Sys2Proof/Machine/Script.lean ====
section
/-! DEFINITION. The stimulus script (R91, R92): the text of a program, one operation a line, and its assembly into the
operation records the block sees. The macros TRAIN and WAIT_IDLE are expanded here; the step never
sees them. -/

namespace Sys2Proof

/-- A token of a script line: a run of letters, digits and `_`, a quoted text, or one other byte. -/
inductive Tok
  | word (w : Bytes)
  | text (s : Bytes)
  | sym (b : Byte)
  deriving DecidableEq, Repr

/-- A line of a script: an operation, or a macro of R92. -/
inductive ScriptLine
  | op (op : PortOp) (args : List Operand)
  | train (c : Nat) (bits : List Nat) (t0 dt : Nat)
  | waitIdle (c : Nat)
  deriving DecidableEq, Repr

/-- A letter, a digit or `_`. -/
def isWordByte (b : Byte) : Bool :=
  isDigit b || decide (0x41 ≤ b.toNat ∧ b.toNat ≤ 0x5A) || decide (0x61 ≤ b.toNat ∧ b.toNat ≤ 0x7A) || b == 0x5F

/-- The content of a quoted text, the opening quote read: `\n` is byte 0x0A and `\"` a quote (R91); any
other backslash stands for itself. -/
def lexText : Bytes → Option (Bytes × Bytes)
  | [] => none
  | [x] => if x = quote then some ([], []) else none
  | x :: y :: rest =>
    if x = quote then some ([], y :: rest)
    else if x = backslash ∧ y = 0x6E then
      match lexText rest with
      | some (s, r) => some (newline :: s, r)
      | none => none
    else if x = backslash ∧ y = quote then
      match lexText rest with
      | some (s, r) => some (quote :: s, r)
      | none => none
    else
      match lexText (y :: rest) with
      | some (s, r) => some (x :: s, r)
      | none => none

/-- The tokens of a script line; blanks separate them. -/
def lexLine : Nat → Bytes → Option (List Tok)
  | 0, _ => none
  | _ + 1, [] => some []
  | fuel + 1, x :: xs =>
    if x = 0x20 then lexLine fuel xs
    else if x = quote then
      match lexText xs with
      | some (s, rest) => (lexLine fuel rest).map (.text s :: ·)
      | none => none
    else if isWordByte x then
      (lexLine fuel ((x :: xs).dropWhile isWordByte)).map (.word ((x :: xs).takeWhile isWordByte) :: ·)
    else (lexLine fuel xs).map (.sym x :: ·)

/-- A number of a script: decimal digits, or `0x` and hexadecimal digits. -/
def scriptNum (w : Bytes) : Option Nat :=
  match w with
  | 0x30 :: 0x78 :: ds =>
    if ds = [] then none
    else ds.foldl (fun n d => do return 16 * (← n) + (← hexVal d)) (some 0)
  | _ => if w ≠ [] ∧ w.all isDigit then some (decValue w) else none

/-- A byte written as two hexadecimal digits. -/
def scriptByte : Tok → Option Byte
  | .word [h, l] => hexPair h l
  | _ => none

/-- A byte string: hex bytes, or one quoted text (R91). -/
def scriptBytes : List Tok → Option Bytes
  | [.text s] => some s
  | ts => ts.mapM scriptByte

/-- A named integer argument `key=n`, and the tokens after it. -/
def named (key : String) : List Tok → Option (Nat × List Tok)
  | .word k :: .sym 0x3D :: .word n :: rest =>
    if k = ascii key then (scriptNum n).map (·, rest) else none
  | _ => none

/-- The tokens between commas. -/
def splitCommas : List Tok → List (List Tok)
  | [] => [[]]
  | t :: ts =>
    match splitCommas ts with
    | [] => [[t]]
    | part :: parts => if t = .sym comma then [] :: part :: parts else (t :: part) :: parts

/-- One level of a list. -/
def scriptLevel : List Tok → Option Nat
  | [.word n] => scriptNum n
  | _ => none

/-- A list of levels `name=[n,n,...]`, and the tokens after it. -/
def namedLevels (key : String) : List Tok → Option (List Nat × List Tok)
  | .word k :: .sym 0x3D :: .sym 0x5B :: rest =>
    let inside := rest.takeWhile (· ≠ .sym 0x5D)
    let after := (rest.dropWhile (· ≠ .sym 0x5D)).drop 1
    if k = ascii key then
      ((splitCommas inside).mapM scriptLevel).map (·, after)
    else none
  | _ => none

/-- One field of a message: an integer, a byte string (quoted, or two or more hex bytes), a door state, or
an optional string. -/
def scriptField : List Tok → Option Operand
  | [.text s] => some (.bytes s)
  | [.word w] =>
    if w = ascii "Open" then some (.door .opened)
    else if w = ascii "Closed" then some (.door .closed)
    else if w = ascii "None" then some .absent
    else (scriptNum w).map .num
  | [.word w, .text s] => if w = ascii "Some" then some (.bytes s) else none
  | [] => none
  | ts => (ts.mapM scriptByte).map .bytes

/-- The fields of a message `Name(f, ...)`, the name read. -/
def scriptFields : List Tok → Option (List Operand)
  | [] => some []
  | .sym 0x28 :: rest =>
    if rest.getLast? = some (.sym 0x29) then (splitCommas rest.dropLast).mapM scriptField else none
  | _ => none

/-- The name of a BinMsg constructor (R85). -/
def binKindNamed (w : Bytes) : Option BinKind :=
  if w = ascii "Identify" then some .identify
  else if w = ascii "SetAddress" then some .setAddress
  else if w = ascii "IdentifyResponse" then some .identifyResponse
  else if w = ascii "AddressAck" then some .addressAck
  else if w = ascii "CardRead" then some .cardRead
  else if w = ascii "Heartbeat" then some .heartbeat
  else if w = ascii "Rex" then some .rex
  else if w = ascii "DoorContact" then some .doorContact
  else if w = ascii "FeedbackGrant" then some .feedbackGrant
  else if w = ascii "FeedbackDeny" then some .feedbackDeny
  else none

/-- The name of a TxtMsg constructor (R86). -/
def txtKindNamed (w : Bytes) : Option TxtKind :=
  if w = ascii "CardRead" then some .cardRead
  else if w = ascii "Heartbeat" then some .heartbeat
  else if w = ascii "RexEvent" then some .rexEvent
  else if w = ascii "DoorContact" then some .doorContact
  else if w = ascii "FeedbackGrant" then some .feedbackGrant
  else if w = ascii "FeedbackDeny" then some .feedbackDeny
  else if w = ascii "Identify" then some .identify
  else if w = ascii "SetAddress" then some .setAddress
  else if w = ascii "IdentifyResponse" then some .identifyResponse
  else if w = ascii "AddressAck" then some .addressAck
  else none

/-- The operand of BIN_ENCODE in a script. -/
def scriptBin : List Tok → Option (List Operand)
  | .word w :: rest =>
    if w = ascii "Nothing" ∧ rest = [] then some [.nothing]
    else do return .bin (← binKindNamed w) :: (← scriptFields rest)
  | _ => none

/-- The operand of TXT_ENCODE in a script. -/
def scriptTxt : List Tok → Option (List Operand)
  | .word w :: rest => do return .txt (← txtKindNamed w) :: (← scriptFields rest)
  | _ => none

/-- A ReaderEvent between braces, three integers (R71), and the tokens after it. -/
def scriptEvent : List Tok → Option (List Operand × List Tok)
  | .sym 0x7B :: .word r :: .sym 0x2C :: .word k :: .sym 0x2C :: .word b :: .sym 0x7D :: rest => do
    return ([.num (← scriptNum r), .num (← scriptNum k), .num (← scriptNum b)], rest)
  | _ => none

/-- A train's bits, written as one word of `0` and `1` (R92). -/
def scriptBits (w : Bytes) : Option (List Nat) :=
  w.mapM fun b => if b = 0x30 then some 0 else if b = 0x31 then some 1 else none

/-- Only what ends the line may follow. -/
def atEnd {α : Type} (v : α) : List Tok → Option α
  | [] => some v
  | _ => none

/-- A script line from its tokens: the operation's name and its named arguments (R91), or a macro (R92). -/
def scriptLine : List Tok → Option ScriptLine
  | .word w :: ts =>
    if w = ascii "EDGE" then do
      let (c, ts) ← named "c" ts
      let (b, ts) ← named "b" ts
      let (t, ts) ← named "t" ts
      atEnd (.op .edge [.num c, .num b, .num t]) ts
    else if w = ascii "TICK" then do
      let (t, ts) ← named "t" ts
      atEnd (.op .tick [.num t]) ts
    else if w = ascii "SAMPLE" then do
      let (t, ts) ← named "t" ts
      let (d0, ts) ← namedLevels "d0" ts
      let (d1, ts) ← namedLevels "d1" ts
      atEnd (.op .sample [.num t, .levels d0, .levels d1]) ts
    else if w = ascii "POP" then atEnd (.op .pop []) ts
    else if w = ascii "LOOKUP" then
      match ts with
      | [Tok.word n] => do return .op .lookup [.num (← scriptNum n)]
      | _ => do
        let (rid, ts) ← named "rid" ts
        atEnd (.op .lookup [.num rid]) ts
    else if w = ascii "BIN_ENCODE" then do return .op .binEncode (← scriptBin ts)
    else if w = ascii "BIN_DECODE" then do return .op .binDecode [.bytes (← scriptBytes ts)]
    else if w = ascii "EV2BIN" then do
      let (ev, ts) ← scriptEvent ts
      atEnd (.op .ev2bin ev) ts
    else if w = ascii "TXT_ENCODE" then do return .op .txtEncode (← scriptTxt ts)
    else if w = ascii "TXT_DECODE" then do return .op .txtDecode [.bytes (← scriptBytes ts)]
    else if w = ascii "EV2TXT" then do
      let (ev, ts) ← scriptEvent ts
      let (a, ts) ← named "NODE_ADDR" ts
      atEnd (.op .ev2txt (ev ++ [.num a])) ts
    else if w = ascii "RXBYTE" then do
      let (x, ts) ← named "x" ts
      atEnd (.op .rxbyte [.num x]) ts
    else if w = ascii "RESET" then atEnd (.op .reset []) ts
    else if w = ascii "TRAIN" then do
      let (c, ts) ← named "c" ts
      match ts with
      | Tok.word k :: Tok.sym 0x3D :: Tok.word bits :: ts => do
        let (t0, ts) ← named "t0" ts
        let (dt, ts) ← named "dt" ts
        if k = ascii "bits" then atEnd (.train c (← scriptBits bits) t0 dt) ts else none
      | _ => none
    else if w = ascii "WAIT_IDLE" then do
      let (c, ts) ← named "c" ts
      atEnd (.waitIdle c) ts
    else none
  | _ => none

/-- The EDGE records of a train: bit i at `T + i*D`, modulo `2^TS_WIDTH` (R92). -/
def trainEdges (c dt : Nat) : Nat → List Nat → List Input
  | _, [] => []
  | t, b :: bs =>
    .record .edge [.num c, .num b, .num (t % 2 ^ Config.tsWidth)] :: trainEdges c dt (t + dt) bs

/-- The timestamp of the last EDGE to a channel among records (R92). -/
def lastEdgeTo (c : Nat) (rs : List Input) : Option Nat :=
  rs.foldl (fun last r =>
    match r with
    | .record .edge [.num c', .num _, .num t] => if c' = c then some t else last
    | _ => last) none

/-- The records of one line, after those of the lines before it. WAIT_IDLE with no earlier EDGE to its
channel has no timestamp and no expansion (R92). -/
def expandLine (before : List Input) : ScriptLine → Option (List Input)
  | .op op args => some [.record op args]
  | .train c bits t0 dt => some (trainEdges c dt t0 bits)
  | .waitIdle c =>
    (lastEdgeTo c before).map fun t =>
      [.record .tick [.num ((t + Config.idleUs) % 2 ^ Config.tsWidth)]]

/-- The records of a script: its lines in order, the macros expanded (R91, R92). -/
def expandScript (lines : List ScriptLine) : Option (List Input) :=
  lines.foldl (fun acc l => do
    let rs ← acc
    return rs ++ (← expandLine rs l)) (some [])

/-- The lines of a text, empty lines left out. -/
def textLines (s : Bytes) : List Bytes := (s.splitOn newline).filter (· ≠ [])

/-- The program of a script's text: the list of its operation records (R91). -/
def assemble (s : Bytes) : Option (List Input) := do
  let lines ← (textLines s).mapM fun l => do scriptLine (← lexLine (l.length + 1) l)
  expandScript lines

end Sys2Proof

namespace Sys2Proof.Machine

/-- The state with a script's records as the inputs to come; `none` where the text is no script. -/
def State.withScript (s : State) (text : Bytes) : Option State :=
  (assemble text).map fun rs => { s with input := rs }

end Sys2Proof.Machine
end

