-- ==== Sys2Proof/Safety.lean ====
section
/-! DEFINITION. What claims speak of: the invariants of 10_state.md, and what the environment must guarantee
(70_reset_and_hazards.md). -/

namespace Sys2Proof.Machine

/-- The channel invariants of R23, R24 and R26. -/
abbrev Channel.Ok (ch : Channel) : Prop :=
  ch.cnt.toNat ≤ Config.bitCap ∧ ch.acc.toNat < 2 ^ ch.cnt.toNat ∧ (ch.armed = true → 1 ≤ ch.cnt.toNat)

/-- What R71 says of every event: its reader id is a channel's, `1 <= bit_length <= 64` and
`code < 2^bit_length`. -/
abbrev EventOk (cfg : Config) (ev : ReaderEvent) : Prop :=
  ev.readerId ∈ cfg.readerId ∧ 1 ≤ ev.bitLength.toNat ∧ ev.bitLength.toNat ≤ Config.bitCap ∧
    ev.code.toNat < 2 ^ ev.bitLength.toNat

/-- The text receiver's registers (R29): at most `TXT_MAX_LINE - 1` bytes, none of them a newline, and none
while the rest of a line is thrown away. -/
abbrev ReceiverOk (s : State) : Prop :=
  s.rxbuf.length ≤ s.cfg.txtMaxLine - 1 ∧ newline ∉ s.rxbuf ∧ (s.rxdiscard = true → s.rxbuf = [])

/-- The invariant of the block: one register set per channel (R22), the channel invariants (R23, R24,
R26), the queue's capacity (R27) and its events (R71), and the receiver's registers (R29). -/
abbrev State.Inv (s : State) : Prop :=
  s.chans.length = s.cfg.numReaders ∧ (∀ ch ∈ s.chans, ch.Ok) ∧ s.evq.length ≤ s.cfg.evqCap ∧
    (∀ ev ∈ s.evq, EventOk s.cfg ev) ∧ ReceiverOk s

/-- Two states agree on every register the spec gives the block. -/
abbrev SameRegisters (s s' : State) : Prop :=
  s'.chans = s.chans ∧ s'.evq = s.evq ∧ s'.rxbuf = s.rxbuf ∧ s'.rxdiscard = s.rxdiscard

/-- Two states agree on the text receiver. -/
abbrev SameReceiver (s s' : State) : Prop := s'.rxbuf = s.rxbuf ∧ s'.rxdiscard = s.rxdiscard

/-- What no operation writes: the configuration (R32), and the inputs, of which the step alone takes one. -/
abbrev SameEnvironment (s s' : State) : Prop := s'.cfg = s.cfg ∧ s'.input = s.input

/-- The timestamp of an operation that carries one (R115). -/
def stampOf : Instr → Option Stamp
  | .edge _ _ t => some t
  | .tick t => some t
  | .sample t _ _ => some t
  | _ => none

/-- The timestamps a list of inputs carries, in order. -/
def stampsOf (cfg : Config) (rs : List Input) : List Stamp :=
  rs.filterMap fun r =>
    match decode cfg r with
    | .ok i => stampOf i
    | .error _ => none

/-- Successive timestamps are non-decreasing in unwrapped time and less than `2^(TS_WIDTH-1)` apart:
each is less than half a turn after the one before (R293, R294). -/
def WellTimed : List Stamp → Prop
  | [] => True
  | [_] => True
  | a :: b :: ts => elapsed a b < 2 ^ (Config.tsWidth - 1) ∧ WellTimed (b :: ts)

/-- The launch premise of a run (R292 to R294): a configuration of R8, and inputs in time order. -/
def State.Launched (s : State) : Prop := configOk s.cfg = true ∧ WellTimed (stampsOf s.cfg s.input)

/-- The consumer has kept up (R295): there is room for the next event. -/
abbrev State.HasRoom (s : State) : Prop := s.evq.length < s.cfg.evqCap

/-! ## The terms of the statements -/

/-- The state after an operation that changes no register and returns r, with no diagnostic. -/
def State.answered (s : State) (r : Result) : State := { s with diags := [], result := r }

/-- The idle timer of a channel is due at t, in the words of R114. -/
abbrev TimerDue (ch : Channel) (t : Stamp) : Prop := ch.armed = true ∧ 50000 ≤ elapsed ch.last t

/-- A channel after FINALIZE (R116): the train, its timestamp and its timer are cleared. -/
def finalizedChan (ch : Channel) : Channel :=
  { acc := 0, cnt := 0, last := 0, armed := false, prev0 := ch.prev0, prev1 := ch.prev1, seen := ch.seen }

/-- A channel after an edge on line b at t, once due timers have fired (R111 to R113). -/
def afterEdge (ch : Channel) (b : Nat) (t : Stamp) : Channel :=
  if elapsed ch.last t < 200 then ch
  else
    { acc := if ch.cnt.toNat < 64 then (ch.acc <<< 1) ||| BitVec.ofNat 64 b else ch.acc
      cnt := if ch.cnt.toNat < 64 then ch.cnt + 1 else ch.cnt
      last := t
      armed := true
      prev0 := ch.prev0
      prev1 := ch.prev1
      seen := ch.seen }

/-- The parity verdict of R117, bit by bit: the number of ones among bits 25..13 is even and among bits
12..0 odd. -/
abbrev ParityHolds (v : Code) : Prop :=
  ((List.range 13).filter fun i => v.getLsbD (13 + i)).length % 2 = 0 ∧
    ((List.range 13).filter fun i => v.getLsbD i).length % 2 = 1

/-- The event of a finished train: none for an empty one and for a 26-bit one that fails parity (R116). -/
def trainEvent (cfg : Config) (c : Nat) (ch : Channel) : Option ReaderEvent :=
  if ch.cnt = 0 ∨ (ch.cnt = 26 ∧ ¬ParityHolds ch.acc) then none
  else some ⟨cfg.readerId.getD c 0, ch.acc, ch.cnt⟩

/-- The diagnostic of a finished train: DIAG_PARITY for a 26-bit one that fails parity (R116). -/
def trainDiag (cfg : Config) (c : Nat) (ch : Channel) : Option Diag :=
  if ch.cnt = 26 ∧ ¬ParityHolds ch.acc then some ⟨.parity, cfg.readerId.getD c 0⟩ else none

/-- The channels due at t, in channel order. -/
def dueList (s : State) (t : Stamp) : List Nat :=
  (List.range s.cfg.numReaders).filter fun c => decide (TimerDue (s.chan c) t)

/-- Both lines of a channel sampled before fall in a sample (R122). -/
abbrev BothFall (s : State) (d0 d1 : List Nat) (c : Nat) : Prop :=
  (s.chan c).seen = true ∧ (s.chan c).prev0 = true ∧ (s.chan c).prev1 = true ∧ d0[c]? = some 0 ∧ d1[c]? = some 0

/-- How many draws of LINE_ORDER a sample takes before it comes to channel c. -/
def lineDraws (s : State) (d0 d1 : List Nat) (c : Nat) : Nat :=
  ((List.range c).filter fun c' => decide (BothFall s d0 d1 c')).length

/-- EDGE operations on one channel, one after another. -/
def feedEdges (c : Nat) : List (Nat × Stamp) → State → Host.Outcome State Fault Refusal
  | [], s => .next s
  | (b, t) :: es, s =>
    match exec (.edge c b t) s with
    | .next s' => feedEdges c es s'
    | .fault r => .fault r
    | .refused r => .refused r

/-- Edges from time t on, each at least 200 and less than 50000 microseconds after the one before. -/
def WellSpaced (t : Stamp) : List (Nat × Stamp) → Prop
  | [] => True
  | (_, t') :: es => 200 ≤ elapsed t t' ∧ elapsed t t' < 50000 ∧ WellSpaced t' es

/-- RXBYTE operations, one per byte, with the results they return. -/
def feedBytes : Bytes → State → Option (State × List Result)
  | [], s => some (s, [])
  | x :: xs, s =>
    match exec (.rxbyte x) s with
    | .next s' => (feedBytes xs s').map fun p => (p.1, s'.result :: p.2)
    | .fault _ => none
    | .refused _ => none

/-- A frame's length byte and checksum byte are the right ones (R76, R77). -/
abbrev Framed (tag len : Byte) (fields : Bytes) (cs : Byte) : Prop :=
  len.toNat = fields.length ∧ cs = xorBytes (tag :: len :: fields)

/-- A byte is a hexadecimal digit of value n, in either letter case (R201). -/
abbrev HexDigit (b : Byte) (n : Nat) : Prop :=
  n < 10 ∧ b.toNat = 0x30 + n ∨
    10 ≤ n ∧ n < 16 ∧ (b.toNat = 0x41 + (n - 10) ∨ b.toNat = 0x61 + (n - 10))

/-- A line of the layout of R81: a payload and two checksum bytes. -/
def lineOfParts (j : Bytes) (h l : Byte) : Bytes := ascii "<" ++ j ++ ascii ">|" ++ [h, l, 0x0A]

/-- A result that accepts an object exactly where its members are those of a well-typed message, in any
order (R206, R221), and otherwise is REJ_TXT_FIELDS. -/
def AcceptsExactly (cfg : Config) (o : JObj) (r : TxtResult) : Prop :=
  (∃ m, txtMsgOk cfg m = true ∧ o.Perm (txtObject m) ∧ r = .msg m) ∨
    ((∀ m, txtMsgOk cfg m = true → ¬o.Perm (txtObject m)) ∧ r = .reject .txtFields)

end Sys2Proof.Machine
end

