-- ==== Sys2Proof/WellFormed.lean ====
section
/-! DEFINITION. Well-formed operations: the boundary checks of R276, and for a row selected by its wire format, that the
operands are those of a frame of that row. -/

namespace Sys2Proof

/-- The object of a TXT row: one that PARSE_JSON can answer (R203), that selects this row (R206), and
whose line is not longer than TXT_MAX_LINE (R202). -/
def txtRowWf (cfg : Config) (sel : TxtSelection) (o : JObj) : Bool :=
  objectOk o && decide (txtSelect cfg o = sel) && decide ((txtFrame (objectBytes o)).length ≤ cfg.txtMaxLine)

/-- The object of the row TXT.Unknown: its selection is an Unknown (R218). -/
def txtUnknownWf (cfg : Config) (o : JObj) : Bool :=
  objectOk o &&
    (match txtSelect cfg o with
      | .unknown _ _ => true
      | _ => false) &&
    decide ((txtFrame (objectBytes o)).length ≤ cfg.txtMaxLine)

/-- Every operand is one the operation's encoding admits, under a configuration. -/
def Instr.wf (cfg : Config) : Instr → Bool
  | .binIdentify _ _ _ => true
  | .binSetAddress _ _ _ => true
  | .binFeedbackGrant _ _ _ => true
  | .binFeedbackDeny _ _ _ => true
  | .binIdentifyResponse _ _ _ => true
  | .binAddressAck _ _ _ => true
  | .binCardRead _ _ _ => true
  | .binHeartbeat _ _ _ => true
  | .binRex _ _ _ => true
  | .binDoorContact _ _ _ => true
  | .binFiller => true
  | .binUnknown tag _ _ _ => binKindOf tag == none
  | .txtCardRead o => txtRowWf cfg (.variant .cardRead) o
  | .txtHeartbeat o => txtRowWf cfg (.variant .heartbeat) o
  | .txtRexEvent o => txtRowWf cfg (.variant .rexEvent) o
  | .txtDoorContact o => txtRowWf cfg (.variant .doorContact) o
  | .txtFeedbackGrant o => txtRowWf cfg (.variant .feedbackGrant) o
  | .txtFeedbackDeny o => txtRowWf cfg (.variant .feedbackDeny) o
  | .txtIdentify o => txtRowWf cfg (.variant .identify) o
  | .txtSetAddress o => txtRowWf cfg (.variant .setAddress) o
  | .txtIdentifyResponse o => txtRowWf cfg (.variant .identifyResponse) o
  | .txtAddressAck o => txtRowWf cfg (.variant .addressAck) o
  | .txtUnknown o => txtUnknownWf cfg o
  | .edge c b _ => edgeOk cfg c b
  | .tick _ => true
  | .sample _ d0 d1 => sampleOk cfg d0 d1
  | .pop => true
  | .lookup _ => true
  | .binEncode m => binRequestOk m
  | .binDecode _ => true
  | .ev2bin _ => true
  | .txtEncode m => txtMsgOk cfg m
  | .txtDecode _ => true
  | .ev2txt _ _ => true
  | .rxbyte _ => true
  | .reset => true

end Sys2Proof
end

