-- ==== Sys2Proof/Certificates/Slice0/Obligations.lean ====
section
/-! DEFINITION. The statements for the provers. -/

open Sys2Proof Sys2Proof.Machine

/-! ## The machine -/

/-- R21, R55, R90: with a configuration of R8, an input that decodes to an operation is taken and the step is
exec of that operation, nothing else: its next state where it is well-formed, and where it is one of the
ill-formed operations of R276 its refusal. -/
def Obligations.StepRunsTheDecodedOperation : Prop :=
  ∀ (s : State) (x : Input) (rest : List Input) (i : Instr),
    configOk s.cfg = true → s.input = x :: rest → decode s.cfg x = .ok i →
      step s = exec i { s with input := rest }

/-- The model's choice (log entry 3): with no input the block does nothing. And R276: an input that spells
no operation gets no step. -/
def Obligations.StepWithoutAnOperation : Prop :=
  ∀ s : State, configOk s.cfg = true →
    (s.input = [] → step s = .next s) ∧
      ∀ (x : Input) (rest : List Input) (e : DecodeError), s.input = x :: rest → decode s.cfg x = .error e →
        step s = .refused (.badRecord e)

/-- R8: the step refuses a configuration exactly where it fails one of the listed conditions. -/
def Obligations.ConfigurationsOutsideR8AreRefused : Prop :=
  ∀ s : State,
    step s = .refused .badConfiguration ↔
      ¬((1 ≤ s.cfg.readerId.length ∧ s.cfg.readerId.length ≤ 255) ∧
        ((∀ r ∈ s.cfg.readerId, r.toNat ≤ 255) ∧ s.cfg.readerId.Nodup) ∧
        1 ≤ s.cfg.evqCap ∧ 8 ≤ s.cfg.txtMaxLine ∧
        (Config.minPulseUs < Config.idleUs ∧ Config.idleUs < 2 ^ (Config.tsWidth - 1)) ∧
        ∀ k ∈ s.cfg.deviceKinds,
          k ≠ [] ∧ (∀ b ∈ k, 0x20 ≤ b.toNat ∧ b.toNat ≤ 0x7E ∧ b.toNat ≠ 0x22 ∧ b.toNat ≠ 0x5C) ∧
            k ≠ ascii "card_read" ∧ k ≠ ascii "heartbeat" ∧ k ≠ ascii "event_rex" ∧
            k ≠ ascii "event_door_contact" ∧ k ≠ ascii "command" ∧ k ≠ ascii "ack_set_address")

/-- R276: what is no operation of the block gets no step. The records of TXT_ENCODE that are accepted are
those of well-typed messages, whose integer fields fit their widths. -/
def Obligations.BoundaryInputsGetNoStep : Prop :=
  (∀ (s : State) (c b : Nat) (t : Stamp), (s.cfg.numReaders ≤ c ∨ ¬(b = 0 ∨ b = 1)) →
      exec (.edge c b t) s = .refused .badEdge) ∧
    (∀ (s : State) (t : Stamp) (d0 d1 : List Nat),
      (d0.length ≠ s.cfg.numReaders ∨ d1.length ≠ s.cfg.numReaders ∨ ∃ v ∈ d0 ++ d1, ¬(v = 0 ∨ v = 1)) →
      exec (.sample t d0 d1) s = .refused .badSample) ∧
    (∀ (s : State) (uid : Bytes), 254 < uid.length →
      exec (.binEncode (some (.identifyResponse uid))) s = .refused .badBinMsg) ∧
    (∀ (s : State) (k uid : Bytes) (a n : Byte), k ∉ s.cfg.deviceKinds →
      exec (.txtEncode (.identifyResponse k uid a n)) s = .refused .badTxtMsg) ∧
    (∀ (cfg : Config) (args : List Operand) (i : Instr), decode cfg (.record .txtEncode args) = .ok i →
      ∃ m, i = .txtEncode m ∧ args = txtOperands m) ∧
    ∀ s : State, configOk s.cfg = false → step s = .refused .badConfiguration

/-- R266: no operation of the block stops it: every well-formed operation answers a next state. -/
def Obligations.WellFormedOperationsComplete : Prop :=
  ∀ (i : Instr) (s : State), i.wf s.cfg = true → ∃ s', exec i s = .next s'

/-- R32, R55: no operation writes the configuration, and a step takes one input. -/
def Obligations.StepTakesOneInputAndKeepsTheConfiguration : Prop :=
  ∀ s s' : State, step s = .next s' → s'.cfg = s.cfg ∧ s'.input = s.input.tail

/-- R58, R260: results and diagnostics are outputs, not state: no operation depends on those of an earlier
one. -/
def Obligations.NoOperationReadsEarlierOutputs : Prop :=
  ∀ (i : Instr) (s : State) (d : List Diag) (r : Result), exec i { s with diags := d, result := r } = exec i s

/-- R22 to R29, R71: every step keeps the invariant of the registers, from any state that has it. -/
def Obligations.StepKeepsTheRegisterInvariant : Prop :=
  ∀ s s' : State, s.Inv → step s = .next s' → s'.Inv

/-- R35: the reset state has the invariant, under every configuration. -/
def Obligations.ResetStateHasTheRegisterInvariant : Prop := ∀ cfg : Config, (State.resetWith cfg).Inv

/-- R23, R24: in every state reached from reset, under any configuration and any inputs, `cnt[c] <= 64` and
`acc[c] < 2^cnt[c]` for every channel. -/
def Obligations.ReachableTrainsFitTheirBitCount : Prop :=
  ∀ (cfg : Config) (rs : List Input) (n : Nat) (s : State),
    Host.Core.run Sys2Proof.core n { State.resetWith cfg with input := rs } = .next s →
      ∀ c, (s.chan c).cnt.toNat ≤ 64 ∧ (s.chan c).acc.toNat < 2 ^ (s.chan c).cnt.toNat

/-- R290, R35: RESET returns every register to its reset value and emits nothing, and the configuration, which
is no state, is as before. That the inputs to come and the count of draws are as before too is the model's
own choice (log entries 2 and 5). -/
def Obligations.ResetReturnsEveryRegisterToItsResetValue : Prop :=
  ∀ s : State,
    ∃ s', exec .reset s = .next s' ∧ s'.chans.length = s.cfg.numReaders ∧
      (∀ ch ∈ s'.chans, ch = ⟨0, 0, 0, false, true, true, false⟩) ∧ s'.evq = [] ∧ s'.rxbuf = [] ∧
      s'.rxdiscard = false ∧ s'.diags = [] ∧ s'.result = .none ∧ SameEnvironment s s' ∧ s'.draws = s.draws

/-! ## Encodings -/

/-- R73, R75, R81, R91: every well-formed operation is the one its own input decodes to. -/
def Obligations.DecodeOfEncodeIsTheOperation : Prop :=
  ∀ (cfg : Config) (i : Instr), i.wf cfg = true → decode cfg (encode i) = .ok i

/-- R75, R78, R165 and the model's reading of log entry 7 (DEDUCED): of the strings of three or more bytes the
tag byte alone selects the row, before length and checksum are looked at, and an unassigned tag is the
row BIN.Unknown; the one-byte string 00 is the filler. -/
def Obligations.TagByteSelectsTheRow : Prop :=
  ∀ (cfg : Config) (tag len cs : Byte) (fields : Bytes),
    decode cfg (.bus [0x00]) = .ok .binFiller ∧
      decode cfg (.bus (tag :: len :: (fields ++ [cs]))) =
        .ok (if tag = 0x01 then .binIdentify len fields cs
          else if tag = 0x02 then .binSetAddress len fields cs
          else if tag = 0x10 then .binFeedbackGrant len fields cs
          else if tag = 0x11 then .binFeedbackDeny len fields cs
          else if tag = 0x41 then .binIdentifyResponse len fields cs
          else if tag = 0x42 then .binAddressAck len fields cs
          else if tag = 0x81 then .binCardRead len fields cs
          else if tag = 0x82 then .binHeartbeat len fields cs
          else if tag = 0x83 then .binRex len fields cs
          else if tag = 0x84 then .binDoorContact len fields cs
          else .binUnknown tag len fields cs)

/-- A few frames and lines of the spec's examples decode to the operation they stand for (R157, R160, R163,
R209, R91). -/
def Obligations.ExampleFramesDecodeToTheirOperations : Prop :=
  decode Config.default (.bus [0x81, 0x06, 0x02, 0x1A, 0x00, 0x00, 0x03, 0xE8, 0x74]) =
      .ok (.binCardRead 0x06 [0x02, 0x1A, 0x00, 0x00, 0x03, 0xE8] 0x74) ∧
    decode Config.default (.bus [0x84, 0x02, 0x01, 0x01, 0x86]) = .ok (.binDoorContact 0x02 [0x01, 0x01] 0x86) ∧
    decode Config.default (.bus [0x55, 0x01, 0x07, 0x53]) = .ok (.binUnknown 0x55 0x01 [0x07] 0x53) ∧
    decode Config.default (.record .edge [.num 0, .num 1, .num 1000]) = .ok (.edge 0 1 1000) ∧
    decode Config.default (.record .ev2bin [.num 1, .num 0x20207D1, .num 26]) =
      .ok (.ev2bin ⟨1, 0x20207D1, 26⟩)

/-- R203 to R205: PARSE_JSON answers an object exactly for the one compact spelling of that object, its keys
distinct and its values in the alphabet and the range; so it rejects every other string. -/
def Obligations.ParseJsonAcceptsExactlyTheSpelledObjects : Prop :=
  ∀ (j : Bytes) (o : JObj), parseJson j = some o ↔ objectOk o = true ∧ j = objectBytes o

/-- R10, R204: the decimal spelling of a u64 has its value, only digits, no leading zero, and at most 20
digits. -/
def Obligations.DecimalSpellingIsCanonical : Prop :=
  ∀ n : Nat, n < 2 ^ 64 →
    decValue (dec n) = n ∧ (∀ d ∈ dec n, 0x30 ≤ d.toNat ∧ d.toNat ≤ 0x39) ∧
      (dec n = [0x30] ∨ (dec n).head? ≠ some 0x30) ∧ 1 ≤ (dec n).length ∧ (dec n).length ≤ 20

/-- R92: TRAIN expands to one EDGE per bit, bit i at `T + i*D` modulo `2^32`, and a WAIT_IDLE after it to a
TICK 50000 microseconds after the last of them. -/
def Obligations.ScriptMacrosExpandToTheirRecords : Prop :=
  ∀ (c t0 dt : Nat) (bits : List Nat),
    (∀ before, expandLine before (.train c bits t0 dt) =
      some (bits.zipIdx.map fun p => .record .edge [.num c, .num p.1, .num ((t0 + p.2 * dt) % 2 ^ 32)])) ∧
      (bits ≠ [] → expandScript [.train c bits t0 dt, .waitIdle c] =
        some ((bits.zipIdx.map fun p => .record .edge [.num c, .num p.1, .num ((t0 + p.2 * dt) % 2 ^ 32)]) ++
          [.record .tick [.num (((t0 + (bits.length - 1) * dt) % 2 ^ 32 + 50000) % 2 ^ 32)]]))

/-! ## The Decoder Unit -/

/-- R12: elapsed time is the difference of the timestamps modulo `2^32`. -/
def Obligations.ElapsedTimeIsTheDifferenceModulo2To32 : Prop :=
  ∀ a t : Stamp, elapsed a t = (t.toNat + 2 ^ 32 - a.toNat) % 2 ^ 32

/-- R114, R115, R119: TICK finalizes exactly the channels whose timer is due, leaves the others alone, and only
appends to the queue; with no timer due it changes nothing. -/
def Obligations.TickFinalizesExactlyTheDueChannels : Prop :=
  ∀ (s : State) (t : Stamp), ∃ s', exec (.tick t) s = .next s' ∧
    s'.chans.length = s.chans.length ∧
    (∀ c, c < s.cfg.numReaders →
      s'.chan c = if TimerDue (s.chan c) t then finalizedChan (s.chan c) else s.chan c) ∧
    (∀ c, s.cfg.numReaders ≤ c → s'.chan c = s.chan c) ∧
    (∃ evs, s'.evq = s.evq ++ evs) ∧ SameReceiver s s' ∧ SameEnvironment s s' ∧ s'.result = .none ∧
    ((∀ c, c < s.cfg.numReaders → ¬TimerDue (s.chan c) t) → s' = s.answered .none)

/-- R116 to R118: where one timer is due, its train becomes an event at the queue's tail, or is discarded with
DIAG_PARITY (26 bits that fail parity), or is dropped with DIAG_EVQ_OVERFLOW (the queue is full). -/
def Obligations.FinishedTrainIsDeliveredOrDiscarded : Prop :=
  ∀ (s : State) (t : Stamp) (c : Nat), c < s.cfg.numReaders →
    (∀ c', c' < s.cfg.numReaders → (TimerDue (s.chan c') t ↔ c' = c)) →
    exec (.tick t) s = .next
      { s with
        chans := s.chans.modify c finalizedChan
        evq :=
          if (s.chan c).cnt = 0 ∨ ((s.chan c).cnt = 26 ∧ ¬ParityHolds (s.chan c).acc) ∨
              s.cfg.evqCap ≤ s.evq.length then s.evq
          else s.evq ++ [⟨s.cfg.readerId.getD c 0, (s.chan c).acc, (s.chan c).cnt⟩]
        diags :=
          if (s.chan c).cnt = 0 then []
          else if (s.chan c).cnt = 26 ∧ ¬ParityHolds (s.chan c).acc then
            [⟨.parity, s.cfg.readerId.getD c 0⟩]
          else if s.cfg.evqCap ≤ s.evq.length then [⟨.evqOverflow, s.cfg.readerId.getD c 0⟩]
          else []
        result := .none }

/-- R60, R115: where several timers are due and the queue has room, the events of all due trains enter the
queue in some order, and so do the diagnostics of the discarded ones. -/
def Obligations.SweepDeliversEveryDueTrain : Prop :=
  ∀ (s : State) (t : Stamp), s.evq.length + (dueList s t).length ≤ s.cfg.evqCap →
    ∃ s' evs, exec (.tick t) s = .next s' ∧ s'.evq = s.evq ++ evs ∧
      evs.Perm ((dueList s t).filterMap fun c => trainEvent s.cfg c (s.chan c)) ∧
      s'.diags.Perm ((dueList s t).filterMap fun c => trainDiag s.cfg c (s.chan c))

/-- R60, R115: SWEEP_ORDER admits exactly the permutations: the channels of a sweep are finalized in some order
of the due channels, and each order is that of some draw. -/
def Obligations.SweepOrderAdmitsEveryPermutation : Prop :=
  ∀ (s : State) (t : Stamp),
    (∀ key : Nat → Nat, ∃ l : List Nat, l.Perm (dueList s t) ∧ sweepBy key t s = l.foldl (fun s c => finalize c s) s) ∧
      (∀ l : List Nat, l.Perm (dueList s t) → ∃ key : Nat → Nat, sweepBy key t s = l.foldl (fun s c => finalize c s) s) ∧
      (2 ≤ (dueList s t).length →
        exec (.tick t) s = .next { sweepBy (Config.sweepKey s.draws) t (s.answered .none) with
          draws := s.draws + 1 })

/-- R110 to R113: an EDGE is the sweep at its timestamp, then the edge: a bounce changes nothing, an accepted
edge shifts its bit in while fewer than 64 are held, and arms the timer; no other channel is touched. -/
def Obligations.EdgeIsASweepAndThenItsOwnBit : Prop :=
  ∀ (s : State) (c b : Nat) (t : Stamp), c < s.cfg.numReaders → b ≤ 1 →
    ∃ u, exec (.tick t) s = .next u ∧
      exec (.edge c b t) s = .next { u with chans := u.chans.modify c fun ch => afterEdge ch b t }

/-- R111, R124, R296: once an edge of a channel has been accepted, an edge on either of its lines less than 200
microseconds later changes none of the channel's registers. -/
def Obligations.EdgesWithinTheDebounceWindowAreLost : Prop :=
  ∀ (s u s' s'' : State) (c b b' : Nat) (t t' : Stamp), c < s.chans.length →
    exec (.tick t) s = .next u → 200 ≤ elapsed (u.chan c).last t → exec (.edge c b t) s = .next s' →
    elapsed t t' < 200 → exec (.edge c b' t') s' = .next s'' → s''.chan c = s'.chan c

/-- R54, R112, R297: at most 64 bits fed to an empty channel, each 200 to 49999 microseconds after the one
before, with no other timer running, are accumulated with the first bit most significant. -/
def Obligations.WellSpacedTrainIsAccumulatedFirstBitFirst : Prop :=
  ∀ (s : State) (c b : Nat) (t : Stamp) (es : List (Nat × Stamp)),
    c < s.cfg.numReaders → s.chans.length = s.cfg.numReaders →
    (∀ c', c' < s.cfg.numReaders → (s.chan c').armed = false) →
    (s.chan c).acc = 0 → (s.chan c).cnt = 0 → 200 ≤ elapsed (s.chan c).last t →
    (∀ e ∈ (b, t) :: es, e.1 ≤ 1) → es.length ≤ 63 → WellSpaced t es →
    ∃ s', feedEdges c ((b, t) :: es) s = .next s' ∧
      (s'.chan c).acc.toNat = ((b, t) :: es).foldl (fun v e => 2 * v + e.1) 0 ∧
      (s'.chan c).cnt.toNat = es.length + 1 ∧ (s'.chan c).armed = true ∧ s'.evq = s.evq

/-- R122: a SAMPLE is the sweep at its timestamp, then for each channel: its levels are loaded, and after the
first sample a falling line is an edge; of two falling lines one bit survives. -/
def Obligations.SampleIsASweepAndThenTheFallingLines : Prop :=
  ∀ (s : State) (t : Stamp) (d0 d1 : List Nat), sampleOk s.cfg d0 d1 = true →
    s.chans.length = s.cfg.numReaders →
    ∃ u s', exec (.tick t) s = .next u ∧ exec (.sample t d0 d1) s = .next s' ∧
      s'.evq = u.evq ∧ s'.diags = u.diags ∧ s'.result = .none ∧ SameReceiver s s' ∧ SameEnvironment s s' ∧
      s'.chans.length = s.chans.length ∧
      ∀ c v0 v1, d0[c]? = some v0 → d1[c]? = some v1 →
        let ch := u.chan c
        let loaded : Channel := { ch with prev0 := v0 == 1, prev1 := v1 == 1, seen := true }
        (ch.seen = false → s'.chan c = loaded) ∧
          (ch.seen = true →
            let falls0 := ch.prev0 = true ∧ v0 = 0
            let falls1 := ch.prev1 = true ∧ v1 = 0
            (¬falls0 → ¬falls1 → s'.chan c = loaded) ∧
              (falls0 → ¬falls1 → s'.chan c = afterEdge loaded 0 t) ∧
              (¬falls0 → falls1 → s'.chan c = afterEdge loaded 1 t) ∧
              (falls0 → falls1 → s'.chan c = afterEdge loaded 0 t ∨ s'.chan c = afterEdge loaded 1 t))

/-- R122, R124: of two edges in one sample, the one LINE_ORDER takes first survives. Both bits are admitted: the
sample of one channel leaves either, as its order is given. And exec of SAMPLE gives that order by the free
value `Config.d1First`: each channel on which both lines fall takes the next draw, in channel order (the
counter of draws is the model's own, log entry 6). -/
def Obligations.LineOrderDecidesTheSurvivingBit : Prop :=
  (∀ (s : State) (t : Stamp) (c : Nat) (d1First : Bool), c < s.chans.length →
    (∀ c', c' < s.cfg.numReaders → ¬TimerDue (s.chan c') t) →
    (s.chan c).seen = true → (s.chan c).prev0 = true → (s.chan c).prev1 = true →
    (sampleChanBy d1First t c false false s).chan c =
      afterEdge { s.chan c with prev0 := false, prev1 := false } (if d1First then 1 else 0) t) ∧
    ∀ (s : State) (t : Stamp) (d0 d1 : List Nat), sampleOk s.cfg d0 d1 = true →
      s.chans.length = s.cfg.numReaders →
      ∃ u s', exec (.tick t) s = .next u ∧ exec (.sample t d0 d1) s = .next s' ∧
        s'.draws = u.draws + lineDraws u d0 d1 s.cfg.numReaders ∧
        ∀ c, BothFall u d0 d1 c →
          s'.chan c = afterEdge { u.chan c with prev0 := false, prev1 := false }
            (if Config.d1First (u.draws + lineDraws u d0 d1 c) c then 1 else 0) t

/-- R123: what an EDGE or a TICK does to a channel depends on no other channel's registers. -/
def Obligations.ChannelsDoNotInterfere : Prop :=
  ∀ (s₁ s₂ s₁' s₂' : State) (c : Nat) (i : Instr),
    (∃ t, i = .tick t) ∨ (∃ c' b t, i = .edge c' b t) → s₁.cfg = s₂.cfg →
    s₁.chans.length = s₂.chans.length → s₁.chan c = s₂.chan c → exec i s₁ = .next s₁' →
    exec i s₂ = .next s₂' → s₁'.chan c = s₂'.chan c

/-- R117: the parity verdict is the parity of each half: the exclusive-or of bits 25..13 is 0 and that of bits
12..0 is 1. -/
def Obligations.ParityVerdictIsTheHalvesExclusiveOr : Prop :=
  ∀ v : Code,
    w26Ok v = (!((List.range 13).foldl (fun p i => p ^^ v.getLsbD (13 + i)) false) &&
      (List.range 13).foldl (fun p i => p ^^ v.getLsbD i) false)

/-- R120: POP takes the oldest event and leaves the rest in order; on an empty queue it returns None. No other
register changes. -/
def Obligations.PopTakesTheOldestEvent : Prop :=
  ∀ s : State,
    (s.evq = [] → exec .pop s = .next (s.answered (.popped none))) ∧
      ∀ ev rest, s.evq = ev :: rest →
        exec .pop s = .next { s.answered (.popped (some ev)) with evq := rest }

/-- R121: LOOKUP returns the one channel with the reader id, or None where no channel has it. -/
def Obligations.LookupReturnsTheChannelOfAReaderId : Prop :=
  ∀ (s : State) (rid : Byte), configOk s.cfg = true →
    ∃ r, exec (.lookup rid) s = .next (s.answered (.lookup r)) ∧
      (∀ c, r = some c ↔ s.cfg.readerId[c]? = some rid) ∧ (r = none ↔ rid ∉ s.cfg.readerId)

/-- R27, R57, R123: the frame of the Decoder Unit: its operations leave the text receiver, the configuration and
the inputs alone; the timestamped ones only append to the queue; POP and LOOKUP touch no channel. -/
def Obligations.DecoderOperationsKeepTheRest : Prop :=
  ∀ (s s' : State),
    (∀ c b t, exec (.edge c b t) s = .next s' →
      SameReceiver s s' ∧ SameEnvironment s s' ∧ s.evq <+: s'.evq ∧ s'.result = .none) ∧
    (∀ t, exec (.tick t) s = .next s' →
      SameReceiver s s' ∧ SameEnvironment s s' ∧ s.evq <+: s'.evq ∧ s'.result = .none) ∧
    (∀ t d0 d1, exec (.sample t d0 d1) s = .next s' →
      SameReceiver s s' ∧ SameEnvironment s s' ∧ s.evq <+: s'.evq ∧ s'.result = .none) ∧
    (exec .pop s = .next s' →
      SameReceiver s s' ∧ SameEnvironment s s' ∧ s'.chans = s.chans ∧ s'.diags = [] ∧ s'.draws = s.draws) ∧
    (∀ rid, exec (.lookup rid) s = .next s' →
      SameRegisters s s' ∧ SameEnvironment s s' ∧ s'.diags = [] ∧ s'.draws = s.draws)

/-! ## The binary format -/

/-- R150, R153 to R162, R165: the frame of every message, byte by byte. -/
def Obligations.BinEncodeWritesTheFrameOfEveryMessage : Prop :=
  ∀ s : State,
    let writes (m : Option BinMsg) (f : Bytes) : Prop :=
      exec (.binEncode m) s = .next (s.answered (.encoded (.frame f)))
    writes none [0x00] ∧
      writes (some .identify) [0x01, 0x00, 0x01] ∧
      (∀ a, writes (some (.setAddress a)) [0x02, 0x01, a, 0x02 ^^^ 0x01 ^^^ a]) ∧
      (∀ uid : Bytes, uid.length ≤ 254 →
        writes (some (.identifyResponse uid))
          (0x41 :: BitVec.ofNat 8 (1 + uid.length) :: BitVec.ofNat 8 uid.length :: uid ++
            [0x41 ^^^ BitVec.ofNat 8 (1 + uid.length) ^^^ BitVec.ofNat 8 uid.length ^^^ xorBytes uid])) ∧
      (∀ st a, writes (some (.addressAck st a)) [0x42, 0x02, st, a, 0x42 ^^^ 0x02 ^^^ st ^^^ a]) ∧
      (∀ (r bl : Byte) (k : BitVec 32),
        let b (n : Nat) : Byte := BitVec.ofNat 8 (k.toNat / 2 ^ n)
        writes (some (.cardRead r bl k))
          [0x81, 0x06, r, bl, b 24, b 16, b 8, b 0,
            0x81 ^^^ 0x06 ^^^ r ^^^ bl ^^^ b 24 ^^^ b 16 ^^^ b 8 ^^^ b 0]) ∧
      writes (some .heartbeat) [0x82, 0x00, 0x82] ∧
      (∀ r, writes (some (.rex r)) [0x83, 0x01, r, 0x83 ^^^ 0x01 ^^^ r]) ∧
      (∀ r, writes (some (.doorContact r .opened)) [0x84, 0x02, r, 0x01, 0x84 ^^^ 0x02 ^^^ r ^^^ 0x01]) ∧
      (∀ r, writes (some (.doorContact r .closed)) [0x84, 0x02, r, 0x00, 0x84 ^^^ 0x02 ^^^ r]) ∧
      (∀ r, writes (some (.feedbackGrant r)) [0x10, 0x01, r, 0x10 ^^^ 0x01 ^^^ r]) ∧
      (∀ r, writes (some (.feedbackDeny r)) [0x11, 0x01, r, 0x11 ^^^ 0x01 ^^^ r])

/-- R167: for every well-typed BinMsg, BIN_ENCODE gives a frame and BIN_DECODE of that frame gives the
message back. -/
def Obligations.BinaryFramesRoundTrip : Prop :=
  ∀ (s : State) (m : BinMsg), binMsgOk m = true →
    ∃ f, exec (.binEncode (some m)) s = .next (s.answered (.encoded (.frame f))) ∧
      exec (.binDecode f) s = .next (s.answered (.binDecoded (.msg m)))

/-- R87 (C1): the bijection of the binary format: a byte string decodes to a message exactly where it is that
message's frame. -/
def Obligations.BinaryMessagesAndFramesAreInBijection : Prop :=
  ∀ (f : Bytes) (m : BinMsg), binDecode f = .msg m ↔ binMsgOk m = true ∧ binEncode (some m) = .frame f

/-- R168: a frame of the encoder with one byte changed is rejected: at byte 1 as truncated or for its length, at
any other byte for its checksum. -/
def Obligations.OneChangedByteIsRejected : Prop :=
  ∀ (s : State) (m : BinMsg) (f : Bytes) (k : Nat) (v : Byte), binMsgOk m = true →
    binEncode (some m) = .frame f → k < f.length → f[k]? ≠ some v →
    (k = 1 →
      exec (.binDecode (f.set k v)) s = .next (s.answered (.binDecoded (.reject .binTruncated))) ∨
        exec (.binDecode (f.set k v)) s = .next (s.answered (.binDecoded (.reject .binLength)))) ∧
      (k ≠ 1 → exec (.binDecode (f.set k v)) s = .next (s.answered (.binDecoded (.reject .binChecksum))))

/-- R151, R152, R169: BIN_DECODE answers for every string. A message or an Unknown comes only from a string of
`L + 3` bytes whose exclusive-or is 0; fewer than three bytes (but for the filler) are truncated, and
more than 258 have the wrong length. -/
def Obligations.BinDecodeAnswersEveryString : Prop :=
  ∀ (s : State) (f : Bytes), ∃ r, exec (.binDecode f) s = .next (s.answered (.binDecoded r)) ∧
    (r = .filler ↔ f = [0x00]) ∧
    (f.length < 3 → f ≠ [0x00] → r = .reject .binTruncated) ∧
    (258 < f.length → r = .reject .binLength) ∧
    (((∃ m, r = .msg m) ∨ ∃ tag fields, r = .unknown tag fields) →
      f.length = (f.getD 1 0).toNat + 3 ∧ xorBytes f = 0)

/-- R153 to R165: the result of each BIN row on a frame whose length and checksum bytes are right: its
message, or REJ_BIN_FIELDS. No register changes. -/
def Obligations.BinRowsParseTheirFields : Prop :=
  ∀ (s : State) (len cs : Byte) (fields : Bytes),
    let gives (i : Instr) (r : BinResult) : Prop := exec i s = .next (s.answered (.binDecoded r))
    gives .binFiller .filler ∧
    (Framed 0x01 len fields cs →
      gives (.binIdentify len fields cs) (if fields = [] then .msg .identify else .reject .binFields)) ∧
    (Framed 0x02 len fields cs →
      gives (.binSetAddress len fields cs)
        (match fields with | [a] => .msg (.setAddress a) | _ => .reject .binFields)) ∧
    (Framed 0x10 len fields cs →
      gives (.binFeedbackGrant len fields cs)
        (match fields with | [r] => .msg (.feedbackGrant r) | _ => .reject .binFields)) ∧
    (Framed 0x11 len fields cs →
      gives (.binFeedbackDeny len fields cs)
        (match fields with | [r] => .msg (.feedbackDeny r) | _ => .reject .binFields)) ∧
    (Framed 0x41 len fields cs →
      gives (.binIdentifyResponse len fields cs)
        (match fields with
          | n :: uid => if n.toNat = uid.length then .msg (.identifyResponse uid) else .reject .binFields
          | [] => .reject .binFields)) ∧
    (Framed 0x42 len fields cs →
      gives (.binAddressAck len fields cs)
        (match fields with | [st, a] => .msg (.addressAck st a) | _ => .reject .binFields)) ∧
    (Framed 0x81 len fields cs →
      gives (.binCardRead len fields cs)
        (match fields with
          | [r, bl, b3, b2, b1, b0] =>
            .msg (.cardRead r bl
              (BitVec.ofNat 32 (b3.toNat * 2 ^ 24 + b2.toNat * 2 ^ 16 + b1.toNat * 2 ^ 8 + b0.toNat)))
          | _ => .reject .binFields)) ∧
    (Framed 0x82 len fields cs →
      gives (.binHeartbeat len fields cs) (if fields = [] then .msg .heartbeat else .reject .binFields)) ∧
    (Framed 0x83 len fields cs →
      gives (.binRex len fields cs)
        (match fields with | [r] => .msg (.rex r) | _ => .reject .binFields)) ∧
    (Framed 0x84 len fields cs →
      gives (.binDoorContact len fields cs)
        (match fields with
          | [r, st] =>
            if st = 1 then .msg (.doorContact r .opened)
            else if st = 0 then .msg (.doorContact r .closed)
            else .reject .binFields
          | _ => .reject .binFields))

/-- R163: past framing and checksum, a frame with an unassigned tag gives Unknown with its tag and its
field bytes unchecked; and the encoder produces no such frame. -/
def Obligations.UnassignedTagGivesUnknown : Prop :=
  (∀ (s : State) (tag len cs : Byte) (fields : Bytes),
    tag ∉ ([0x01, 0x02, 0x10, 0x11, 0x41, 0x42, 0x81, 0x82, 0x83, 0x84] : List Byte) →
    Framed tag len fields cs →
    exec (.binUnknown tag len fields cs) s = .next (s.answered (.binDecoded (.unknown tag fields))) ∧
      exec (.binDecode (tag :: len :: (fields ++ [cs]))) s =
        .next (s.answered (.binDecoded (.unknown tag fields)))) ∧
    ∀ (m : Option BinMsg) (f : Bytes), binRequestOk m = true → binEncode m = .frame f →
      ∀ tag fields, binDecode f ≠ .unknown tag fields

/-- R151, R263: each BIN row returns, for any length, field and checksum bytes, what BIN_DECODE returns for the
frame they make; no register changes. -/
def Obligations.BinRowsAgreeWithBinDecode : Prop :=
  ∀ (s : State) (tag len cs : Byte) (fields : Bytes),
    let agrees (i : Instr) (tag : Byte) : Prop :=
      exec i s = .next (s.answered (.binDecoded (binDecode (tag :: len :: (fields ++ [cs])))))
    agrees (.binIdentify len fields cs) 0x01 ∧ agrees (.binSetAddress len fields cs) 0x02 ∧
      agrees (.binFeedbackGrant len fields cs) 0x10 ∧ agrees (.binFeedbackDeny len fields cs) 0x11 ∧
      agrees (.binIdentifyResponse len fields cs) 0x41 ∧ agrees (.binAddressAck len fields cs) 0x42 ∧
      agrees (.binCardRead len fields cs) 0x81 ∧ agrees (.binHeartbeat len fields cs) 0x82 ∧
      agrees (.binRex len fields cs) 0x83 ∧ agrees (.binDoorContact len fields cs) 0x84 ∧
      (tag ∉ ([0x01, 0x02, 0x10, 0x11, 0x41, 0x42, 0x81, 0x82, 0x83, 0x84] : List Byte) →
        agrees (.binUnknown tag len fields cs) tag)

/-- R52: the code of a CardRead frame is big-endian. -/
def Obligations.CardReadCodeIsBigEndian : Prop :=
  ∀ b3 b2 b1 b0 : Byte,
    (be32 b3 b2 b1 b0).toNat = b3.toNat * 2 ^ 24 + b2.toNat * 2 ^ 16 + b1.toNat * 2 ^ 8 + b0.toNat ∧
      be32Bytes (be32 b3 b2 b1 b0) = [b3, b2, b1, b0]

/-- R166: EV2BIN gives the CardRead frame of an event whose code fits 32 bits, and otherwise Unencodable with
DIAG_UNENCODABLE and no frame. -/
def Obligations.Ev2BinFramesCodesOf32Bits : Prop :=
  ∀ (s : State) (ev : ReaderEvent),
    (2 ^ 32 ≤ ev.code.toNat →
      exec (.ev2bin ev) s =
        .next { s with diags := [⟨.unencodable, ev.readerId⟩], result := .encoded .unencodable }) ∧
      (ev.code.toNat < 2 ^ 32 →
        let b (n : Nat) : Byte := BitVec.ofNat 8 (ev.code.toNat / 2 ^ n)
        exec (.ev2bin ev) s = .next (s.answered (.encoded (.frame
          [0x81, 0x06, ev.readerId, ev.bitLength, b 24, b 16, b 8, b 0,
            0x81 ^^^ 0x06 ^^^ ev.readerId ^^^ ev.bitLength ^^^ b 24 ^^^ b 16 ^^^ b 8 ^^^ b 0]))))

/-! ## The text format -/

/-- R200, R207 to R217: what TXT_ENCODE writes for every message: the object's text of the variant, in the
envelope of R81, unless a string is outside the alphabet or the frame is longer than TXT_MAX_LINE. -/
def Obligations.TxtEncodeWritesTheLineOfEveryMessage : Prop :=
  ∀ s : State,
    let line (inside : Bytes) : Bytes := 0x7B :: inside ++ [0x7D]
    let frame (j : Bytes) : Bytes := ascii "<" ++ j ++ ascii ">|" ++ hex2 (xorBytes j) ++ [0x0A]
    let writes (m : TxtMsg) (inside : Bytes) : Prop :=
      exec (.txtEncode m) s = .next (s.answered (.encoded
        (if (frame (line inside)).length > s.cfg.txtMaxLine then .unencodable else .frame (frame (line inside)))))
    let n (v : Byte) : Bytes := dec v.toNat
    let alphabet (u : Bytes) : Prop :=
      ∀ b ∈ u, 0x20 ≤ b.toNat ∧ b.toNat ≤ 0x7E ∧ b.toNat ≠ 0x22 ∧ b.toNat ≠ 0x5C
    (∀ (a r b : Byte) (k : Code), writes (.cardRead a r k b)
      (ascii "\"type\":\"card_read\",\"hub_addr\":" ++ n a ++ ascii ",\"rdr_id\":" ++ n r ++ ascii ",\"card\":" ++
        dec k.toNat ++ ascii ",\"bits\":" ++ n b)) ∧
    (∀ a, writes (.heartbeat a) (ascii "\"type\":\"heartbeat\",\"hub_addr\":" ++ n a)) ∧
    (∀ a r, writes (.rexEvent a r)
      (ascii "\"type\":\"event_rex\",\"hub_addr\":" ++ n a ++ ascii ",\"rdr_id\":" ++ n r)) ∧
    (∀ a r, writes (.doorContact a r .opened)
      (ascii "\"type\":\"event_door_contact\",\"hub_addr\":" ++ n a ++ ascii ",\"rdr_id\":" ++ n r ++
        ascii ",\"state\":\"open\"")) ∧
    (∀ a r, writes (.doorContact a r .closed)
      (ascii "\"type\":\"event_door_contact\",\"hub_addr\":" ++ n a ++ ascii ",\"rdr_id\":" ++ n r ++
        ascii ",\"state\":\"closed\"")) ∧
    (∀ a r, writes (.feedbackGrant a r)
      (ascii "\"type\":\"command\",\"cmd\":\"feedback_grant\",\"addr\":" ++ n a ++ ascii ",\"rdr_id\":" ++ n r)) ∧
    (∀ a r, writes (.feedbackDeny a r)
      (ascii "\"type\":\"command\",\"cmd\":\"feedback_deny\",\"addr\":" ++ n a ++ ascii ",\"rdr_id\":" ++ n r)) ∧
    writes .identify (ascii "\"type\":\"command\",\"cmd\":\"identify\"") ∧
    (∀ a, writes (.setAddress a none) (ascii "\"type\":\"command\",\"cmd\":\"set_address\",\"new_addr\":" ++ n a)) ∧
    (∀ a u, alphabet u → writes (.setAddress a (some u))
      (ascii "\"type\":\"command\",\"cmd\":\"set_address\",\"new_addr\":" ++ n a ++ ascii ",\"target_uid\":\"" ++ u ++
        ascii "\"")) ∧
    (∀ k u a r, k ∈ s.cfg.deviceKinds → alphabet k → alphabet u → writes (.identifyResponse k u a r)
      (ascii "\"type\":\"" ++ k ++ ascii "\",\"uid\":\"" ++ u ++ ascii "\",\"addr\":" ++ n a ++
        ascii ",\"readers\":" ++ n r)) ∧
    (∀ st a, writes (.addressAck st a)
      (ascii "\"type\":\"ack_set_address\",\"status\":" ++ n st ++ ascii ",\"addr\":" ++ n a)) ∧
    (∀ a u, ¬alphabet u →
      exec (.txtEncode (.setAddress a (some u))) s = .next (s.answered (.encoded .unencodable))) ∧
    (∀ k u a r, k ∈ s.cfg.deviceKinds → ¬alphabet u →
      exec (.txtEncode (.identifyResponse k u a r)) s = .next (s.answered (.encoded .unencodable)))

/-- R220: for every well-typed TxtMsg that TXT_ENCODE frames, TXT_DECODE of the frame gives the message back,
under every configuration of R8. -/
def Obligations.TextFramesRoundTrip : Prop :=
  ∀ (s s' : State) (m : TxtMsg) (f : Bytes), configOk s.cfg = true → txtMsgOk s.cfg m = true →
    exec (.txtEncode m) s = .next s' → s'.result = .encoded (.frame f) →
    exec (.txtDecode f) s = .next (s.answered (.txtDecoded (.msg m)))

/-- R200: with room for 93 bytes, every message without a string value has a frame, of at most 93 bytes. -/
def Obligations.MessagesWithoutStringsFitIn93Bytes : Prop :=
  ∀ (s : State) (m : TxtMsg), 93 ≤ s.cfg.txtMaxLine →
    (∀ a u, m ≠ .setAddress a (some u)) → (∀ k u a n, m ≠ .identifyResponse k u a n) →
    ∃ f, exec (.txtEncode m) s = .next (s.answered (.encoded (.frame f))) ∧ f.length ≤ 93

/-- R221: the order of an object's members changes neither the checksum nor the result of TXT_DECODE. -/
def Obligations.MemberOrderIsIrrelevant : Prop :=
  ∀ (s : State) (o o' : JObj), objectOk o = true → o.Perm o' →
    xorBytes (objectBytes o) = xorBytes (objectBytes o') ∧
      exec (.txtDecode (txtFrame (objectBytes o))) s = exec (.txtDecode (txtFrame (objectBytes o'))) s

/-- R222: in a frame of the encoder, a checksum digit replaced by a digit of another value gives
REJ_TXT_CHECKSUM, by a byte that is no digit REJ_TXT_HEX, and by the same digit in the other letter case
changes nothing. -/
def Obligations.CorruptedChecksumDigitIsDetected : Prop :=
  ∀ (s : State) (m : TxtMsg) (f : Bytes) (k : Nat) (old x : Byte), configOk s.cfg = true →
    txtMsgOk s.cfg m = true → txtEncode s.cfg m = .frame f →
    (k = f.length - 3 ∨ k = f.length - 2) → f[k]? = some old →
    (hexVal x = none →
      exec (.txtDecode (f.set k x)) s = .next (s.answered (.txtDecoded (.reject .txtHex)))) ∧
    (∀ v, hexVal x = some v → hexVal old ≠ some v →
      exec (.txtDecode (f.set k x)) s = .next (s.answered (.txtDecoded (.reject .txtChecksum)))) ∧
    (hexVal x = hexVal old →
      exec (.txtDecode (f.set k x)) s = .next (s.answered (.txtDecoded (.msg m))))

/-- R82, R202: TXT_DECODE answers for every string. A message or an Unknown comes only from a line
`"<" J ">|" H "\n"` of at most TXT_MAX_LINE bytes whose digits spell the exclusive-or of J; a string of fewer
than 6 bytes, or without a final newline, is truncated, and a longer line is overlong. -/
def Obligations.TxtDecodeAnswersEveryLine : Prop :=
  ∀ (s : State) (f : Bytes), ∃ r, exec (.txtDecode f) s = .next (s.answered (.txtDecoded r)) ∧
    ((f.length < 6 ∨ f.getLast? ≠ some 0x0A) → r = .reject .txtTruncated) ∧
    (6 ≤ f.length → f.getLast? = some 0x0A → s.cfg.txtMaxLine < f.length → r = .reject .txtOverlong) ∧
    (((∃ m, r = .msg m) ∨ ∃ ty cmd, r = .unknown ty cmd) →
      f.length ≤ s.cfg.txtMaxLine ∧
        ∃ j h l, f = ascii "<" ++ j ++ ascii ">|" ++ [h, l, 0x0A] ∧ hexPair h l = some (xorBytes j))

/-- R206, R208 to R217: each TXT row accepts exactly the objects whose members are, in any order, those of a
well-typed message, and answers any other object of the row with REJ_TXT_FIELDS. No register changes. -/
def Obligations.TxtRowsAcceptExactlyTheirMessages : Prop :=
  ∀ (s : State) (o : JObj), configOk s.cfg = true → objectOk o = true →
    let runs (k : TxtKind) (i : Instr) : Prop :=
      txtSelect s.cfg o = .variant k →
        ∃ r, exec i s = .next (s.answered (.txtDecoded r)) ∧ AcceptsExactly s.cfg o r
    runs .cardRead (.txtCardRead o) ∧ runs .heartbeat (.txtHeartbeat o) ∧ runs .rexEvent (.txtRexEvent o) ∧
      runs .doorContact (.txtDoorContact o) ∧ runs .feedbackGrant (.txtFeedbackGrant o) ∧
      runs .feedbackDeny (.txtFeedbackDeny o) ∧ runs .identify (.txtIdentify o) ∧
      runs .setAddress (.txtSetAddress o) ∧ runs .identifyResponse (.txtIdentifyResponse o) ∧
      runs .addressAck (.txtAddressAck o)

/-- R206: a TXT row, on a well-formed object, returns what TXT_DECODE returns for the line that spells it. -/
def Obligations.TxtRowsAgreeWithTxtDecode : Prop :=
  ∀ (s : State) (o : JObj), objectOk o = true → (txtFrame (objectBytes o)).length ≤ s.cfg.txtMaxLine →
    ∀ i : Instr, i.wf s.cfg = true → encode i = .line (txtFrame (objectBytes o)) →
      exec i s = exec (.txtDecode (txtFrame (objectBytes o))) s

/-- R218: an object whose type is no fixed tag, no device kind and not "command", or whose type is "command" with
a cmd that is no command, is an Unknown with those strings, whatever its other members: as a row, and as
a line that the grammar accepts. The encoder produces no such line. -/
def Obligations.UnassignedTextTypeGivesUnknown : Prop :=
  (∀ (s : State) (o : JObj) (ty : Bytes) (cmd : Option Bytes), o.lookup (ascii "type") = some (.str ty) →
    (cmd = none ∧
        ty ∉ [ascii "command", ascii "card_read", ascii "heartbeat", ascii "event_rex",
          ascii "event_door_contact", ascii "ack_set_address"] ∧
        ty ∉ s.cfg.deviceKinds ∨
      ty = ascii "command" ∧
        ∃ c, cmd = some c ∧ o.lookup (ascii "cmd") = some (.str c) ∧
          c ∉ [ascii "feedback_grant", ascii "feedback_deny", ascii "identify", ascii "set_address"]) →
    exec (.txtUnknown o) s = .next (s.answered (.txtDecoded (.unknown ty cmd))) ∧
      (objectOk o = true → (txtFrame (objectBytes o)).length ≤ s.cfg.txtMaxLine →
        exec (.txtDecode (txtFrame (objectBytes o))) s = .next (s.answered (.txtDecoded (.unknown ty cmd))))) ∧
    ∀ (cfg : Config) (m : TxtMsg) (f : Bytes), configOk cfg = true → txtMsgOk cfg m = true →
      txtEncode cfg m = .frame f → ∀ ty cmd, txtDecode cfg f ≠ .unknown ty cmd

/-- R219: EV2TXT is TXT_ENCODE of the event's CardRead with the node's address, with DIAG_UNENCODABLE exactly
where that is Unencodable: where TXT_MAX_LINE is below the length of the frame, which is at most 93. -/
def Obligations.Ev2TxtFramesTheEvent : Prop :=
  ∀ (s : State) (ev : ReaderEvent) (a : Byte),
    let frame := txtFrame (objectBytes (txtObject (.cardRead a ev.readerId ev.code ev.bitLength)))
    ∃ r, exec (.txtEncode (.cardRead a ev.readerId ev.code ev.bitLength)) s =
        .next (s.answered (.encoded r)) ∧
      exec (.ev2txt ev a) s = .next { s with
        diags := if r = .unencodable then [⟨.unencodable, ev.readerId⟩] else []
        result := .encoded r } ∧
      r = (if s.cfg.txtMaxLine < frame.length then .unencodable else .frame frame) ∧ frame.length ≤ 93

/-- R230: RXBYTE, case by case. -/
def Obligations.RxbyteFollowsTheLineReceiver : Prop :=
  ∀ (s : State) (x : Byte),
    (s.rxdiscard = true → x = 0x0A →
      exec (.rxbyte x) s = .next { s.answered (.received none) with rxdiscard := false }) ∧
    (s.rxdiscard = true → x ≠ 0x0A → exec (.rxbyte x) s = .next (s.answered (.received none))) ∧
    (s.rxdiscard = false → x = 0x0A →
      ∃ r, exec (.txtDecode (s.rxbuf ++ [0x0A])) s = .next (s.answered (.txtDecoded r)) ∧
        exec (.rxbyte x) s = .next { s.answered (.received (some r)) with rxbuf := [] }) ∧
    (s.rxdiscard = false → x ≠ 0x0A → s.rxbuf.length = s.cfg.txtMaxLine - 1 →
      exec (.rxbyte x) s = .next
        { s.answered (.received (some (.reject .txtOverlong))) with rxbuf := [], rxdiscard := true }) ∧
    (s.rxdiscard = false → x ≠ 0x0A → s.rxbuf.length ≠ s.cfg.txtMaxLine - 1 →
      exec (.rxbyte x) s = .next { s.answered (.received none) with rxbuf := s.rxbuf ++ [x] })

/-- R230: a line fed byte by byte to an empty receiver gives None for each byte, then the result of TXT_DECODE of
the whole line; a line longer than TXT_MAX_LINE is reported once, when it overflows, and its rest dropped
up to its newline. The receiver is empty again after either. -/
def Obligations.LineReceiverDeliversWholeLines : Prop :=
  ∀ (s : State) (l : Bytes), 8 ≤ s.cfg.txtMaxLine → s.rxbuf = [] → s.rxdiscard = false → (0x0A : Byte) ∉ l →
    ∃ s' rs, feedBytes (l ++ [0x0A]) s = some (s', rs) ∧ s'.rxbuf = [] ∧ s'.rxdiscard = false ∧
      s'.chans = s.chans ∧ s'.evq = s.evq ∧
      (l.length ≤ s.cfg.txtMaxLine - 1 →
        rs = List.replicate l.length (.received none) ++
          [.received (some (txtDecode s.cfg (l ++ [0x0A])))]) ∧
      (s.cfg.txtMaxLine ≤ l.length →
        rs = List.replicate (s.cfg.txtMaxLine - 1) (.received none) ++
          .received (some (.reject .txtOverlong)) ::
            List.replicate (l.length - s.cfg.txtMaxLine + 1) (.received none))

/-- R30, R58, R300: the frame of the Codec Unit: no row, request or bridge changes a register, the
configuration, the inputs or the count of draws; RXBYTE changes the receiver alone. -/
def Obligations.CodecOperationsChangeNoRegister : Prop :=
  ∀ (i : Instr) (s s' : State), exec i s = .next s' →
    (match i with
      | .edge _ _ _ | .tick _ | .sample _ _ _ | .pop | .reset => True
      | .rxbyte _ =>
        s'.chans = s.chans ∧ s'.evq = s.evq ∧ SameEnvironment s s' ∧ s'.draws = s.draws ∧ s'.diags = []
      | _ => SameRegisters s s' ∧ SameEnvironment s s' ∧ s'.draws = s.draws)

/-! ## Check orders, checksum digits, and a queue without room -/

/-- R151, R263: the steps of BIN_DECODE for any string, in their order: the filler, fewer than three bytes, fewer
than L + 3, more than L + 3, a checksum byte that is not the exclusive-or of the bytes before it; and past
these no framing reject. -/
def Obligations.BinDecodeChecksInItsOrder : Prop :=
  ∀ (s : State) (f : Bytes),
    let gives (r : BinResult) : Prop := exec (.binDecode f) s = .next (s.answered (.binDecoded r))
    (f = [0x00] → gives .filler) ∧
    (f ≠ [0x00] → f.length < 3 → gives (.reject .binTruncated)) ∧
    ∀ (tag len : Byte) (fields : Bytes) (cs : Byte), f = tag :: len :: (fields ++ [cs]) →
      (f.length < len.toNat + 3 → gives (.reject .binTruncated)) ∧
      (len.toNat + 3 < f.length → gives (.reject .binLength)) ∧
      (f.length = len.toNat + 3 → cs ≠ xorBytes (tag :: len :: fields) → gives (.reject .binChecksum)) ∧
      (f.length = len.toNat + 3 → cs = xorBytes (tag :: len :: fields) →
        ∃ r, gives r ∧ ∀ q, r = .reject q → q = .binFields)

/-- R202, R206, R264: the steps of TXT_DECODE for any line, in their order: truncated, overlong, the markers, the
two digits, the checksum, the grammar, and an object without a string `type`, or a command without a string
`cmd`. -/
def Obligations.TxtDecodeChecksInItsOrder : Prop :=
  ∀ (s : State) (f : Bytes),
    let gives (r : RejectReason) : Prop := exec (.txtDecode f) s = .next (s.answered (.txtDecoded (.reject r)))
    (f.length < 6 ∨ f.getLast? ≠ some 0x0A → gives .txtTruncated) ∧
    (6 ≤ f.length → f.getLast? = some 0x0A → s.cfg.txtMaxLine < f.length → gives .txtOverlong) ∧
    (6 ≤ f.length → f.getLast? = some 0x0A → f.length ≤ s.cfg.txtMaxLine →
      ¬(f[0]? = some 0x3C ∧ f[f.length - 5]? = some 0x3E ∧ f[f.length - 4]? = some 0x7C) → gives .txtEnvelope) ∧
    ∀ (j : Bytes) (h l : Byte), f = lineOfParts j h l → f.length ≤ s.cfg.txtMaxLine →
      ((∀ a, ¬HexDigit h a) ∨ (∀ b, ¬HexDigit l b) → gives .txtHex) ∧
      ∀ a b, HexDigit h a → HexDigit l b →
        (16 * a + b ≠ (xorBytes j).toNat → gives .txtChecksum) ∧
        (16 * a + b = (xorBytes j).toNat →
          ((∀ o, objectOk o = true → j ≠ objectBytes o) → gives .txtJson) ∧
          ∀ o, objectOk o = true → j = objectBytes o →
            ((∀ ty, o.lookup (ascii "type") ≠ some (.str ty)) → gives .txtFields) ∧
            (o.lookup (ascii "type") = some (.str (ascii "command")) →
              (∀ cmd, o.lookup (ascii "cmd") ≠ some (.str cmd)) → gives .txtFields))

/-- R201: the encoder writes the checksum as two digits of `0-9A-F`, high nibble first; the decoder reads `0-9`,
`A-F` and `a-f` as `16 * hexval(H[0]) + hexval(H[1])`, and answers any other byte with REJ_TXT_HEX. -/
def Obligations.ChecksumDigitsAreUppercaseOutAndEitherCaseIn : Prop :=
  let digit (n : Nat) : Byte := (ascii "0123456789ABCDEF").getD n 0
  (∀ v : Byte, hex2 v = [digit (v.toNat / 16), digit (v.toNat % 16)]) ∧
    (∀ (b : Byte) (n : Nat), hexVal b = some n ↔ HexDigit b n) ∧
    (∀ (s : State) (m : TxtMsg) (f : Bytes),
      exec (.txtEncode m) s = .next (s.answered (.encoded (.frame f))) →
        ∃ j, f = lineOfParts j (digit ((xorBytes j).toNat / 16)) (digit ((xorBytes j).toNat % 16))) ∧
    ∀ (s : State) (j : Bytes) (h l : Byte), (lineOfParts j h l).length ≤ s.cfg.txtMaxLine →
      let rejects (r : RejectReason) : Prop :=
        exec (.txtDecode (lineOfParts j h l)) s = .next (s.answered (.txtDecoded (.reject r)))
      (rejects .txtHex ↔ ¬((∃ a, HexDigit h a) ∧ ∃ b, HexDigit l b)) ∧
        ∀ a b, HexDigit h a → HexDigit l b → (rejects .txtChecksum ↔ 16 * a + b ≠ (xorBytes j).toNat)

/-- R115, R116, R118: whatever the room, the due trains of a sweep are finalized in some order; as many of
their events as fit enter the queue in that order, and every later one is dropped with DIAG_EVQ_OVERFLOW.
With the DIAG_PARITY of the trains that fail parity these are all the diagnostics, in the same order. -/
def Obligations.SweepFillsTheQueueAndDropsTheRest : Prop :=
  ∀ (s : State) (t : Stamp), ∃ (s' : State) (l : List Nat), exec (.tick t) s = .next s' ∧ l.Perm (dueList s t) ∧
    let evs := l.filterMap fun c => trainEvent s.cfg c (s.chan c)
    let room := s.cfg.evqCap - s.evq.length
    s'.evq = s.evq ++ evs.take room ∧
      s'.diags.Perm ((l.filterMap fun c => trainDiag s.cfg c (s.chan c)) ++
        (evs.drop room).map fun ev => (⟨.evqOverflow, ev.readerId⟩ : Diag)) ∧
      (s'.diags.map Diag.arg).Sublist (l.map fun c => s.cfg.readerId.getD c 0)
end

