-- ==== Sys2Proof/Laws/Bytes.lean ====
section
/-! SUPPORT. Laws of the byte-string operations: exclusive-or, slices, hexadecimal and decimal spellings, the
big-endian code. -/

namespace Sys2Proof

/-! ## Exclusive-or -/

@[simp] theorem xorBytes_nil : xorBytes [] = 0 := rfl

@[simp] theorem xorBytes_cons (x : Byte) (xs : Bytes) : xorBytes (x :: xs) = x ^^^ xorBytes xs := rfl

@[simp] theorem xorBytes_append (a b : Bytes) : xorBytes (a ++ b) = xorBytes a ^^^ xorBytes b := by
  induction a with
  | nil => simp
  | cons x xs ih => simp [ih, BitVec.xor_assoc]

/-- The exclusive-or of a string does not depend on the order of its bytes. -/
theorem xorBytes_perm {a b : Bytes} (h : a.Perm b) : xorBytes a = xorBytes b := by
  induction h with
  | nil => rfl
  | cons x _ ih => simp [ih]
  | swap x y l => simp only [xorBytes_cons, ← BitVec.xor_assoc, BitVec.xor_comm x y]
  | trans _ _ ih1 ih2 => exact ih1.trans ih2

theorem xorBytes_set (s : Bytes) (k : Nat) (v : Byte) (h : k < s.length) :
    xorBytes (s.set k v) = xorBytes s ^^^ (s[k] ^^^ v) := by
  induction s generalizing k with
  | nil => simp at h
  | cons x xs ih =>
    cases k with
    | zero =>
      simp only [List.set_cons_zero, xorBytes_cons, List.getElem_cons_zero]
      rw [BitVec.xor_assoc, BitVec.xor_comm (xorBytes xs), ← BitVec.xor_assoc, ← BitVec.xor_assoc,
        BitVec.xor_self, BitVec.zero_xor]
    | succ k =>
      simp only [List.set_cons_succ, xorBytes_cons, List.getElem_cons_succ]
      rw [ih k (by simpa using h), BitVec.xor_assoc]

theorem xor_eq_zero_iff (a b : Byte) : a ^^^ b = 0 ↔ a = b := by
  constructor
  · intro h
    have : a ^^^ b ^^^ b = 0 ^^^ b := by rw [h]
    simpa [BitVec.xor_assoc] using this
  · rintro rfl
    simp

/-! ## Bytes of a frame -/

theorem length_binFrame (tag len : Byte) (fields : Bytes) (cs : Byte) :
    (binFrame tag len fields cs).length = fields.length + 3 := by simp [binFrame]

theorem binFrame_zero (tag len : Byte) (fields : Bytes) (cs : Byte) :
    byteAt (binFrame tag len fields cs) 0 = tag := rfl

theorem binFrame_one (tag len : Byte) (fields : Bytes) (cs : Byte) :
    byteAt (binFrame tag len fields cs) 1 = len := rfl

theorem binFrame_last (tag len : Byte) (fields : Bytes) (cs : Byte) :
    byteAt (binFrame tag len fields cs) (fields.length + 2) = cs := by
  simp [byteAt, binFrame]

theorem binFrame_payload (tag len : Byte) (fields : Bytes) (cs : Byte) :
    slice (binFrame tag len fields cs) 0 (fields.length + 1) = tag :: len :: fields := by
  simp [slice, binFrame]

theorem binFrame_fields (tag len : Byte) (fields : Bytes) (cs : Byte) :
    slice (binFrame tag len fields cs) 2 (fields.length + 1) = fields := by
  simp [slice, binFrame]

theorem binFrame_ne_filler (tag len : Byte) (fields : Bytes) (cs : Byte) :
    binFrame tag len fields cs ≠ [0x00] := by simp [binFrame]

/-- A string of three or more bytes is a frame of its own parts. -/
theorem eq_binFrame {s : Bytes} (h : 3 ≤ s.length) :
    s = binFrame (byteAt s 0) (byteAt s 1) (slice s 2 (s.length - 2)) (byteAt s (s.length - 1)) := by
  match s, h with
  | tag :: len :: x :: xs, _ =>
    have hne : x :: xs ≠ [] := by simp
    have hl : byteAt (tag :: len :: x :: xs) ((tag :: len :: x :: xs).length - 1) = (x :: xs).getLast hne := by
      have e : (tag :: len :: x :: xs).length - 1 = xs.length + 2 := by simp
      rw [e]
      simp only [byteAt, List.getD_eq_getElem?_getD, List.getElem?_cons_succ]
      rw [List.getLast_eq_getElem]
      simp
    have hf : slice (tag :: len :: x :: xs) 2 ((tag :: len :: x :: xs).length - 2) = (x :: xs).dropLast := by
      simp [slice, List.dropLast_eq_take]
    rw [hl, hf]
    simp only [binFrame, byteAt, List.getD_cons_zero, List.getD_cons_succ]
    rw [List.dropLast_append_getLast]

/-- What the length and checksum steps answer for a frame. -/
theorem binFramingFault_binFrame (tag len : Byte) (fields : Bytes) (cs : Byte) :
    binFramingFault (binFrame tag len fields cs) =
      if fields.length < len.toNat then some .binTruncated
      else if len.toNat < fields.length then some .binLength
      else if xorBytes (tag :: len :: fields) ≠ cs then some .binChecksum
      else none := by
  unfold binFramingFault
  simp only [length_binFrame, binFrame_one]
  have h1 : ¬fields.length + 3 < 3 := by omega
  have h2 : fields.length + 3 - 2 = fields.length + 1 := by omega
  have h3 : fields.length + 3 - 1 = fields.length + 2 := by omega
  rw [if_neg h1, h2, h3, binFrame_payload, binFrame_last]
  by_cases ha : fields.length < len.toNat
  · rw [if_pos ha, if_pos (by omega)]
  · rw [if_neg ha, if_neg (by omega)]
    by_cases hb : len.toNat < fields.length
    · rw [if_pos hb, if_pos (by omega)]
    · rw [if_neg hb, if_neg (by omega)]

/-- BIN_DECODE of a frame: the framing and checksum steps, then the tag's rule. -/
theorem binDecode_binFrame (tag len : Byte) (fields : Bytes) (cs : Byte) :
    binDecode (binFrame tag len fields cs) =
      match binFramingFault (binFrame tag len fields cs) with
      | some r => .reject r
      | none =>
        match binKindOf tag with
        | some k => parseBin k fields
        | none => .unknown tag fields := by
  unfold binDecode
  rw [if_neg (binFrame_ne_filler _ _ _ _)]
  have h2 : (binFrame tag len fields cs).length - 2 = fields.length + 1 := by rw [length_binFrame]; omega
  rw [h2, binFrame_fields, binFrame_zero]
  all_goals cases binFramingFault (binFrame tag len fields cs) <;> rfl

/-- BIN_DECODE of a string too short for a frame. -/
theorem binDecode_short {s : Bytes} (h : s.length < 3) (hf : s ≠ [0x00]) :
    binDecode s = .reject .binTruncated := by
  unfold binDecode
  rw [if_neg hf]
  have : binFramingFault s = some .binTruncated := by
    unfold binFramingFault
    simp [h]
  rw [this]

/-- What BIN_ENCODE writes for a message: its tag, the length byte, its fields and the checksum. -/
theorem binEncode_some (m : BinMsg) (h : (binFields m).2.length ≤ 255) :
    binEncode (some m) = .frame (binFrame (binFields m).1 (BitVec.ofNat 8 (binFields m).2.length) (binFields m).2
      (xorBytes ((binFields m).1 :: BitVec.ofNat 8 (binFields m).2.length :: (binFields m).2))) := by
  unfold binEncode
  simp only
  rw [if_neg (by omega)]
  simp [binFrame]

theorem length_binFields {m : BinMsg} (h : binMsgOk m = true) : (binFields m).2.length ≤ 255 := by
  cases m <;> simp [binFields, be32Bytes]
  rename_i uid
  have : uid.length ≤ 254 := of_decide_eq_true h
  omega

/-- Every message's tag selects the message's own rule. -/
theorem binKindOf_tag (k : BinKind) : binKindOf k.tag = some k := by cases k <;> decide

/-! ## The big-endian code -/

theorem toNat_be32 (b3 b2 b1 b0 : Byte) :
    (be32 b3 b2 b1 b0).toNat = b3.toNat * 2 ^ 24 + b2.toNat * 2 ^ 16 + b1.toNat * 2 ^ 8 + b0.toNat := by
  have e : be32 b3 b2 b1 b0 = (b3 ++ b2 ++ b1 ++ b0 : BitVec 32) := by
    apply BitVec.eq_of_getLsbD_eq
    intro i hi
    simp only [be32, BitVec.getLsbD_or, BitVec.getLsbD_shiftLeft, BitVec.getLsbD_setWidth, BitVec.getLsbD_append]
    have hb : ∀ (b : Byte) (j : Nat), 8 ≤ j → b.getLsbD j = false := fun b j hj => BitVec.getLsbD_of_ge b j hj
    rcases Nat.lt_or_ge i 8 with h | h
    · simp [h, hi, show i < 16 by omega, show i < 24 by omega]
    · rcases Nat.lt_or_ge i 16 with h' | h'
      · simp [hi, show i < 24 by omega, show ¬i < 8 by omega, show i - 8 < 8 by omega, show i < 16 by omega,
          hb b0 i h, show i - 8 < 32 by omega]
      · rcases Nat.lt_or_ge i 24 with h'' | h''
        · simp [hi, h'', show ¬i < 8 by omega, show ¬i < 16 by omega, show ¬i - 8 < 8 by omega,
            hb b0 i h, hb b1 (i - 8) (by omega), show i - 16 < 32 by omega, show i - 8 - 8 = i - 16 by omega,
            show i - 16 < 8 by omega]
        · simp [hi, show ¬i < 24 by omega, show ¬i < 8 by omega, show ¬i < 16 by omega,
            show ¬i - 8 < 8 by omega, show ¬i - 8 - 8 < 8 by omega, hb b0 i h, hb b1 (i - 8) (by omega),
            hb b2 (i - 16) (by omega), show i - 24 < 32 by omega, show i - 8 - 8 - 8 = i - 24 by omega]
  rw [e]
  simp only [BitVec.toNat_append]
  have h0 := b0.isLt
  have h1 := b1.isLt
  have h2 := b2.isLt
  rw [← Nat.shiftLeft_add_eq_or_of_lt h0, ← Nat.shiftLeft_add_eq_or_of_lt h1, ← Nat.shiftLeft_add_eq_or_of_lt h2]
  simp only [Nat.shiftLeft_eq]
  omega

theorem be32_be32Bytes (k : BitVec 32) :
    be32 (k.extractLsb' 24 8) (k.extractLsb' 16 8) (k.extractLsb' 8 8) (k.extractLsb' 0 8) = k := by
  apply BitVec.eq_of_toNat_eq
  rw [toNat_be32]
  simp only [BitVec.extractLsb'_toNat, Nat.shiftRight_eq_div_pow]
  have := k.isLt
  omega

theorem be32Bytes_be32 (b3 b2 b1 b0 : Byte) : be32Bytes (be32 b3 b2 b1 b0) = [b3, b2, b1, b0] := by
  have hn := toNat_be32 b3 b2 b1 b0
  have h0 := b0.isLt
  have h1 := b1.isLt
  have h2 := b2.isLt
  have h3 := b3.isLt
  have e : ∀ (n : Nat) (b : Byte), (be32 b3 b2 b1 b0).toNat / 2 ^ n % 2 ^ 8 = b.toNat →
      (be32 b3 b2 b1 b0).extractLsb' n 8 = b := by
    intro n b h
    apply BitVec.eq_of_toNat_eq
    rw [BitVec.extractLsb'_toNat, Nat.shiftRight_eq_div_pow, h]
  unfold be32Bytes
  rw [e 24 b3 (by rw [hn]; omega), e 16 b2 (by rw [hn]; omega), e 8 b1 (by rw [hn]; omega),
    e 0 b0 (by rw [hn]; omega)]

/-! ## Hexadecimal -/

theorem hexVal_hexDigit {n : Nat} (h : n < 16) : hexVal (hexDigit n) = some n := by
  interval_cases n <;> decide

/-- The decoder reads back the checksum digits the encoder writes. -/
theorem hexPair_hex2 (v : Byte) : hexPair (hexDigit (v.toNat / 16)) (hexDigit (v.toNat % 16)) = some v := by
  have h := v.isLt
  rw [hexPair, hexVal_hexDigit (by omega), hexVal_hexDigit (by omega)]
  show some (BitVec.ofNat 8 (16 * (v.toNat / 16) + v.toNat % 16)) = some v
  congr 1
  apply BitVec.eq_of_toNat_eq
  simp only [BitVec.toNat_ofNat]
  omega

theorem hexVal_lt {b : Byte} {n : Nat} (h : hexVal b = some n) : n < 16 := by
  unfold hexVal at h
  simp only at h
  split at h
  · cases h; omega
  · split at h
    · cases h; omega
    · split at h
      · cases h; omega
      · cases h

/-! ## Decimal -/

theorem digitByte_toNat {d : Nat} (h : d < 10) : (digitByte d).toNat = 0x30 + d := by
  simp only [digitByte, BitVec.toNat_ofNat]
  omega

theorem isDigit_digitByte {d : Nat} (h : d < 10) : isDigit (digitByte d) = true := by
  simp only [isDigit, decide_eq_true_iff, digitByte_toNat h]
  omega

theorem decValue_append (ds : Bytes) (d : Byte) : decValue (ds ++ [d]) = 10 * decValue ds + (d.toNat - 0x30) := by
  simp [decValue]

/-- What `fuel` digits spell of a number below `10^fuel`: its value, in digits, with no leading zero. -/
theorem decDigits_spec (fuel n : Nat) (h : n < 10 ^ (fuel + 1)) :
    decValue (decDigits (fuel + 1) n) = n ∧ (∀ d ∈ decDigits (fuel + 1) n, isDigit d = true) ∧
      1 ≤ (decDigits (fuel + 1) n).length ∧ (decDigits (fuel + 1) n).length ≤ fuel + 1 ∧
      (n ≠ 0 → (decDigits (fuel + 1) n).head? ≠ some 0x30) ∧ (n = 0 → decDigits (fuel + 1) n = [0x30]) := by
  induction fuel generalizing n with
  | zero =>
    have h' : n < 10 := by simpa using h
    simp only [decDigits, h', if_true]
    refine ⟨?_, ?_, by simp, by simp, ?_, ?_⟩
    · simp [decValue, digitByte_toNat h']
    · simp [isDigit_digitByte h']
    · intro hn he
      have := congrArg BitVec.toNat (Option.some.inj (by simpa using he) : digitByte n = 0x30)
      rw [digitByte_toNat h'] at this
      simp at this
      exact hn this
    · rintro rfl
      rfl
  | succ fuel ih =>
    by_cases h' : n < 10
    · simp only [decDigits, h', if_true]
      refine ⟨?_, ?_, by simp, by simp, ?_, ?_⟩
      · simp [decValue, digitByte_toNat h']
      · simp [isDigit_digitByte h']
      · intro hn he
        have := congrArg BitVec.toNat (Option.some.inj (by simpa using he) : digitByte n = 0x30)
        rw [digitByte_toNat h'] at this
        simp at this
        exact hn this
      · rintro rfl
        rfl
    · have hd : decDigits (fuel + 1 + 1) n = decDigits (fuel + 1) (n / 10) ++ [digitByte (n % 10)] := by
        rw [decDigits, if_neg h']
      obtain ⟨hv, hall, h1, hlen, hhead, -⟩ := ih (n / 10) (by rw [Nat.pow_succ] at h; omega)
      have hm : n % 10 < 10 := by omega
      rw [hd]
      refine ⟨?_, ?_, by simp, by simp; omega, ?_, by omega⟩
      · rw [decValue_append, hv, digitByte_toNat hm]
        omega
      · intro d hd
        rcases List.mem_append.1 hd with hd | hd
        · exact hall d hd
        · rw [List.mem_singleton.1 hd]
          exact isDigit_digitByte hm
      · intro _
        have hne : decDigits (fuel + 1) (n / 10) ≠ [] := by
          intro he
          rw [he] at h1
          simp at h1
        rw [List.head?_append_of_ne_nil _ hne]
        exact hhead (by omega)

theorem dec_spec {n : Nat} (h : n < 2 ^ 64) :
    decValue (dec n) = n ∧ (∀ d ∈ dec n, isDigit d = true) ∧ 1 ≤ (dec n).length ∧ (dec n).length ≤ 20 ∧
      (n ≠ 0 → (dec n).head? ≠ some 0x30) ∧ (n = 0 → dec n = [0x30]) :=
  decDigits_spec 19 n (by
    have : (2 : Nat) ^ 64 < 10 ^ 20 := by norm_num
    exact Nat.lt_trans h this)

/-- A number of a U8 has at most three digits. -/
theorem length_dec_u8 (v : Byte) : (dec v.toNat).length ≤ 3 := by
  have h := v.isLt
  have hd : ∀ n, n < 10 → (dec n).length ≤ 3 := by
    intro n hn
    simp [dec, decDigits, hn]
  have hd2 : ∀ n, n < 100 → (decDigits 19 n).length ≤ 2 := by
    intro n hn
    by_cases h1 : n < 10
    · simp [decDigits, h1]
    · simp only [decDigits, h1, if_false, show n / 10 < 10 by omega, if_true]
      simp
  by_cases h1 : v.toNat < 10
  · exact hd _ h1
  · rw [dec, decDigits, if_neg h1, List.length_append]
    have := hd2 (v.toNat / 10) (by omega)
    simp
    omega

/-- A string of digits with no leading zero is the spelling of its value. -/
theorem decDigits_decValue (fuel : Nat) (ds : Bytes) (hall : ∀ d ∈ ds, isDigit d = true) (hne : ds ≠ [])
    (hlen : ds.length ≤ fuel + 1) (hz : ds = [0x30] ∨ ds.head? ≠ some 0x30) :
    decDigits (fuel + 1) (decValue ds) = ds ∧ (ds ≠ [0x30] → 0 < decValue ds) := by
  induction fuel generalizing ds with
  | zero =>
    match ds, hne, hlen with
    | [d], _, _ =>
      have hd : 0x30 ≤ d.toNat ∧ d.toNat ≤ 0x39 := of_decide_eq_true (hall d (by simp))
      have hlt : d.toNat - 0x30 < 10 := by omega
      have he : digitByte (d.toNat - 0x30) = d := by
        apply BitVec.eq_of_toNat_eq
        rw [digitByte_toNat hlt]
        omega
      constructor
      · simp [decValue, decDigits, hlt, he]
      · intro h30
        have : d.toNat ≠ 0x30 := fun h => h30 (by rw [show d = 0x30 from BitVec.eq_of_toNat_eq h])
        simp [decValue]
        omega
  | succ fuel ih =>
    obtain ⟨init, d, rfl⟩ : ∃ init d, ds = init ++ [d] :=
      ⟨ds.dropLast, ds.getLast hne, (List.dropLast_append_getLast hne).symm⟩
    have hd : 0x30 ≤ d.toNat ∧ d.toNat ≤ 0x39 := of_decide_eq_true (hall d (by simp))
    have hlt : d.toNat - 0x30 < 10 := by omega
    have he : digitByte (d.toNat - 0x30) = d := by
      apply BitVec.eq_of_toNat_eq
      rw [digitByte_toNat hlt]
      omega
    rw [decValue_append]
    by_cases hi : init = []
    · subst hi
      constructor
      · simp [decValue, decDigits, hlt, he]
      · intro h30
        have : d.toNat ≠ 0x30 := fun h => h30 (by rw [show d = 0x30 from BitVec.eq_of_toNat_eq h]; rfl)
        simp [decValue]
        omega
    · have hhead : init.head? ≠ some 0x30 := by
        rcases hz with hz | hz
        · exfalso
          have := congrArg List.length hz
          simp at this
          exact hi this
        · rwa [List.head?_append_of_ne_nil _ hi] at hz
      obtain ⟨hv, hpos⟩ := ih init (fun x hx => hall x (by simp [hx])) hi (by simp at hlen; omega) (Or.inr hhead)
      have hp : 0 < decValue init := hpos (by
        rintro rfl
        exact hhead rfl)
      constructor
      · rw [decDigits, if_neg (by omega)]
        have e1 : (10 * decValue init + (d.toNat - 0x30)) / 10 = decValue init := by omega
        have e2 : (10 * decValue init + (d.toNat - 0x30)) % 10 = d.toNat - 0x30 := by omega
        rw [e1, e2, hv, he]
      · intro _
        omega

/-- A `uint` token reads as n exactly where it is the decimal spelling of n, a u64. -/
theorem uintValue_eq_some {ds : Bytes} {n : Nat} (hall : ∀ d ∈ ds, isDigit d = true) :
    uintValue ds = some n ↔ n < 2 ^ 64 ∧ ds = dec n := by
  unfold uintValue
  constructor
  · intro h
    split at h
    · rename_i hc
      cases h
      refine ⟨hc.2, ?_⟩
      rcases hc.1 with hz | ⟨hne, hh, hlen⟩
      · subst hz
        decide
      · exact (decDigits_decValue 19 ds hall hne hlen (Or.inr hh)).1.symm
    · cases h
  · rintro ⟨hn, rfl⟩
    obtain ⟨hv, -, h1, hlen, hh, hz⟩ := dec_spec hn
    rw [if_pos, hv]
    refine ⟨?_, by rw [hv]; exact hn⟩
    by_cases h0 : n = 0
    · exact Or.inl (hz h0)
    · refine Or.inr ⟨?_, hh h0, hlen⟩
      intro he
      rw [he] at h1
      simp at h1

end Sys2Proof
end

