-- ==== Sys2Proof/Laws/State.lean ====
section
/-! SUPPORT. The fields of every state update, one lemma per field per update, so that no proof unfolds a record. -/

namespace Sys2Proof.Machine

/-! ## A new operation's outputs -/

@[simp] theorem begin_chans (s : State) : (s.begin).chans = s.chans := rfl
@[simp] theorem begin_evq (s : State) : (s.begin).evq = s.evq := rfl
@[simp] theorem begin_rxbuf (s : State) : (s.begin).rxbuf = s.rxbuf := rfl
@[simp] theorem begin_rxdiscard (s : State) : (s.begin).rxdiscard = s.rxdiscard := rfl
@[simp] theorem begin_cfg (s : State) : (s.begin).cfg = s.cfg := rfl
@[simp] theorem begin_draws (s : State) : (s.begin).draws = s.draws := rfl
@[simp] theorem begin_diags (s : State) : (s.begin).diags = [] := rfl
@[simp] theorem begin_result (s : State) : (s.begin).result = .none := rfl
@[simp] theorem begin_input (s : State) : (s.begin).input = s.input := rfl

/-! ## A diagnostic -/

@[simp] theorem emit_chans (s : State) (k : DiagCode) (a : Byte) : (s.emit k a).chans = s.chans := rfl
@[simp] theorem emit_evq (s : State) (k : DiagCode) (a : Byte) : (s.emit k a).evq = s.evq := rfl
@[simp] theorem emit_rxbuf (s : State) (k : DiagCode) (a : Byte) : (s.emit k a).rxbuf = s.rxbuf := rfl
@[simp] theorem emit_rxdiscard (s : State) (k : DiagCode) (a : Byte) : (s.emit k a).rxdiscard = s.rxdiscard := rfl
@[simp] theorem emit_cfg (s : State) (k : DiagCode) (a : Byte) : (s.emit k a).cfg = s.cfg := rfl
@[simp] theorem emit_draws (s : State) (k : DiagCode) (a : Byte) : (s.emit k a).draws = s.draws := rfl
@[simp] theorem emit_diags (s : State) (k : DiagCode) (a : Byte) : (s.emit k a).diags = s.diags ++ [⟨k, a⟩] := rfl
@[simp] theorem emit_result (s : State) (k : DiagCode) (a : Byte) : (s.emit k a).result = s.result := rfl
@[simp] theorem emit_input (s : State) (k : DiagCode) (a : Byte) : (s.emit k a).input = s.input := rfl

/-! ## A result -/

@[simp] theorem answer_chans (s : State) (r : Result) : (s.answer r).chans = s.chans := rfl
@[simp] theorem answer_evq (s : State) (r : Result) : (s.answer r).evq = s.evq := rfl
@[simp] theorem answer_rxbuf (s : State) (r : Result) : (s.answer r).rxbuf = s.rxbuf := rfl
@[simp] theorem answer_rxdiscard (s : State) (r : Result) : (s.answer r).rxdiscard = s.rxdiscard := rfl
@[simp] theorem answer_cfg (s : State) (r : Result) : (s.answer r).cfg = s.cfg := rfl
@[simp] theorem answer_draws (s : State) (r : Result) : (s.answer r).draws = s.draws := rfl
@[simp] theorem answer_diags (s : State) (r : Result) : (s.answer r).diags = s.diags := rfl
@[simp] theorem answer_result (s : State) (r : Result) : (s.answer r).result = r := rfl
@[simp] theorem answer_input (s : State) (r : Result) : (s.answer r).input = s.input := rfl

/-! ## An answer without a diagnostic -/

@[simp] theorem answered_chans (s : State) (r : Result) : (s.answered r).chans = s.chans := rfl
@[simp] theorem answered_evq (s : State) (r : Result) : (s.answered r).evq = s.evq := rfl
@[simp] theorem answered_rxbuf (s : State) (r : Result) : (s.answered r).rxbuf = s.rxbuf := rfl
@[simp] theorem answered_rxdiscard (s : State) (r : Result) : (s.answered r).rxdiscard = s.rxdiscard := rfl
@[simp] theorem answered_cfg (s : State) (r : Result) : (s.answered r).cfg = s.cfg := rfl
@[simp] theorem answered_draws (s : State) (r : Result) : (s.answered r).draws = s.draws := rfl
@[simp] theorem answered_diags (s : State) (r : Result) : (s.answered r).diags = [] := rfl
@[simp] theorem answered_result (s : State) (r : Result) : (s.answered r).result = r := rfl
@[simp] theorem answered_input (s : State) (r : Result) : (s.answered r).input = s.input := rfl

/-! ## A channel -/

@[simp] theorem modifyChan_chans (s : State) (c : Nat) (f : Channel → Channel) : (s.modifyChan c f).chans = s.chans.modify c f := rfl
@[simp] theorem modifyChan_evq (s : State) (c : Nat) (f : Channel → Channel) : (s.modifyChan c f).evq = s.evq := rfl
@[simp] theorem modifyChan_rxbuf (s : State) (c : Nat) (f : Channel → Channel) : (s.modifyChan c f).rxbuf = s.rxbuf := rfl
@[simp] theorem modifyChan_rxdiscard (s : State) (c : Nat) (f : Channel → Channel) : (s.modifyChan c f).rxdiscard = s.rxdiscard := rfl
@[simp] theorem modifyChan_cfg (s : State) (c : Nat) (f : Channel → Channel) : (s.modifyChan c f).cfg = s.cfg := rfl
@[simp] theorem modifyChan_draws (s : State) (c : Nat) (f : Channel → Channel) : (s.modifyChan c f).draws = s.draws := rfl
@[simp] theorem modifyChan_diags (s : State) (c : Nat) (f : Channel → Channel) : (s.modifyChan c f).diags = s.diags := rfl
@[simp] theorem modifyChan_result (s : State) (c : Nat) (f : Channel → Channel) : (s.modifyChan c f).result = s.result := rfl
@[simp] theorem modifyChan_input (s : State) (c : Nat) (f : Channel → Channel) : (s.modifyChan c f).input = s.input := rfl

/-! ## Taking an input -/

@[simp] theorem consume_chans (s : State) : (s.consume).chans = s.chans := rfl
@[simp] theorem consume_evq (s : State) : (s.consume).evq = s.evq := rfl
@[simp] theorem consume_rxbuf (s : State) : (s.consume).rxbuf = s.rxbuf := rfl
@[simp] theorem consume_rxdiscard (s : State) : (s.consume).rxdiscard = s.rxdiscard := rfl
@[simp] theorem consume_cfg (s : State) : (s.consume).cfg = s.cfg := rfl
@[simp] theorem consume_draws (s : State) : (s.consume).draws = s.draws := rfl
@[simp] theorem consume_diags (s : State) : (s.consume).diags = s.diags := rfl
@[simp] theorem consume_result (s : State) : (s.consume).result = s.result := rfl
@[simp] theorem consume_input (s : State) : (s.consume).input = s.input.tail := rfl

/-! ## A table word as the next input -/

@[simp] theorem withFetchWord_chans (s : State) (n w : Nat) : (s.withFetchWord n w).chans = s.chans := rfl
@[simp] theorem withFetchWord_evq (s : State) (n w : Nat) : (s.withFetchWord n w).evq = s.evq := rfl
@[simp] theorem withFetchWord_rxbuf (s : State) (n w : Nat) : (s.withFetchWord n w).rxbuf = s.rxbuf := rfl
@[simp] theorem withFetchWord_rxdiscard (s : State) (n w : Nat) : (s.withFetchWord n w).rxdiscard = s.rxdiscard := rfl
@[simp] theorem withFetchWord_cfg (s : State) (n w : Nat) : (s.withFetchWord n w).cfg = s.cfg := rfl
@[simp] theorem withFetchWord_draws (s : State) (n w : Nat) : (s.withFetchWord n w).draws = s.draws := rfl
@[simp] theorem withFetchWord_diags (s : State) (n w : Nat) : (s.withFetchWord n w).diags = s.diags := rfl
@[simp] theorem withFetchWord_result (s : State) (n w : Nat) : (s.withFetchWord n w).result = s.result := rfl
@[simp] theorem withFetchWord_input (s : State) (n w : Nat) : (s.withFetchWord n w).input = .bus (tableFrame n w) :: s.input := rfl

/-! ## RESET -/

@[simp] theorem resetRegisters_chans (s : State) : (resetRegisters s).chans = List.replicate s.cfg.numReaders Channel.reset := rfl
@[simp] theorem resetRegisters_evq (s : State) : (resetRegisters s).evq = [] := rfl
@[simp] theorem resetRegisters_rxbuf (s : State) : (resetRegisters s).rxbuf = [] := rfl
@[simp] theorem resetRegisters_rxdiscard (s : State) : (resetRegisters s).rxdiscard = false := rfl
@[simp] theorem resetRegisters_cfg (s : State) : (resetRegisters s).cfg = s.cfg := rfl
@[simp] theorem resetRegisters_draws (s : State) : (resetRegisters s).draws = s.draws := rfl
@[simp] theorem resetRegisters_diags (s : State) : (resetRegisters s).diags = s.diags := rfl
@[simp] theorem resetRegisters_result (s : State) : (resetRegisters s).result = s.result := rfl
@[simp] theorem resetRegisters_input (s : State) : (resetRegisters s).input = s.input := rfl

/-! ## A channel -/

@[simp] theorem cleared_acc (ch : Channel) : (ch.cleared).acc = 0 := rfl
@[simp] theorem cleared_cnt (ch : Channel) : (ch.cleared).cnt = 0 := rfl
@[simp] theorem cleared_last (ch : Channel) : (ch.cleared).last = 0 := rfl
@[simp] theorem cleared_armed (ch : Channel) : (ch.cleared).armed = false := rfl
@[simp] theorem cleared_prev0 (ch : Channel) : (ch.cleared).prev0 = ch.prev0 := rfl
@[simp] theorem cleared_prev1 (ch : Channel) : (ch.cleared).prev1 = ch.prev1 := rfl
@[simp] theorem cleared_seen (ch : Channel) : (ch.cleared).seen = ch.seen := rfl

@[simp] theorem arm_acc (ch : Channel) (t : Stamp) : (ch.arm t).acc = ch.acc := rfl
@[simp] theorem arm_cnt (ch : Channel) (t : Stamp) : (ch.arm t).cnt = ch.cnt := rfl
@[simp] theorem arm_last (ch : Channel) (t : Stamp) : (ch.arm t).last = t := rfl
@[simp] theorem arm_armed (ch : Channel) (t : Stamp) : (ch.arm t).armed = true := rfl
@[simp] theorem arm_prev0 (ch : Channel) (t : Stamp) : (ch.arm t).prev0 = ch.prev0 := rfl
@[simp] theorem arm_prev1 (ch : Channel) (t : Stamp) : (ch.arm t).prev1 = ch.prev1 := rfl
@[simp] theorem arm_seen (ch : Channel) (t : Stamp) : (ch.arm t).seen = ch.seen := rfl

theorem cleared_eq_finalizedChan : Channel.cleared = finalizedChan := rfl

theorem begin_answer (s : State) (r : Result) : s.begin.answer r = s.answered r := rfl

theorem begin_eq_answered (s : State) : s.begin = s.answered .none := rfl

/-- The registers of a channel after a write: the written channel's, if the block has it. -/
theorem chan_modifyChan (s : State) (c c' : Nat) (f : Channel → Channel) :
    (s.modifyChan c f).chan c' = if c = c' ∧ c < s.chans.length then f (s.chan c) else s.chan c' := by
  simp only [State.chan, State.modifyChan, List.getD_eq_getElem?_getD, List.getElem?_modify]
  by_cases h : c = c'
  · subst h
    by_cases hc : c < s.chans.length
    · simp [hc]
    · simp [hc]
  · simp [h]

theorem chan_modifyChan_ne (s : State) {c c' : Nat} (f : Channel → Channel) (h : c ≠ c') :
    (s.modifyChan c f).chan c' = s.chan c' := by simp [chan_modifyChan, h]

theorem chan_modifyChan_self (s : State) {c : Nat} (f : Channel → Channel) (h : c < s.chans.length) :
    (s.modifyChan c f).chan c = f (s.chan c) := by simp [chan_modifyChan, h]

/-- A channel the block does not have reads as one after reset. -/
theorem chan_of_length_le (s : State) {c : Nat} (h : s.chans.length ≤ c) : s.chan c = Channel.reset := by
  simp [State.chan, List.getD_eq_getElem?_getD, List.getElem?_eq_none h]

theorem length_modifyChan (s : State) (c : Nat) (f : Channel → Channel) :
    (s.modifyChan c f).chans.length = s.chans.length := by simp

/-- A write that leaves the channel's registers as they are is no write. -/
theorem modifyChan_eq_self (s : State) (c : Nat) (f : Channel → Channel) (h : f (s.chan c) = s.chan c) :
    s.modifyChan c f = s := by
  have : s.chans.modify c f = s.chans := by
    apply List.ext_getElem?
    intro k
    rw [List.getElem?_modify]
    by_cases hk : c = k
    · subst hk
      by_cases hc : c < s.chans.length
      · simp [State.chan, hc] at h
        simp [hc, h]
      · simp [hc]
    · simp [hk]
  simp only [State.modifyChan, this]

theorem answered_chan (s : State) (r : Result) (c : Nat) : (s.answered r).chan c = s.chan c := rfl

@[simp] theorem begin_chan (s : State) (c : Nat) : s.begin.chan c = s.chan c := rfl

@[simp] theorem emit_chan (s : State) (k : DiagCode) (a : Byte) (c : Nat) : (s.emit k a).chan c = s.chan c := rfl

end Sys2Proof.Machine
end

