-- ==== Sys2Proof/Laws/Ops.lean ====
section
/-! SUPPORT. What each shared operation of the Decoder Unit can do, said once. -/

namespace Sys2Proof.Machine

/-! ## Timers -/

@[simp] theorem elapsed_self (t : Stamp) : elapsed t t = 0 := by simp [elapsed]

theorem due_iff (ch : Channel) (t : Stamp) : ch.due t = true ↔ TimerDue ch t := by
  rw [Channel.due, Bool.and_eq_true, decide_eq_true_iff]
  rfl

theorem dueChannels_eq_dueList (s : State) (t : Stamp) : dueChannels s t = dueList s t := by
  unfold dueChannels dueList
  congr 1
  funext c
  rw [Bool.eq_iff_iff, due_iff, decide_eq_true_iff]

theorem mem_dueList {s : State} {t : Stamp} {c : Nat} :
    c ∈ dueList s t ↔ c < s.cfg.numReaders ∧ TimerDue (s.chan c) t := by simp [dueList]

theorem dueList_nodup (s : State) (t : Stamp) : (dueList s t).Nodup := List.nodup_range.filter _

theorem lt_length_of_due {s : State} {t : Stamp} {c : Nat} (h : TimerDue (s.chan c) t) : c < s.chans.length := by
  by_contra hc
  rw [chan_of_length_le s (by omega)] at h
  simp [TimerDue, Channel.reset] at h

theorem dueList_eq_nil {s : State} {t : Stamp} (h : ∀ c, c < s.cfg.numReaders → ¬TimerDue (s.chan c) t) :
    dueList s t = [] := by
  rw [List.eq_nil_iff_forall_not_mem]
  intro c hc
  exact h c (mem_dueList.1 hc).1 (mem_dueList.1 hc).2

/-! ## The parity verdict -/

theorem popcount_eq_filter {w : Nat} (v : BitVec w) :
    popcount v = ((List.range w).filter fun i => v.getLsbD i).length := by
  simp [popcount, List.countP_eq_length_filter]

theorem w26Ok_iff (v : Code) : w26Ok v = true ↔ ParityHolds v := by
  have hi : popcount (v.extractLsb' 13 13) = ((List.range 13).filter fun i => v.getLsbD (13 + i)).length := by
    rw [popcount_eq_filter]
    congr 1
    apply List.filter_congr
    intro i hi
    simp [List.mem_range.1 hi]
  have lo : popcount (v.extractLsb' 0 13) = ((List.range 13).filter fun i => v.getLsbD i).length := by
    rw [popcount_eq_filter]
    congr 1
    apply List.filter_congr
    intro i hi
    simp [List.mem_range.1 hi]
  simp [w26Ok, hi, lo, ParityHolds]

/-! ## Delivering a train -/

/-- What PUSH can do: append at the tail, or at capacity drop the event with DIAG_EVQ_OVERFLOW. -/
theorem push_spec (ev : ReaderEvent) (s : State) :
    push ev s =
      { s with
        evq := if s.cfg.evqCap ≤ s.evq.length then s.evq else s.evq ++ [ev]
        diags := if s.cfg.evqCap ≤ s.evq.length then s.diags ++ [⟨.evqOverflow, ev.readerId⟩] else s.diags } := by
  unfold push
  split <;> simp_all [State.emit]

/-- What FINALIZE can do with a train: its event is pushed, or it has none and its diagnostic, if any, is
emitted. -/
theorem deliver_spec (c : Nat) (ch : Channel) (s : State) :
    deliver c ch s =
      match trainEvent s.cfg c ch with
      | some ev => push ev s
      | none => { s with diags := s.diags ++ (trainDiag s.cfg c ch).toList } := by
  have h26 : ch.cnt.toNat = 26 ↔ ch.cnt = 26 := by
    rw [← BitVec.toNat_inj]
    rfl
  have hp : w26Ok ch.acc = false ↔ ¬ParityHolds ch.acc := by rw [← w26Ok_iff]; simp
  unfold deliver trainEvent trainDiag
  by_cases h0 : ch.cnt = 0
  · have : ch.cnt ≠ 26 := by rw [h0]; decide
    simp [h0]
  · by_cases hd : ch.cnt = 26 ∧ ¬ParityHolds ch.acc
    · rw [if_neg h0, if_pos ⟨h26.2 hd.1, hp.2 hd.2⟩, if_pos (Or.inr hd), if_pos hd]
      rfl
    · rw [if_neg h0, if_neg (fun h => hd ⟨h26.1 h.1, hp.1 h.2⟩), if_neg (by tauto)]
      rfl

/-- FINALIZE leaves everything alone but the channel, the queue and the diagnostics. -/
theorem finalize_frame (c : Nat) (s : State) :
    (finalize c s).rxbuf = s.rxbuf ∧ (finalize c s).rxdiscard = s.rxdiscard ∧ (finalize c s).cfg = s.cfg ∧
      (finalize c s).draws = s.draws ∧ (finalize c s).result = s.result ∧ (finalize c s).input = s.input ∧
      (finalize c s).chans = s.chans.modify c Channel.cleared := by
  unfold finalize
  rw [deliver_spec]
  split <;> simp [push_spec]

/-- FINALIZE appends at most one event, and none to a full queue. -/
theorem finalize_evq (c : Nat) (s : State) :
    (finalize c s).evq = s.evq ∨
      ∃ ev, trainEvent s.cfg c (s.chan c) = some ev ∧ s.evq.length < s.cfg.evqCap ∧
        (finalize c s).evq = s.evq ++ [ev] := by
  unfold finalize
  rw [deliver_spec]
  split
  · rename_i ev hev
    by_cases h : s.cfg.evqCap ≤ s.evq.length
    · left; simp [push_spec, h]
    · right; exact ⟨ev, hev, by omega, by simp [push_spec, h]⟩
  · left; simp

/-- FINALIZE with room in the queue: the train's event, if it has one, and its diagnostic, if it has one. -/
theorem finalize_room (c : Nat) (s : State) (h : s.evq.length < s.cfg.evqCap) :
    (finalize c s).evq = s.evq ++ (trainEvent s.cfg c (s.chan c)).toList ∧
      (finalize c s).diags = s.diags ++ (trainDiag s.cfg c (s.chan c)).toList := by
  unfold finalize
  rw [deliver_spec]
  split
  · rename_i ev hev
    have : trainDiag s.cfg c (s.chan c) = none := by
      unfold trainEvent at hev
      unfold trainDiag
      split at hev
      · cases hev
      · rename_i hn
        rw [if_neg (fun hd => hn (Or.inr hd))]
    simp [push_spec, hev, this, Nat.not_le.2 h]
  · rename_i hev
    simp [hev]

theorem finalize_chan (c c' : Nat) (s : State) :
    (finalize c s).chan c' = if c = c' ∧ c < s.chans.length then finalizedChan (s.chan c) else s.chan c' := by
  have h : (finalize c s).chan c' = (s.modifyChan c Channel.cleared).chan c' := by
    simp only [State.chan, (finalize_frame c s).2.2.2.2.2.2, modifyChan_chans]
  rw [h, chan_modifyChan]
  rfl

/-! ## A sweep -/

/-- The channels of a list, finalized in its order. -/
def finalizeAll (l : List Nat) (s : State) : State := l.foldl (fun s c => finalize c s) s

theorem finalizeAll_frame (l : List Nat) (s : State) :
    (finalizeAll l s).rxbuf = s.rxbuf ∧ (finalizeAll l s).rxdiscard = s.rxdiscard ∧
      (finalizeAll l s).cfg = s.cfg ∧ (finalizeAll l s).draws = s.draws ∧
      (finalizeAll l s).result = s.result ∧ (finalizeAll l s).input = s.input ∧
      (finalizeAll l s).chans.length = s.chans.length := by
  induction l generalizing s with
  | nil => simp [finalizeAll]
  | cons c l ih =>
    have h := ih (finalize c s)
    have f := finalize_frame c s
    simp only [finalizeAll, List.foldl_cons] at h ⊢
    simp_all

theorem finalizedChan_idem (ch : Channel) : finalizedChan (finalizedChan ch) = finalizedChan ch := rfl

theorem finalizeAll_chan (l : List Nat) (s : State) (c : Nat) (hl : ∀ x ∈ l, x < s.chans.length) :
    (finalizeAll l s).chan c = if c ∈ l then finalizedChan (s.chan c) else s.chan c := by
  induction l generalizing s with
  | nil => simp [finalizeAll]
  | cons x l ih =>
    have hlen : (finalize x s).chans.length = s.chans.length := by simp [(finalize_frame x s).2.2.2.2.2.2]
    have h := ih (finalize x s) (fun y hy => by rw [hlen]; exact hl y (by simp [hy]))
    simp only [finalizeAll, List.foldl_cons] at h ⊢
    rw [h, finalize_chan]
    have hx : x < s.chans.length := hl x (by simp)
    by_cases hc : x = c
    · subst hc
      simp [hx, finalizedChan_idem]
    · have : c ≠ x := fun h => hc h.symm
      simp [hc, this]

theorem finalizeAll_evq_append (l : List Nat) (s : State) : ∃ evs, (finalizeAll l s).evq = s.evq ++ evs := by
  induction l generalizing s with
  | nil => exact ⟨[], by simp [finalizeAll]⟩
  | cons c l ih =>
    obtain ⟨evs, h⟩ := ih (finalize c s)
    simp only [finalizeAll, List.foldl_cons] at h ⊢
    rcases finalize_evq c s with h' | ⟨ev, -, -, h'⟩
    · exact ⟨evs, by rw [h, h']⟩
    · exact ⟨ev :: evs, by rw [h, h']; simp⟩

theorem finalizeAll_evq_le (l : List Nat) (s : State) (h : s.evq.length ≤ s.cfg.evqCap) :
    (finalizeAll l s).evq.length ≤ s.cfg.evqCap := by
  induction l generalizing s with
  | nil => simpa [finalizeAll] using h
  | cons c l ih =>
    have hc := (finalize_frame c s).2.2.1
    have := ih (finalize c s) (by
      rw [hc]
      rcases finalize_evq c s with h' | ⟨ev, -, hlt, h'⟩
      · rw [h']; exact h
      · rw [h']; simp; omega)
    simpa [finalizeAll, hc] using this

/-- What FINALIZE does to queue and diagnostics: nothing queued and at most the parity diagnostic for a train
without an event; else its event appended, or with no room dropped with DIAG_EVQ_OVERFLOW. -/
theorem finalize_out (c : Nat) (s : State) :
    (trainEvent s.cfg c (s.chan c) = none ∧ (finalize c s).evq = s.evq ∧
        (finalize c s).diags = s.diags ++ (trainDiag s.cfg c (s.chan c)).toList) ∨
      ∃ ev, trainEvent s.cfg c (s.chan c) = some ev ∧ trainDiag s.cfg c (s.chan c) = none ∧
        (s.evq.length < s.cfg.evqCap ∧ (finalize c s).evq = s.evq ++ [ev] ∧ (finalize c s).diags = s.diags ∨
          s.cfg.evqCap ≤ s.evq.length ∧ (finalize c s).evq = s.evq ∧
            (finalize c s).diags = s.diags ++ [⟨.evqOverflow, ev.readerId⟩]) := by
  unfold finalize
  rw [deliver_spec]
  split
  · rename_i ev hev
    have hd : trainDiag s.cfg c (s.chan c) = none := by
      unfold trainEvent at hev
      unfold trainDiag
      split at hev
      · cases hev
      · rename_i hn
        rw [if_neg (fun hd => hn (Or.inr hd))]
    refine Or.inr ⟨ev, hev, hd, ?_⟩
    by_cases h : s.cfg.evqCap ≤ s.evq.length
    · right; simp [push_spec, h]
    · left; simp [push_spec, h, Nat.lt_of_not_le h]
  · rename_i hev
    exact Or.inl ⟨hev, by simp, by simp⟩

/-- The argument of a train's event, and of its diagnostic, is its channel's reader id. -/
theorem trainEvent_readerId {cfg : Config} {c : Nat} {ch : Channel} {ev : ReaderEvent}
    (h : trainEvent cfg c ch = some ev) : ev.readerId = cfg.readerId.getD c 0 := by
  unfold trainEvent at h
  split at h
  · cases h
  · cases h; rfl

theorem trainDiag_arg {cfg : Config} {c : Nat} {ch : Channel} {d : Diag} (h : trainDiag cfg c ch = some d) :
    d.arg = cfg.readerId.getD c 0 := by
  unfold trainDiag at h
  split at h
  · cases h; rfl
  · cases h

/-- Trains of different channels finalized one after another, whatever the room: as many events as fit are
appended in the order of the list, every later one is dropped with its diagnostic. -/
theorem finalizeAll_out (l : List Nat) (s : State) (hl : l.Nodup) :
    (finalizeAll l s).evq =
        s.evq ++ (l.filterMap fun c => trainEvent s.cfg c (s.chan c)).take (s.cfg.evqCap - s.evq.length) ∧
      ∃ ds, (finalizeAll l s).diags = s.diags ++ ds ∧
        ds.Perm ((l.filterMap fun c => trainDiag s.cfg c (s.chan c)) ++
          ((l.filterMap fun c => trainEvent s.cfg c (s.chan c)).drop (s.cfg.evqCap - s.evq.length)).map
            fun ev => (⟨.evqOverflow, ev.readerId⟩ : Diag)) ∧
        (ds.map Diag.arg).Sublist (l.map fun c => s.cfg.readerId.getD c 0) := by
  induction l generalizing s with
  | nil => exact ⟨by simp [finalizeAll], [], by simp [finalizeAll], by simp, by simp⟩
  | cons c l ih =>
    rw [List.nodup_cons] at hl
    have hf := finalize_frame c s
    have hch : ∀ x ∈ l, (finalize c s).chan x = s.chan x := by
      intro x hx
      rw [finalize_chan, if_neg]
      rintro ⟨rfl, -⟩
      exact hl.1 hx
    have e1 : l.filterMap (fun x => trainEvent (finalize c s).cfg x ((finalize c s).chan x)) =
        l.filterMap (fun x => trainEvent s.cfg x (s.chan x)) := by
      apply List.filterMap_congr
      intro x hx
      rw [hch x hx, hf.2.2.1]
    have e2 : l.filterMap (fun x => trainDiag (finalize c s).cfg x ((finalize c s).chan x)) =
        l.filterMap (fun x => trainDiag s.cfg x (s.chan x)) := by
      apply List.filterMap_congr
      intro x hx
      rw [hch x hx, hf.2.2.1]
    obtain ⟨he, ds, hd, hp, hsub⟩ := ih (finalize c s) hl.2
    rw [e1] at he hp
    rw [e2] at hp
    rw [hf.2.2.1] at he hp hsub
    have hstep : finalizeAll (c :: l) s = finalizeAll l (finalize c s) := rfl
    rw [hstep, he, hd, List.filterMap_cons, List.filterMap_cons, List.map_cons]
    rcases finalize_out c s with ⟨hev, hq, hdg⟩ | ⟨ev, hev, hdn, ⟨hroom, hq, hdg⟩ | ⟨hfull, hq, hdg⟩⟩
    · rw [hev, hq, hdg]
      rw [hq] at hp
      refine ⟨rfl, (trainDiag s.cfg c (s.chan c)).toList ++ ds, by simp, ?_, ?_⟩
      · cases trainDiag s.cfg c (s.chan c) with
        | none => simpa using hp
        | some d => simpa using hp
      · cases hdc : trainDiag s.cfg c (s.chan c) with
        | none => simpa using hsub.cons _
        | some d =>
          have := trainDiag_arg hdc
          simpa [this] using hsub
    · rw [hev, hdn, hq, hdg]
      rw [hq] at hp
      have e : s.cfg.evqCap - s.evq.length = (s.cfg.evqCap - (s.evq ++ [ev]).length) + 1 := by simp; omega
      rw [e]
      exact ⟨by simp, ds, rfl, by simpa using hp, hsub.cons _⟩
    · rw [hev, hdn, hq, hdg]
      rw [hq] at hp
      have e : s.cfg.evqCap - s.evq.length = 0 := by omega
      rw [e] at hp ⊢
      refine ⟨by simp, (⟨.evqOverflow, ev.readerId⟩ : Diag) :: ds, by simp, ?_, ?_⟩
      · simp only [List.drop_zero, List.map_cons] at hp ⊢
        exact (hp.cons _).trans List.perm_middle.symm
      · have := trainEvent_readerId hev
        simpa [this] using hsub

/-- With room for every one of them, the trains of different channels are delivered in the order of the
list. -/
theorem finalizeAll_room (l : List Nat) (s : State) (hl : l.Nodup)
    (hroom : s.evq.length + l.length ≤ s.cfg.evqCap) :
    (finalizeAll l s).evq = s.evq ++ l.filterMap (fun c => trainEvent s.cfg c (s.chan c)) ∧
      (finalizeAll l s).diags = s.diags ++ l.filterMap (fun c => trainDiag s.cfg c (s.chan c)) := by
  induction l generalizing s with
  | nil => simp [finalizeAll]
  | cons c l ih =>
    rw [List.nodup_cons] at hl
    rw [List.length_cons] at hroom
    have hf := finalize_frame c s
    obtain ⟨he, hd⟩ := finalize_room c s (by omega)
    have hlen : (finalize c s).evq.length ≤ s.evq.length + 1 := by
      rw [he, List.length_append]
      cases trainEvent s.cfg c (s.chan c) <;> simp
    have h := ih (finalize c s) hl.2 (by rw [hf.2.2.1]; omega)
    have hch : ∀ x ∈ l, (finalize c s).chan x = s.chan x := by
      intro x hx
      rw [finalize_chan, if_neg]
      rintro ⟨rfl, -⟩
      exact hl.1 hx
    have e1 : l.filterMap (fun x => trainEvent (finalize c s).cfg x ((finalize c s).chan x)) =
        l.filterMap (fun x => trainEvent s.cfg x (s.chan x)) := by
      apply List.filterMap_congr
      intro x hx
      rw [hch x hx, hf.2.2.1]
    have e2 : l.filterMap (fun x => trainDiag (finalize c s).cfg x ((finalize c s).chan x)) =
        l.filterMap (fun x => trainDiag s.cfg x (s.chan x)) := by
      apply List.filterMap_congr
      intro x hx
      rw [hch x hx, hf.2.2.1]
    simp only [finalizeAll, List.foldl_cons] at h ⊢
    rw [h.1, h.2, e1, e2, he, hd, List.filterMap_cons, List.filterMap_cons]
    constructor
    · cases trainEvent s.cfg c (s.chan c) <;> simp
    · cases trainDiag s.cfg c (s.chan c) <;> simp

theorem orderBy_perm (key : Nat → Nat) (d : List Nat) : (orderBy key d).Perm d := List.perm_insertionSort _ d

/-- Every order of the channels is the order of some keys: SWEEP_ORDER may be any permutation. -/
theorem orderBy_surjective {l d : List Nat} (h : l.Perm d) (hd : d.Nodup) : ∃ key, orderBy key d = l := by
  refine ⟨fun c => l.idxOf c, ?_⟩
  have hl : l.Nodup := h.nodup_iff.2 hd
  have hsorted : l.Pairwise (fun a b => l.idxOf a ≤ l.idxOf b) := by
    rw [List.pairwise_iff_getElem]
    intro i j hi hj hij
    rw [hl.idxOf_getElem, hl.idxOf_getElem]
    omega
  have hs : (orderBy (fun c => l.idxOf c) d).Pairwise (fun a b => l.idxOf a ≤ l.idxOf b) := by
    have : Std.Total (fun a b : Nat => l.idxOf a ≤ l.idxOf b) := ⟨fun a b => Nat.le_total _ _⟩
    have : IsTrans Nat (fun a b : Nat => l.idxOf a ≤ l.idxOf b) := ⟨fun a b c => Nat.le_trans⟩
    exact List.pairwise_insertionSort (fun a b : Nat => l.idxOf a ≤ l.idxOf b) d
  refine List.Perm.eq_of_pairwise ?_ hs hsorted ((orderBy_perm _ d).trans h.symm)
  intro a b ha hb hab hba
  have ha' : a ∈ l := (((orderBy_perm _ d).trans h.symm).mem_iff).1 ha
  exact List.idxOf_inj ha' |>.1 (Nat.le_antisymm hab hba)

/-- What a sweep can do: the due channels, in some order, are finalized; a draw is taken only where there are
two or more of them. -/
theorem sweep_spec (t : Stamp) (s : State) :
    ∃ l d, l.Perm (dueList s t) ∧ sweep t s = { finalizeAll l s with draws := d } ∧
      ((dueList s t).length < 2 → l = dueList s t ∧ d = s.draws) := by
  unfold sweep
  rw [dueChannels_eq_dueList]
  split
  · rename_i h
    refine ⟨dueList s t, s.draws, List.Perm.refl _, ?_, fun _ => ⟨rfl, rfl⟩⟩
    have hs : orderBy (fun _ => 0) (dueList s t) = dueList s t := by
      match hd : dueList s t with
      | [] => rfl
      | [c] => rfl
      | a :: b :: l => rw [hd] at h; simp at h
    have hb : sweepBy (fun _ => 0) t s = finalizeAll (dueList s t) s := by
      unfold sweepBy finalizeAll
      rw [dueChannels_eq_dueList, hs]
    rw [hb, ← (finalizeAll_frame (dueList s t) s).2.2.2.1]
  · rename_i h
    refine ⟨orderBy (Config.sweepKey s.draws) (dueList s t), s.draws + 1, orderBy_perm _ _, ?_,
      fun h' => absurd h' h⟩
    unfold sweepBy finalizeAll
    rw [dueChannels_eq_dueList]

theorem sweep_quiet {t : Stamp} {s : State} (h : dueList s t = []) : sweep t s = s := by
  obtain ⟨l, d, -, he, h2⟩ := sweep_spec t s
  obtain ⟨rfl, rfl⟩ := h2 (by simp [h])
  rw [he, h]
  rfl

theorem sweep_chan (t : Stamp) (s : State) (c : Nat) :
    (sweep t s).chan c =
      if c < s.cfg.numReaders ∧ TimerDue (s.chan c) t then finalizedChan (s.chan c) else s.chan c := by
  obtain ⟨l, d, hp, he, -⟩ := sweep_spec t s
  have h := finalizeAll_chan l s c (fun x hx => lt_length_of_due (mem_dueList.1 (hp.mem_iff.1 hx)).2)
  have hc : (sweep t s).chan c = (finalizeAll l s).chan c := by rw [he]; rfl
  rw [hc, h]
  have : c ∈ l ↔ c < s.cfg.numReaders ∧ TimerDue (s.chan c) t := by rw [hp.mem_iff, mem_dueList]
  simp only [this]

theorem sweep_frame (t : Stamp) (s : State) :
    (sweep t s).rxbuf = s.rxbuf ∧ (sweep t s).rxdiscard = s.rxdiscard ∧ (sweep t s).cfg = s.cfg ∧
      (sweep t s).result = s.result ∧ (sweep t s).input = s.input ∧
      (sweep t s).chans.length = s.chans.length ∧ ∃ evs, (sweep t s).evq = s.evq ++ evs := by
  obtain ⟨l, d, -, he, -⟩ := sweep_spec t s
  have h := finalizeAll_frame l s
  have h' := finalizeAll_evq_append l s
  rw [he]
  exact ⟨h.1, h.2.1, h.2.2.1, h.2.2.2.2.1, h.2.2.2.2.2.1, h.2.2.2.2.2.2, h'⟩

/-- After a sweep no timer is due at its timestamp. -/
theorem dueList_sweep (t : Stamp) (s : State) : dueList (sweep t s) t = [] := by
  apply dueList_eq_nil
  intro c hc
  rw [sweep_chan]
  rw [(sweep_frame t s).2.2.1] at hc
  split
  · simp [TimerDue, finalizedChan]
  · rename_i h
    exact fun hd => h ⟨hc, hd⟩

/-! ## An edge -/

theorem append_arm_eq_afterEdge (ch : Channel) (b : Nat) (t : Stamp) (h : ch.accepts t = true) :
    (ch.append b).arm t = afterEdge ch b t := by
  have h' : ¬elapsed ch.last t < 200 := by
    have : 200 ≤ elapsed ch.last t := of_decide_eq_true h
    omega
  unfold afterEdge
  rw [if_neg h']
  unfold Channel.append Channel.arm shiftIn Config.bitCap
  split <;> rfl

theorem afterEdge_bounce {ch : Channel} {b : Nat} {t : Stamp} (h : ch.accepts t = false) :
    afterEdge ch b t = ch := by
  have h' : elapsed ch.last t < 200 := Nat.not_le.1 (of_decide_eq_false h)
  simp [afterEdge, h']

/-- What an edge does after its sweep: to its channel what R111 to R113 say, and nothing else. -/
theorem takeEdge_spec (c b : Nat) (t : Stamp) (s : State) :
    takeEdge c b t s = s.modifyChan c fun ch => afterEdge ch b t := by
  unfold takeEdge
  split
  · rename_i h
    by_cases hc : c < s.chans.length
    · unfold State.modifyChan
      congr 1
      apply List.ext_getElem?
      intro k
      rw [List.getElem?_modify, List.getElem?_modify]
      by_cases hk : c = k
      · subst hk
        have : s.chan c = s.chans[c] := by simp [State.chan, hc]
        rw [this] at h
        simp [hc, append_arm_eq_afterEdge _ _ _ h]
      · simp [hk]
    · have h1 : ∀ f, s.modifyChan c f = s := by
        intro f
        unfold State.modifyChan
        rw [List.modify_eq_self (by omega)]
      rw [h1, h1]
  · rename_i h
    rw [modifyChan_eq_self _ _ _ (afterEdge_bounce (by simpa using h))]

theorem edgeOp_spec (c b : Nat) (t : Stamp) (s : State) :
    edgeOp c b t s = (sweep t s).modifyChan c fun ch => afterEdge ch b t := takeEdge_spec c b t _

/-- An edge where no timer is due. -/
theorem edgeOp_quiet (c b : Nat) {t : Stamp} {s : State} (h : dueList s t = []) :
    edgeOp c b t s = s.modifyChan c fun ch => afterEdge ch b t := by rw [edgeOp_spec, sweep_quiet h]

theorem not_due_afterEdge {ch : Channel} {b : Nat} {t : Stamp} (h : ¬TimerDue ch t) :
    ¬TimerDue (afterEdge ch b t) t := by
  unfold afterEdge
  split
  · exact h
  · simp [TimerDue]

theorem dueList_modifyChan {t : Stamp} {s : State} {c : Nat} {f : Channel → Channel} (h : dueList s t = [])
    (hf : ¬TimerDue (s.chan c) t → ¬TimerDue (f (s.chan c)) t) : dueList (s.modifyChan c f) t = [] := by
  have hq : ∀ x, x < s.cfg.numReaders → ¬TimerDue (s.chan x) t := by
    intro x hx hd
    have : x ∈ dueList s t := mem_dueList.2 ⟨hx, hd⟩
    simp [h] at this
  apply dueList_eq_nil
  intro x hx
  rw [chan_modifyChan]
  split
  · rename_i hc
    exact hf (hq c (by rw [hc.1]; exact hx))
  · exact hq x hx

/-- A second edge of a channel at the same timestamp is a bounce. -/
theorem afterEdge_twice (ch : Channel) (b b' : Nat) (t : Stamp) :
    afterEdge (afterEdge ch b t) b' t = afterEdge ch b t := by
  by_cases h : elapsed ch.last t < 200
  · simp [afterEdge, h]
  · simp [afterEdge, h]

/-! ## The line front end -/

theorem mem_fallingLines {ch : Channel} {l0 l1 : Bool} {b : Nat} :
    b ∈ fallingLines ch l0 l1 ↔
      (b = 0 ∧ ch.prev0 = true ∧ l0 = false) ∨ (b = 1 ∧ ch.prev1 = true ∧ l1 = false) := by
  unfold fallingLines
  cases ch.prev0 <;> cases ch.prev1 <;> cases l0 <;> cases l1 <;> simp

/-- Two falling lines are D0 and D1. -/
theorem fallingLines_two {ch : Channel} {l0 l1 : Bool} {a b : Nat} {rest : List Nat}
    (h : fallingLines ch l0 l1 = a :: b :: rest) : a = 0 ∧ b = 1 ∧ rest = [] := by
  obtain ⟨acc, cnt, last, armed, prev0, prev1, seen⟩ := ch
  unfold fallingLines at h
  cases prev0 <;> cases prev1 <;> cases l0 <;> cases l1 <;> simp_all

/-- A channel after a sample of it: the levels are loaded; of the lines that fall after the first sample the
first in the drawn order is an edge, and a second is a bounce. -/
def afterSample (d1First : Bool) (t : Stamp) (l0 l1 : Bool) (ch : Channel) : Channel :=
  let loaded : Channel := { ch with prev0 := l0, prev1 := l1, seen := true }
  if ch.seen then
    match fallingLines ch l0 l1 with
    | [] => loaded
    | [b] => afterEdge loaded b t
    | _ => afterEdge loaded (if d1First then 1 else 0) t
  else loaded

theorem modifyChan_modifyChan (s : State) (c : Nat) (f g : Channel → Channel) :
    (s.modifyChan c f).modifyChan c g = s.modifyChan c (g ∘ f) := by
  simp [State.modifyChan, List.modify_modify_eq]

theorem modifyChan_congr (s : State) (c : Nat) {f g : Channel → Channel} (h : f (s.chan c) = g (s.chan c)) :
    s.modifyChan c f = s.modifyChan c g := by
  unfold State.modifyChan
  congr 1
  apply List.ext_getElem?
  intro k
  rw [List.getElem?_modify, List.getElem?_modify]
  by_cases hk : c = k
  · subst hk
    by_cases hc : c < s.chans.length
    · simp [State.chan, hc] at h
      simp [hc, h]
    · simp [hc]
  · simp [hk]

/-- What the sample of one channel does where no timer is due: it changes that channel alone. -/
theorem sampleChanBy_spec (d1First : Bool) (t : Stamp) (c : Nat) (l0 l1 : Bool) (s : State)
    (h : dueList s t = []) :
    sampleChanBy d1First t c l0 l1 s = s.modifyChan c (afterSample d1First t l0 l1) := by
  have hload : dueList (s.modifyChan c fun ch => { ch with prev0 := l0, prev1 := l1, seen := true }) t = [] :=
    dueList_modifyChan h (fun hd => hd)
  have hedge : ∀ b, dueList ((s.modifyChan c fun ch => { ch with prev0 := l0, prev1 := l1, seen := true }).modifyChan c
      fun ch => afterEdge ch b t) t = [] := fun b => dueList_modifyChan hload not_due_afterEdge
  unfold sampleChanBy
  by_cases hs : (s.chan c).seen = true
  · simp only [hs, if_true]
    match hl : fallingLines (s.chan c) l0 l1 with
    | [] =>
      have : (if d1First = true then ([] : List Nat).reverse else []) = [] := by cases d1First <;> rfl
      rw [this]
      apply modifyChan_congr
      simp [afterSample, hs, hl]
    | [b] =>
      have : (if d1First = true then [b].reverse else [b]) = [b] := by cases d1First <;> rfl
      rw [this]
      simp only [List.foldl_cons, List.foldl_nil]
      rw [edgeOp_quiet _ _ hload, modifyChan_modifyChan]
      apply modifyChan_congr
      simp [afterSample, hs, hl]
    | a :: b :: rest =>
      have hab : a = 0 ∧ b = 1 ∧ rest = [] := by
        exact fallingLines_two hl
      obtain ⟨rfl, rfl, rfl⟩ := hab
      cases d1First
      · simp only [Bool.false_eq_true, if_false, List.foldl_cons, List.foldl_nil]
        rw [edgeOp_quiet _ _ hload, edgeOp_quiet _ _ (hedge 0), modifyChan_modifyChan, modifyChan_modifyChan]
        apply modifyChan_congr
        simp [afterSample, hs, hl, afterEdge_twice]
      · have : (if true = true then ([0, 1] : List Nat).reverse else [0, 1]) = [1, 0] := rfl
        rw [this]
        simp only [List.foldl_cons, List.foldl_nil]
        rw [edgeOp_quiet _ _ hload, edgeOp_quiet _ _ (hedge 1), modifyChan_modifyChan, modifyChan_modifyChan]
        apply modifyChan_congr
        simp [afterSample, hs, hl, afterEdge_twice]
  · have hs' : (s.chan c).seen = false := by simpa using hs
    simp only [hs', Bool.false_eq_true, if_false]
    apply modifyChan_congr
    simp [afterSample, hs']

/-- The sample of one channel, with its draw. -/
theorem sampleChan_spec (t : Stamp) (c : Nat) (l0 l1 : Bool) (s : State) (h : dueList s t = []) :
    ∃ d1First d, sampleChan t c l0 l1 s =
      { s.modifyChan c (afterSample d1First t l0 l1) with draws := d } := by
  unfold sampleChan
  split
  · refine ⟨Config.d1First s.draws c, s.draws + 1, ?_⟩
    rw [sampleChanBy_spec _ _ _ _ _ _ (by exact h)]
    rfl
  · exact ⟨false, s.draws, by rw [sampleChanBy_spec _ _ _ _ _ _ h]; rfl⟩

theorem not_due_afterSample {d : Bool} {t : Stamp} {l0 l1 : Bool} {ch : Channel} (h : ¬TimerDue ch t) :
    ¬TimerDue (afterSample d t l0 l1 ch) t := by
  have hl : ¬TimerDue { ch with prev0 := l0, prev1 := l1, seen := true } t := h
  unfold afterSample
  simp only
  split
  · split
    · exact hl
    · exact not_due_afterEdge hl
    · exact not_due_afterEdge hl
  · exact hl

/-- Both lines of a channel sampled before fall to the levels given. -/
abbrev fallsBoth (ch : Channel) (l0 l1 : Bool) : Prop :=
  ch.seen = true ∧ ch.prev0 = true ∧ ch.prev1 = true ∧ l0 = false ∧ l1 = false

theorem length_fallingLines (ch : Channel) (l0 l1 : Bool) :
    (fallingLines ch l0 l1).length = 2 ↔ ch.prev0 = true ∧ ch.prev1 = true ∧ l0 = false ∧ l1 = false := by
  unfold fallingLines
  cases ch.prev0 <;> cases ch.prev1 <;> cases l0 <;> cases l1 <;> simp

/-- The order given matters only where both lines fall. -/
theorem afterSample_order (d d' : Bool) (t : Stamp) {l0 l1 : Bool} {ch : Channel} (h : ¬fallsBoth ch l0 l1) :
    afterSample d t l0 l1 ch = afterSample d' t l0 l1 ch := by
  unfold afterSample
  simp only
  split
  · rename_i hs
    have h2 : (fallingLines ch l0 l1).length ≠ 2 := fun he =>
      h ⟨hs, (length_fallingLines ch l0 l1).1 he⟩
    split
    · rfl
    · rfl
    · rename_i h0 h1
      exfalso
      match hl : fallingLines ch l0 l1 with
      | [] => exact h0 hl
      | [b] => exact h1 b hl
      | a :: b :: rest =>
        rw [(fallingLines_two hl).2.2] at hl
        rw [hl] at h2
        exact h2 rfl
  · rfl

/-- The sample of one channel, with the draw it takes. -/
theorem sampleChan_draw (t : Stamp) (c : Nat) (l0 l1 : Bool) (s : State) (h : dueList s t = []) :
    sampleChan t c l0 l1 s =
      { s.modifyChan c (afterSample (Config.d1First s.draws c) t l0 l1) with
        draws := if fallsBoth (s.chan c) l0 l1 then s.draws + 1 else s.draws } := by
  have hiff : ((s.chan c).seen = true ∧ (fallingLines (s.chan c) l0 l1).length = 2) ↔ fallsBoth (s.chan c) l0 l1 := by
    rw [length_fallingLines]
  unfold sampleChan
  by_cases hb : fallsBoth (s.chan c) l0 l1
  · rw [if_pos (hiff.2 hb), if_pos hb, sampleChanBy_spec _ _ _ _ _ _ (by exact h)]
    rfl
  · rw [if_neg (fun he => hb (hiff.1 he)), if_neg hb, sampleChanBy_spec _ _ _ _ _ _ h,
      modifyChan_congr s c (afterSample_order _ (Config.d1First s.draws c) t hb)]
    rfl

/-- The channels of a sample one after another, once no timer is due: channel c is left as by its own sample, with
the draw it comes to; the channels from n on are not touched. -/
theorem sampleChans_spec (t : Stamp) (lv : Nat → Bool × Bool) (s : State) (h : dueList s t = []) (n : Nat) :
    let s' := (List.range n).foldl (fun s c => sampleChan t c (lv c).1 (lv c).2 s) s
    let drawn (c : Nat) := ((List.range c).filter fun c' => decide (fallsBoth (s.chan c') (lv c').1 (lv c').2)).length
    dueList s' t = [] ∧ s' = { s with chans := s'.chans, draws := s.draws + drawn n } ∧
      s'.chans.length = s.chans.length ∧ (∀ c, n ≤ c → s'.chan c = s.chan c) ∧
      ∀ c, c < n → c < s.chans.length →
        s'.chan c = afterSample (Config.d1First (s.draws + drawn c) c) t (lv c).1 (lv c).2 (s.chan c) := by
  intro s' drawn
  induction n with
  | zero => exact ⟨h, rfl, rfl, fun _ _ => rfl, fun c hc => absurd hc (Nat.not_lt_zero c)⟩
  | succ n ih =>
    obtain ⟨hdue, heq, hlen, hge, hlt⟩ := ih
    generalize hu : (List.range n).foldl (fun s c => sampleChan t c (lv c).1 (lv c).2 s) s = u at hdue heq hlen hge hlt
    have hs' : s' = sampleChan t n (lv n).1 (lv n).2 u := by
      show (List.range (n + 1)).foldl _ s = _
      rw [List.range_succ, List.foldl_append, hu]
      rfl
    have hd : u.draws = s.draws + drawn n := by rw [heq]
    have hdrawn : drawn (n + 1) = if fallsBoth (s.chan n) (lv n).1 (lv n).2 then drawn n + 1 else drawn n := by
      show ((List.range (n + 1)).filter _).length = _
      rw [List.range_succ, List.filter_append, List.length_append, List.filter_cons, List.filter_nil]
      by_cases hb : fallsBoth (s.chan n) (lv n).1 (lv n).2
      · rw [if_pos (decide_eq_true hb), if_pos hb]; rfl
      · rw [if_neg (fun he => hb (of_decide_eq_true he)), if_neg hb]; rfl
    rw [sampleChan_draw t n _ _ u hdue, hge n (Nat.le_refl n)] at hs'
    have hchan : ∀ c, s'.chan c = (u.modifyChan n (afterSample (Config.d1First u.draws n) t (lv n).1 (lv n).2)).chan c := by
      intro c
      rw [hs']
      rfl
    have hdue' : dueList s' t = [] := by
      have : dueList (u.modifyChan n (afterSample (Config.d1First u.draws n) t (lv n).1 (lv n).2)) t = [] :=
        dueList_modifyChan hdue not_due_afterSample
      rw [hs']
      exact this
    refine ⟨hdue', ?_, ?_, ?_, ?_⟩
    · rw [hs', hdrawn, hd]
      simp only [State.modifyChan, show u.evq = s.evq from (congrArg State.evq heq).trans rfl,
        show u.rxbuf = s.rxbuf from (congrArg State.rxbuf heq).trans rfl,
        show u.rxdiscard = s.rxdiscard from (congrArg State.rxdiscard heq).trans rfl,
        show u.cfg = s.cfg from (congrArg State.cfg heq).trans rfl, show u.diags = s.diags from (congrArg State.diags heq).trans rfl,
        show u.result = s.result from (congrArg State.result heq).trans rfl,
        show u.input = s.input from (congrArg State.input heq).trans rfl]
      by_cases hb : fallsBoth (s.chan n) (lv n).1 (lv n).2
      · rw [if_pos hb, if_pos hb]; rfl
      · rw [if_neg hb, if_neg hb]
    · rw [hs']
      simpa using hlen
    · intro c hc
      rw [hchan c, chan_modifyChan_ne _ _ (by omega)]
      exact hge c (by omega)
    · intro c hc hcl
      rw [hchan c]
      by_cases hcn : c = n
      · subst hcn
        rw [chan_modifyChan_self _ _ (by rw [hlen]; exact hcl), hge c (Nat.le_refl c), hd]
      · rw [chan_modifyChan_ne _ _ (fun he => hcn he.symm)]
        exact hlt c (by omega) hcl

/-! ## The text receiver -/

/-- What RXBYTE can do: one of the four cases of R230. -/
theorem receive_cases (x : Byte) (s : State) :
    (s.rxdiscard = true ∧ x = newline ∧
        receive x s = { s with rxdiscard := false, result := .received none }) ∨
      (s.rxdiscard = true ∧ x ≠ newline ∧ receive x s = s.answer (.received none)) ∨
      (s.rxdiscard = false ∧ x = newline ∧
        receive x s =
          { s with rxbuf := [], result := .received (some (txtDecode s.cfg (s.rxbuf ++ [newline]))) }) ∨
      (s.rxdiscard = false ∧ x ≠ newline ∧ s.rxbuf.length = s.cfg.txtMaxLine - 1 ∧
        receive x s =
          { s with rxbuf := [], rxdiscard := true, result := .received (some (.reject .txtOverlong)) }) ∨
      (s.rxdiscard = false ∧ x ≠ newline ∧ s.rxbuf.length ≠ s.cfg.txtMaxLine - 1 ∧
        receive x s = { s with rxbuf := s.rxbuf ++ [x], result := .received none }) := by
  unfold receive
  by_cases hd : s.rxdiscard = true
  · by_cases hx : x = newline
    · left; simp [hd, hx, State.answer]
    · right; left; simp [hd, hx]
  · have hd' : s.rxdiscard = false := by simpa using hd
    by_cases hx : x = newline
    · right; right; left; simp [hd', hx, State.answer]
    · by_cases hl : s.rxbuf.length = s.cfg.txtMaxLine - 1
      · right; right; right; left; simp [hd', hx, hl, State.answer]
      · right; right; right; right; simp [hd', hx, hl, State.answer]

end Sys2Proof.Machine
end

