-- ==== Sys2Proof/Laws/Inv.lean ====
section
/-! SUPPORT. What the shared operations keep of the invariants of 10_state.md, and what a framed binary row answers. -/

namespace Sys2Proof.Machine

/-- A channel at its reset values is well-formed (R35). -/
theorem ok_reset : Channel.reset.Ok := by decide

/-- A finalized channel is well-formed (R116). -/
theorem ok_finalizedChan (ch : Channel) : (finalizedChan ch).Ok := by
  refine ⟨?_, ?_, ?_⟩ <;> simp [finalizedChan]

/-- The line front end's registers are in no channel invariant (R22). -/
theorem ok_loadLines {ch : Channel} (h : ch.Ok) (p0 p1 sn : Bool) :
    ({ ch with prev0 := p0, prev1 := p1, seen := sn } : Channel).Ok := h

/-- A bit shifted into a train keeps its code within its length (R24, R112). -/
theorem shiftIn_lt {acc : Code} {n b : Nat} (h : acc.toNat < 2 ^ n) (hn : n < 64) (hb : b ≤ 1) :
    (shiftIn acc b).toNat < 2 ^ (n + 1) ∧ (shiftIn acc b).toNat = 2 * acc.toNat + b := by
  have h1 : 2 ^ n ≤ 2 ^ 63 := Nat.pow_le_pow_right (by omega) (by omega)
  have e : (shiftIn acc b).toNat = 2 * acc.toNat + b := by
    unfold shiftIn
    rw [BitVec.toNat_or, BitVec.toNat_shiftLeft, BitVec.toNat_ofNat, Nat.mod_eq_of_lt (a := b) (by omega),
      Nat.shiftLeft_eq, Nat.mod_eq_of_lt (by omega), Nat.mul_comm]
    have := Nat.two_pow_add_eq_or_of_lt (i := 1) (b := b) (by omega) acc.toNat
    simpa using this.symm
  refine ⟨?_, e⟩
  rw [e, Nat.pow_succ]
  omega

/-- An accepted or lost edge keeps a channel well-formed (R111 to R113). -/
theorem ok_afterEdge {ch : Channel} (h : ch.Ok) {b : Nat} (hb : b ≤ 1) (t : Stamp) : (afterEdge ch b t).Ok := by
  obtain ⟨h1, h2, h3⟩ := h
  unfold afterEdge
  split
  · exact ⟨h1, h2, h3⟩
  · by_cases hc : ch.cnt.toNat < 64
    · have e : (ch.cnt + 1).toNat = ch.cnt.toNat + 1 := by
        rw [BitVec.toNat_add]
        simp
        omega
      refine ⟨?_, ?_, ?_⟩
      · simp only [if_pos hc, e, Config.bitCap]
        omega
      · simp only [if_pos hc, e]
        exact (shiftIn_lt h2 hc hb).1
      · simp only [if_pos hc, e]
        omega
    · refine ⟨?_, ?_, ?_⟩
      · simpa only [if_neg hc] using h1
      · simpa only [if_neg hc] using h2
      · simp only [if_neg hc]
        omega

/-- The event of a well-formed channel's train is one R71 allows. -/
theorem eventOk_of_ok {cfg : Config} {c : Nat} {ch : Channel} (hc : c < cfg.numReaders) (h : ch.Ok)
    (h0 : ch.cnt ≠ 0) : EventOk cfg ⟨readerIdOf cfg c, ch.acc, ch.cnt⟩ := by
  refine ⟨?_, ?_, h.1, h.2.1⟩
  · have : c < cfg.readerId.length := hc
    simp [readerIdOf, List.getD_eq_getElem?_getD, this]
  · rcases Nat.eq_zero_or_pos ch.cnt.toNat with hz | hp
    · exact absurd (BitVec.eq_of_toNat_eq hz) h0
    · exact hp

/-- FINALIZE only appends events of well-formed channels, and never past the capacity. -/
theorem finalize_events {c : Nat} {s : State} (hc : c < s.cfg.numReaders) (hch : (s.chan c).Ok)
    (hcap : s.evq.length ≤ s.cfg.evqCap) (hall : ∀ ev ∈ s.evq, EventOk s.cfg ev) :
    (finalize c s).evq.length ≤ s.cfg.evqCap ∧ ∀ ev ∈ (finalize c s).evq, EventOk s.cfg ev := by
  simp only [finalize, modifyChan_evq, deliver]
  split
  · exact ⟨hcap, hall⟩
  · rename_i h0
    split
    · exact ⟨hcap, hall⟩
    · unfold push
      split
      · exact ⟨hcap, hall⟩
      · rename_i hfull
        refine ⟨by simp; omega, ?_⟩
        intro ev hev
        rcases List.mem_append.1 hev with h | h
        · exact hall ev h
        · rw [List.mem_singleton.1 h]
          exact eventOk_of_ok hc hch h0

/-- The receiver's registers keep their form over every byte (R29, R230). -/
theorem receiverOk_receive (x : Byte) {s : State} (h : ReceiverOk s) : ReceiverOk (receive x s) := by
  obtain ⟨h1, h2, h3⟩ := h
  unfold receive
  split
  · split
    · exact ⟨h1, h2, by simp [State.answer]⟩
    · exact ⟨h1, h2, h3⟩
  · rename_i hd
    split
    · exact ⟨by simp [State.answer], by simp [State.answer], by simp [State.answer]⟩
    · rename_i hx
      split
      · exact ⟨by simp [State.answer], by simp [State.answer], by simp [State.answer]⟩
      · rename_i hlen
        refine ⟨?_, ?_, ?_⟩
        · simp [State.answer]
          omega
        · simp only [State.answer, List.mem_append, List.mem_singleton, not_or]
          exact ⟨h2, fun he => hx he.symm⟩
        · intro ht
          exact absurd ht hd

/-- A binary row with the right length and checksum bytes answers what its parser answers (R151, R152). -/
theorem binRow_framed (parse : Bytes → BinResult) {tag len cs : Byte} {fields : Bytes}
    (h : Framed tag len fields cs) : binRow parse tag len fields cs = parse fields := by
  unfold binRow
  rw [binFramingFault_binFrame]
  obtain ⟨h1, h2⟩ := h
  rw [if_neg (by omega), if_neg (by omega), if_neg (by simp [h2])]

end Sys2Proof.Machine
end

