-- ==== Sys2Proof/Laws/Json.lean ====
section
/-! SUPPORT. Laws of the JSON scanner: each production of R203 reads exactly what the encoder writes for it,
and leaves what follows. -/

namespace Sys2Proof

/-- A string's content up to its closing quote is read back. -/
theorem scanStr_append {s : Bytes} (h : isStr s = true) (rest : Bytes) :
    scanStr (s ++ quote :: rest) = some (s, rest) := by
  induction s with
  | nil => simp [scanStr]
  | cons x xs ih =>
    have hx : isSchar x = true ∧ isStr xs = true := by simpa [isStr] using h
    have hq : x ≠ quote := by
      rintro rfl
      exact absurd hx.1 (by decide)
    simp [scanStr, hq, hx.1, ih hx.2]

/-- What a string scan answers is of the alphabet and stood before a quote. -/
theorem scanStr_eq_some {xs s rest : Bytes} (h : scanStr xs = some (s, rest)) :
    isStr s = true ∧ xs = s ++ quote :: rest := by
  induction xs generalizing s rest with
  | nil => cases h
  | cons x xs ih =>
    simp only [scanStr] at h
    split at h
    · rename_i hx
      cases h
      exact ⟨rfl, by rw [hx]; rfl⟩
    · split at h
      · rename_i hs
        split at h
        · rename_i s' rest' he
          cases h
          obtain ⟨h1, h2⟩ := ih he
          refine ⟨?_, by rw [h2]; rfl⟩
          rw [isStr, List.all_cons, hs, Bool.true_and]
          exact h1
        · cases h
      · cases h

/-- A run of digits is split off where no digit follows. -/
theorem spanDigits_append {ds rest : Bytes} (h : ∀ d ∈ ds, isDigit d = true)
    (hr : ∀ x, rest.head? = some x → isDigit x = false) : spanDigits (ds ++ rest) = (ds, rest) := by
  induction ds with
  | nil =>
    cases rest with
    | nil => rfl
    | cons x xs => simp [spanDigits, hr x rfl]
  | cons d ds ih =>
    simp [spanDigits, h d (by simp), ih (fun d hd => h d (by simp [hd]))]

/-- What a digit run and its rest are. -/
theorem spanDigits_spec (xs : Bytes) :
    (∀ d ∈ (spanDigits xs).1, isDigit d = true) ∧ (spanDigits xs).1 ++ (spanDigits xs).2 = xs := by
  induction xs with
  | nil => simp [spanDigits]
  | cons x xs ih =>
    unfold spanDigits
    split
    · rename_i hx
      refine ⟨?_, by simp [ih.2]⟩
      intro d hd
      rcases List.mem_cons.1 hd with rfl | hd
      · exact hx
      · exact ih.1 d hd
    · simp

theorem dec_ne_nil {n : Nat} (h : n < 2 ^ 64) : dec n ≠ [] := by
  intro he
  have := (dec_spec h).2.2.1
  rw [he] at this
  simp at this

theorem quote_not_digit : isDigit quote = false := by decide

/-- A value the encoder writes is read back where no digit follows. -/
theorem scanValue_append {v : JVal} (h : v.ok = true) {rest : Bytes}
    (hr : ∀ x, rest.head? = some x → isDigit x = false) : scanValue (valueBytes v ++ rest) = some (v, rest) := by
  cases v with
  | str s =>
    have hs : isStr s = true := h
    show scanValue (quote :: (s ++ [quote]) ++ rest) = _
    simp only [List.cons_append, List.append_assoc, scanValue, if_true, List.nil_append]
    rw [scanStr_append hs]
  | num n =>
    have hn : n < 2 ^ 64 := of_decide_eq_true h
    have hall := (dec_spec hn).2.1
    obtain ⟨d, ds, hd⟩ := List.exists_cons_of_ne_nil (dec_ne_nil hn)
    have hsp := spanDigits_append hall hr
    have hq : d ≠ quote := by
      rintro rfl
      have := hall quote (by rw [hd]; simp)
      rw [quote_not_digit] at this
      cases this
    have hu : uintValue (dec n) = some n := (uintValue_eq_some hall).2 ⟨hn, rfl⟩
    show scanValue (dec n ++ rest) = _
    rw [hd] at hsp hu ⊢
    simp only [List.cons_append, scanValue, if_neg hq] at hsp ⊢
    rw [hsp, hu]

/-- What a value scan answers is a value of the grammar, spelled as the encoder spells it. -/
theorem scanValue_eq_some {xs rest : Bytes} {v : JVal} (h : scanValue xs = some (v, rest)) :
    v.ok = true ∧ xs = valueBytes v ++ rest := by
  cases xs with
  | nil => cases h
  | cons x xs =>
    simp only [scanValue] at h
    split at h
    · rename_i hx
      split at h
      · rename_i s r he
        cases h
        obtain ⟨h1, h2⟩ := scanStr_eq_some he
        exact ⟨h1, by rw [hx, h2]; simp [valueBytes]⟩
      · cases h
    · split at h
      · rename_i n he
        cases h
        obtain ⟨hall, happ⟩ := spanDigits_spec (x :: xs)
        obtain ⟨hn, hd⟩ := (uintValue_eq_some hall).1 he
        refine ⟨decide_eq_true hn, ?_⟩
        rw [show valueBytes (.num n) = dec n from rfl, ← hd, happ]
      · cases h

/-- A member the encoder writes is read back where no digit follows. -/
theorem scanMember_append {m : Bytes × JVal} (hk : isStr m.1 = true) (hv : m.2.ok = true) {rest : Bytes}
    (hr : ∀ x, rest.head? = some x → isDigit x = false) :
    scanMember (memberBytes m ++ rest) = some (m, rest) := by
  obtain ⟨k, v⟩ := m
  simp only [memberBytes, List.cons_append, List.append_assoc, scanMember, if_true]
  rw [scanStr_append hk]
  simp only [if_true]
  rw [scanValue_append hv hr]

/-- What a member scan answers is a member of the grammar, spelled as the encoder spells it. -/
theorem scanMember_eq_some {xs rest : Bytes} {m : Bytes × JVal} (h : scanMember xs = some (m, rest)) :
    isStr m.1 = true ∧ m.2.ok = true ∧ xs = memberBytes m ++ rest := by
  cases xs with
  | nil => cases h
  | cons x xs =>
    simp only [scanMember] at h
    split at h
    · rename_i hx
      split at h
      · rename_i key y r he
        split at h
        · rename_i hy
          split at h
          · rename_i v r' hv
            cases h
            obtain ⟨h1, h2⟩ := scanStr_eq_some he
            obtain ⟨h3, h4⟩ := scanValue_eq_some hv
            exact ⟨h1, h3, by rw [hx, h2, hy, h4]; simp [memberBytes]⟩
          · cases h
        · cases h
      · cases h
    · cases h

theorem comma_not_digit : isDigit comma = false := by decide
theorem closeBrace_not_digit : isDigit closeBrace = false := by decide

/-- The members the encoder writes are read back, up to the closing brace. -/
theorem scanMembers_append {o : JObj} (hne : o ≠ []) (h : ∀ m ∈ o, isStr m.1 = true ∧ m.2.ok = true) (fuel : Nat)
    (hf : o.length ≤ fuel) (rest : Bytes) :
    scanMembers fuel (membersBytes o ++ closeBrace :: rest) = some (o, rest) := by
  induction o generalizing fuel with
  | nil => exact absurd rfl hne
  | cons m ms ih =>
    cases fuel with
    | zero => simp at hf
    | succ fuel =>
      obtain ⟨hk, hv⟩ := h m (by simp)
      cases ms with
      | nil =>
        simp only [membersBytes, scanMembers]
        rw [scanMember_append hk hv (by
          intro x hx
          cases hx
          exact closeBrace_not_digit)]
        simp only
        rw [if_neg (by decide), if_pos trivial]
      | cons m' ms =>
        simp only [membersBytes, List.append_assoc, List.cons_append, scanMembers]
        rw [scanMember_append hk hv (by
          intro x hx
          cases hx
          exact comma_not_digit)]
        simp only [if_true]
        rw [ih (by simp) (fun x hx => h x (by simp [hx])) fuel (by simpa using hf)]

/-- What a scan of members answers are members of the grammar, spelled as the encoder spells them. -/
theorem scanMembers_eq_some {fuel : Nat} {xs rest : Bytes} {o : JObj} (h : scanMembers fuel xs = some (o, rest)) :
    o ≠ [] ∧ (∀ m ∈ o, isStr m.1 = true ∧ m.2.ok = true) ∧ xs = membersBytes o ++ closeBrace :: rest := by
  induction fuel generalizing xs rest o with
  | zero => cases h
  | succ fuel ih =>
    simp only [scanMembers] at h
    split at h
    · rename_i m y r he
      obtain ⟨hk, hv, hs⟩ := scanMember_eq_some he
      split at h
      · rename_i hy
        split at h
        · rename_i ms r' hms
          cases h
          obtain ⟨hne, hall, hr⟩ := ih hms
          refine ⟨by simp, ?_, ?_⟩
          · intro x hx
            rcases List.mem_cons.1 hx with rfl | hx
            · exact ⟨hk, hv⟩
            · exact hall x hx
          · cases ms with
            | nil => exact absurd rfl hne
            | cons m' ms => rw [hs, hy, hr]; simp [membersBytes]
        · cases h
      · split at h
        · rename_i hy
          cases h
          exact ⟨by simp, by simp [hk, hv], by rw [hs, hy]; simp [membersBytes]⟩
        · cases h
    · cases h

/-- A member takes at least the bytes of its two quotes and its colon. -/
theorem length_le_membersBytes (o : JObj) : o.length ≤ (membersBytes o).length := by
  induction o with
  | nil => simp
  | cons m ms ih =>
    cases ms with
    | nil => simp [membersBytes, memberBytes]
    | cons m' ms =>
      simp only [membersBytes, List.length_append, List.length_cons] at ih ⊢
      omega

/-- `objectOk` in words: keys and values of the grammar, and no key twice (R203). -/
theorem objectOk_iff (o : JObj) :
    objectOk o = true ↔ (∀ m ∈ o, isStr m.1 = true ∧ m.2.ok = true) ∧ (o.map Prod.fst).Nodup := by
  simp only [objectOk, Bool.and_eq_true, List.all_eq_true, decide_eq_true_iff]

/-- The grammar reads back the text of an object. -/
theorem parseObject_objectBytes {o : JObj} (h : ∀ m ∈ o, isStr m.1 = true ∧ m.2.ok = true) :
    parseObject (objectBytes o) = some o := by
  by_cases hne : o = []
  · subst hne
    decide
  · have hnb : membersBytes o ++ [closeBrace] ≠ [closeBrace] := by
      intro he
      have h1 := congrArg List.length he
      have h2 := length_le_membersBytes o
      have h3 : 0 < o.length := List.length_pos_iff.2 hne
      simp only [List.length_append, List.length_cons, List.length_nil] at h1
      omega
    have hf : o.length ≤ (membersBytes o ++ [closeBrace]).length := by
      have := length_le_membersBytes o
      simp only [List.length_append, List.length_cons, List.length_nil]
      omega
    simp only [objectBytes, parseObject, if_true]
    rw [if_neg hnb, scanMembers_append hne h _ hf []]

/-- The order of an object's members does not matter to its well-formedness. -/
theorem objectOk_perm {o o' : JObj} (h : o.Perm o') : objectOk o = objectOk o' := by
  rw [Bool.eq_iff_iff, objectOk_iff, objectOk_iff, (h.map Prod.fst).nodup_iff]
  constructor
  · rintro ⟨h1, h2⟩
    exact ⟨fun m hm => h1 m (h.mem_iff.2 hm), h2⟩
  · rintro ⟨h1, h2⟩
    exact ⟨fun m hm => h1 m (h.mem_iff.1 hm), h2⟩

/-- A key's value does not depend on the order of the members, where no key stands twice. -/
theorem lookup_perm {o o' : JObj} (h : o.Perm o') (hn : (o.map Prod.fst).Nodup) (k : Bytes) :
    o.lookup k = o'.lookup k := by
  induction h with
  | nil => rfl
  | cons x h ih =>
    simp only [List.lookup]
    rw [ih (by simpa using (List.nodup_cons.1 hn).2)]
  | swap x y l =>
    simp only [List.map_cons, List.nodup_cons, List.mem_cons, not_or] at hn
    have hxy : y.1 ≠ x.1 := hn.1.1
    by_cases hx : k = x.1
    · have hy : k ≠ y.1 := fun he => hxy (he.symm.trans hx)
      simp [List.lookup, hx, beq_eq_false_iff_ne.2 hxy.symm]
    · simp [List.lookup, beq_eq_false_iff_ne.2 hx]
  | trans h1 _ ih1 ih2 => exact (ih1 hn).trans (ih2 ((h1.map Prod.fst).nodup_iff.1 hn))

end Sys2Proof
end

