-- ==== Sys2Proof/Laws/PerInstr.lean ====
section
/-! SUPPORT. Statements made per operation. -/

/-- The port an input arrives on (R73, R90): a record's is its operation's, a frame's the binary bus, a line's the
text port. -/
def Sys2Proof.Laws.PortOfEncoding.onPort (p : Option Sys2Proof.PortOp) (bus : Bool) : Sys2Proof.Input → Prop
  | .record op _ => p = some op
  | .bus _ => p = none ∧ bus = true
  | .line _ => p = none ∧ bus = false

/-- Every operation is spelled on its own port (R73, R90): a BIN row as a transaction of the bus, a TXT row as a text
line, a port operation as a record of its own operation. -/
def Sys2Proof.Laws.PortOfEncoding.Statement (i : Sys2Proof.Instr) : Prop :=
  match i with
  | .binIdentify _ _ _ => onPort none true (Sys2Proof.encode i)
  | .binSetAddress _ _ _ => onPort none true (Sys2Proof.encode i)
  | .binFeedbackGrant _ _ _ => onPort none true (Sys2Proof.encode i)
  | .binFeedbackDeny _ _ _ => onPort none true (Sys2Proof.encode i)
  | .binIdentifyResponse _ _ _ => onPort none true (Sys2Proof.encode i)
  | .binAddressAck _ _ _ => onPort none true (Sys2Proof.encode i)
  | .binCardRead _ _ _ => onPort none true (Sys2Proof.encode i)
  | .binHeartbeat _ _ _ => onPort none true (Sys2Proof.encode i)
  | .binRex _ _ _ => onPort none true (Sys2Proof.encode i)
  | .binDoorContact _ _ _ => onPort none true (Sys2Proof.encode i)
  | .binFiller => onPort none true (Sys2Proof.encode i)
  | .binUnknown _ _ _ _ => onPort none true (Sys2Proof.encode i)
  | .txtCardRead _ => onPort none false (Sys2Proof.encode i)
  | .txtHeartbeat _ => onPort none false (Sys2Proof.encode i)
  | .txtRexEvent _ => onPort none false (Sys2Proof.encode i)
  | .txtDoorContact _ => onPort none false (Sys2Proof.encode i)
  | .txtFeedbackGrant _ => onPort none false (Sys2Proof.encode i)
  | .txtFeedbackDeny _ => onPort none false (Sys2Proof.encode i)
  | .txtIdentify _ => onPort none false (Sys2Proof.encode i)
  | .txtSetAddress _ => onPort none false (Sys2Proof.encode i)
  | .txtIdentifyResponse _ => onPort none false (Sys2Proof.encode i)
  | .txtAddressAck _ => onPort none false (Sys2Proof.encode i)
  | .txtUnknown _ => onPort none false (Sys2Proof.encode i)
  | .edge _ _ _ => onPort (some .edge) false (Sys2Proof.encode i)
  | .tick _ => onPort (some .tick) false (Sys2Proof.encode i)
  | .sample _ _ _ => onPort (some .sample) false (Sys2Proof.encode i)
  | .pop => onPort (some .pop) false (Sys2Proof.encode i)
  | .lookup _ => onPort (some .lookup) false (Sys2Proof.encode i)
  | .binEncode _ => onPort (some .binEncode) false (Sys2Proof.encode i)
  | .binDecode _ => onPort (some .binDecode) false (Sys2Proof.encode i)
  | .ev2bin _ => onPort (some .ev2bin) false (Sys2Proof.encode i)
  | .txtEncode _ => onPort (some .txtEncode) false (Sys2Proof.encode i)
  | .txtDecode _ => onPort (some .txtDecode) false (Sys2Proof.encode i)
  | .ev2txt _ _ => onPort (some .ev2txt) false (Sys2Proof.encode i)
  | .rxbyte _ => onPort (some .rxbyte) false (Sys2Proof.encode i)
  | .reset => onPort (some .reset) false (Sys2Proof.encode i)

namespace Sys2Proof.Laws

theorem PortOfEncoding.binIdentify (len : Byte) (fields : Bytes) (cs : Byte) : PortOfEncoding.Statement (.binIdentify len fields cs) := ⟨rfl, rfl⟩
theorem PortOfEncoding.binSetAddress (len : Byte) (fields : Bytes) (cs : Byte) : PortOfEncoding.Statement (.binSetAddress len fields cs) := ⟨rfl, rfl⟩
theorem PortOfEncoding.binFeedbackGrant (len : Byte) (fields : Bytes) (cs : Byte) : PortOfEncoding.Statement (.binFeedbackGrant len fields cs) := ⟨rfl, rfl⟩
theorem PortOfEncoding.binFeedbackDeny (len : Byte) (fields : Bytes) (cs : Byte) : PortOfEncoding.Statement (.binFeedbackDeny len fields cs) := ⟨rfl, rfl⟩
theorem PortOfEncoding.binIdentifyResponse (len : Byte) (fields : Bytes) (cs : Byte) : PortOfEncoding.Statement (.binIdentifyResponse len fields cs) := ⟨rfl, rfl⟩
theorem PortOfEncoding.binAddressAck (len : Byte) (fields : Bytes) (cs : Byte) : PortOfEncoding.Statement (.binAddressAck len fields cs) := ⟨rfl, rfl⟩
theorem PortOfEncoding.binCardRead (len : Byte) (fields : Bytes) (cs : Byte) : PortOfEncoding.Statement (.binCardRead len fields cs) := ⟨rfl, rfl⟩
theorem PortOfEncoding.binHeartbeat (len : Byte) (fields : Bytes) (cs : Byte) : PortOfEncoding.Statement (.binHeartbeat len fields cs) := ⟨rfl, rfl⟩
theorem PortOfEncoding.binRex (len : Byte) (fields : Bytes) (cs : Byte) : PortOfEncoding.Statement (.binRex len fields cs) := ⟨rfl, rfl⟩
theorem PortOfEncoding.binDoorContact (len : Byte) (fields : Bytes) (cs : Byte) : PortOfEncoding.Statement (.binDoorContact len fields cs) := ⟨rfl, rfl⟩
theorem PortOfEncoding.binFiller : PortOfEncoding.Statement (.binFiller) := ⟨rfl, rfl⟩
theorem PortOfEncoding.binUnknown (tag : Byte) (len : Byte) (fields : Bytes) (cs : Byte) : PortOfEncoding.Statement (.binUnknown tag len fields cs) := ⟨rfl, rfl⟩
theorem PortOfEncoding.txtCardRead (o : JObj) : PortOfEncoding.Statement (.txtCardRead o) := ⟨rfl, rfl⟩
theorem PortOfEncoding.txtHeartbeat (o : JObj) : PortOfEncoding.Statement (.txtHeartbeat o) := ⟨rfl, rfl⟩
theorem PortOfEncoding.txtRexEvent (o : JObj) : PortOfEncoding.Statement (.txtRexEvent o) := ⟨rfl, rfl⟩
theorem PortOfEncoding.txtDoorContact (o : JObj) : PortOfEncoding.Statement (.txtDoorContact o) := ⟨rfl, rfl⟩
theorem PortOfEncoding.txtFeedbackGrant (o : JObj) : PortOfEncoding.Statement (.txtFeedbackGrant o) := ⟨rfl, rfl⟩
theorem PortOfEncoding.txtFeedbackDeny (o : JObj) : PortOfEncoding.Statement (.txtFeedbackDeny o) := ⟨rfl, rfl⟩
theorem PortOfEncoding.txtIdentify (o : JObj) : PortOfEncoding.Statement (.txtIdentify o) := ⟨rfl, rfl⟩
theorem PortOfEncoding.txtSetAddress (o : JObj) : PortOfEncoding.Statement (.txtSetAddress o) := ⟨rfl, rfl⟩
theorem PortOfEncoding.txtIdentifyResponse (o : JObj) : PortOfEncoding.Statement (.txtIdentifyResponse o) := ⟨rfl, rfl⟩
theorem PortOfEncoding.txtAddressAck (o : JObj) : PortOfEncoding.Statement (.txtAddressAck o) := ⟨rfl, rfl⟩
theorem PortOfEncoding.txtUnknown (o : JObj) : PortOfEncoding.Statement (.txtUnknown o) := ⟨rfl, rfl⟩
theorem PortOfEncoding.edge (c : Nat) (b : Nat) (t : Stamp) : PortOfEncoding.Statement (.edge c b t) := rfl
theorem PortOfEncoding.tick (t : Stamp) : PortOfEncoding.Statement (.tick t) := rfl
theorem PortOfEncoding.sample (t : Stamp) (d0 : List Nat) (d1 : List Nat) : PortOfEncoding.Statement (.sample t d0 d1) := rfl
theorem PortOfEncoding.pop : PortOfEncoding.Statement (.pop) := rfl
theorem PortOfEncoding.lookup (rid : Byte) : PortOfEncoding.Statement (.lookup rid) := rfl
theorem PortOfEncoding.binEncode (m : Option BinMsg) : PortOfEncoding.Statement (.binEncode m) := rfl
theorem PortOfEncoding.binDecode (s : Bytes) : PortOfEncoding.Statement (.binDecode s) := rfl
theorem PortOfEncoding.ev2bin (ev : ReaderEvent) : PortOfEncoding.Statement (.ev2bin ev) := rfl
theorem PortOfEncoding.txtEncode (m : TxtMsg) : PortOfEncoding.Statement (.txtEncode m) := rfl
theorem PortOfEncoding.txtDecode (s : Bytes) : PortOfEncoding.Statement (.txtDecode s) := rfl
theorem PortOfEncoding.ev2txt (ev : ReaderEvent) (a : Byte) : PortOfEncoding.Statement (.ev2txt ev a) := rfl
theorem PortOfEncoding.rxbyte (x : Byte) : PortOfEncoding.Statement (.rxbyte x) := rfl
theorem PortOfEncoding.reset : PortOfEncoding.Statement (.reset) := rfl

end Sys2Proof.Laws
end

