-- ==== Sys2Proof/Laws/Txt.lean ====
section
/-! SUPPORT. Laws of the text format's envelope: the parts of a line, what its checks answer, and what passes them. -/

namespace Sys2Proof

theorem length_txtLine (j : Bytes) (h l : Byte) : (txtLine j h l).length = j.length + 6 := by
  simp [txtLine]

theorem txtFrame_eq_txtLine (j : Bytes) :
    txtFrame j = txtLine j (hexDigit ((xorBytes j).toNat / 16)) (hexDigit ((xorBytes j).toNat % 16)) := rfl

theorem length_txtFrame (j : Bytes) : (txtFrame j).length = j.length + 6 := by
  rw [txtFrame_eq_txtLine, length_txtLine]

theorem txtPayload_txtLine (j : Bytes) (h l : Byte) : txtPayload (txtLine j h l) = j := by
  rw [txtPayload, length_txtLine]
  simp [slice, txtLine]

theorem txtLine_at (j : Bytes) (h l : Byte) (k : Nat) :
    byteAt (txtLine j h l) (j.length + 1 + k) = [markClose, markBar, h, l, newline].getD k 0 := by
  unfold byteAt txtLine
  rw [show j.length + 1 + k = (j.length + k) + 1 by omega, List.getD_cons_succ,
    List.getD_append_right _ _ _ _ (by omega), Nat.add_sub_cancel_left]

/-- What the envelope and checksum steps answer for a line of the layout of R81. -/
theorem txtFramingFault_txtLine (cfg : Config) (j : Bytes) (h l : Byte) :
    txtFramingFault cfg (txtLine j h l) =
      if cfg.txtMaxLine < j.length + 6 then some .txtOverlong
      else
        match hexPair h l with
        | none => some .txtHex
        | some v => if v ≠ xorBytes j then some .txtChecksum else none := by
  unfold txtFramingFault
  simp only [length_txtLine, txtPayload_txtLine]
  rw [show j.length + 6 - 1 = j.length + 1 + 4 by omega, show j.length + 6 - 5 = j.length + 1 + 0 by omega,
    show j.length + 6 - 4 = j.length + 1 + 1 by omega, show j.length + 6 - 3 = j.length + 1 + 2 by omega,
    show j.length + 6 - 2 = j.length + 1 + 3 by omega]
  simp only [txtLine_at]
  rw [if_neg (by simp)]
  by_cases hc : cfg.txtMaxLine < j.length + 6
  · rw [if_pos hc, if_pos hc]
  · rw [if_neg hc, if_neg hc, if_neg (by simp [byteAt, txtLine])]
    rfl

/-- The encoder's own line passes the envelope and checksum steps, if it is not too long. -/
theorem txtFramingFault_txtFrame (cfg : Config) (j : Bytes) :
    txtFramingFault cfg (txtFrame j) = if cfg.txtMaxLine < j.length + 6 then some .txtOverlong else none := by
  rw [txtFrame_eq_txtLine, txtFramingFault_txtLine, hexPair_hex2]
  simp

theorem txtPayload_txtFrame (j : Bytes) : txtPayload (txtFrame j) = j := by
  rw [txtFrame_eq_txtLine, txtPayload_txtLine]

/-- A string of at least 6 bytes with the markers in their places is a line of its own parts. -/
theorem eq_txtLine {s : Bytes} (hn : 6 ≤ s.length) (h0 : byteAt s 0 = markOpen)
    (h5 : byteAt s (s.length - 5) = markClose) (h4 : byteAt s (s.length - 4) = markBar)
    (h1 : byteAt s (s.length - 1) = newline) :
    s = txtLine (txtPayload s) (byteAt s (s.length - 3)) (byteAt s (s.length - 2)) := by
  apply List.ext_getElem
  · rw [length_txtLine, txtPayload, slice, List.length_take, List.length_drop]
    omega
  · intro i hi hi'
    have hb : ∀ (t : Bytes) (k : Nat) (hk : k < t.length), byteAt t k = t[k] := by
      intro t k hk
      simp [byteAt, hk]
    rw [← hb _ _ hi, ← hb _ _ hi']
    have hlen : (txtPayload s).length = s.length - 6 := by
      rw [txtPayload, slice, List.length_take, List.length_drop]
      omega
    by_cases hz : i = 0
    · subst hz
      rw [h0]
      rfl
    · by_cases hp : i ≤ s.length - 6
      · obtain ⟨k, rfl⟩ : ∃ k, i = k + 1 := ⟨i - 1, by omega⟩
        have hk : k < (txtPayload s).length := by omega
        have e : byteAt (txtLine (txtPayload s) (byteAt s (s.length - 3)) (byteAt s (s.length - 2))) (k + 1) =
            byteAt (txtPayload s) k := by
          unfold byteAt txtLine
          rw [List.getD_cons_succ, List.getD_append _ _ _ _ hk]
        rw [e, hb _ _ hk, hb _ _ hi]
        simp [txtPayload, slice, Nat.add_comm]
      · obtain ⟨k, hk⟩ : ∃ k, i = (txtPayload s).length + 1 + k := ⟨i - (s.length - 6) - 1, by omega⟩
        have hk5 : k < 5 := by omega
        rw [hk, txtLine_at, hlen]
        interval_cases k
        · rw [show s.length - 6 + 1 + 0 = s.length - 5 by omega, h5]; rfl
        · rw [show s.length - 6 + 1 + 1 = s.length - 4 by omega, h4]; rfl
        · rw [show s.length - 6 + 1 + 2 = s.length - 3 by omega]; rfl
        · rw [show s.length - 6 + 1 + 3 = s.length - 2 by omega]; rfl
        · rw [show s.length - 6 + 1 + 4 = s.length - 1 by omega, h1]; rfl

/-- What passes the envelope and checksum steps: a line whose digits spell the checksum of its payload. -/
theorem txtFramingFault_eq_none {cfg : Config} {s : Bytes} (h : txtFramingFault cfg s = none) :
    s.length ≤ cfg.txtMaxLine ∧ ∃ a b, s = txtLine (txtPayload s) a b ∧ hexPair a b = some (xorBytes (txtPayload s)) := by
  simp only [txtFramingFault] at h
  split at h
  · cases h
  · rename_i h1
    split at h
    · cases h
    · rename_i h2
      split at h
      · cases h
      · rename_i h3
        split at h
        · cases h
        · rename_i v hv
          split at h
          · cases h
          · rename_i h4
            simp only [not_or, ne_eq, not_not, not_lt] at h1 h2 h3 h4
            exact ⟨by omega, _, _, eq_txtLine h1.1 h3.1 h3.2.1 h3.2.2 h1.2, by rw [hv, h4]⟩

/-- TXT_DECODE of the line of an object's text: the line's length, then the schema. -/
theorem txtDecode_txtFrame (cfg : Config) {o : JObj} (h : objectOk o = true) :
    txtDecode cfg (txtFrame (objectBytes o)) =
      if cfg.txtMaxLine < (objectBytes o).length + 6 then .reject .txtOverlong else txtSchemaOf cfg o := by
  have hp : parseJson (objectBytes o) = some o := by
    rw [objectOk_iff] at h
    rw [parseJson, parseObject_objectBytes h.1]
    simp [h.2]
  unfold txtDecode
  rw [txtFramingFault_txtFrame, txtPayload_txtFrame, hp]
  by_cases hc : cfg.txtMaxLine < (objectBytes o).length + 6
  · rw [if_pos hc, if_pos hc]
  · rw [if_neg hc, if_neg hc]

/-- A row of the text port is the one its object's `type` and `cmd` select. -/
theorem decodeLine_txtFrame (cfg : Config) {o : JObj} (h : objectOk o = true)
    (hl : (txtFrame (objectBytes o)).length ≤ cfg.txtMaxLine) :
    decodeLine cfg (txtFrame (objectBytes o)) =
      match txtSelect cfg o with
      | .noType => .txtDecode (txtFrame (objectBytes o))
      | .unknown _ _ => .txtUnknown o
      | .variant k => txtRowOf k o := by
  have hp : parseJson (objectBytes o) = some o := by
    rw [objectOk_iff] at h
    rw [parseJson, parseObject_objectBytes h.1]
    simp [h.2]
  rw [length_txtFrame] at hl
  unfold decodeLine
  rw [txtFramingFault_txtFrame, txtPayload_txtFrame, if_neg (by omega)]
  rw [show parseJson (objectBytes o) = some o from hp]
  all_goals (dsimp only; cases txtSelect cfg o <;> rfl)

/-- The values a lookup finds do not depend on the order of the members. -/
theorem getU8_perm {o o' : JObj} (h : o.Perm o') (hn : (o.map Prod.fst).Nodup) (k : Bytes) :
    getU8 o k = getU8 o' k := by rw [getU8, getU8, lookup_perm h hn]

theorem getU64_perm {o o' : JObj} (h : o.Perm o') (hn : (o.map Prod.fst).Nodup) (k : Bytes) :
    getU64 o k = getU64 o' k := by rw [getU64, getU64, lookup_perm h hn]

theorem getStr_perm {o o' : JObj} (h : o.Perm o') (hn : (o.map Prod.fst).Nodup) (k : Bytes) :
    getStr o k = getStr o' k := by rw [getStr, getStr, lookup_perm h hn]

theorem getOptStr_perm {o o' : JObj} (h : o.Perm o') (hn : (o.map Prod.fst).Nodup) (k : Bytes) :
    getOptStr o k = getOptStr o' k := by rw [getOptStr, getOptStr, lookup_perm h hn]

theorem getState_perm {o o' : JObj} (h : o.Perm o') (hn : (o.map Prod.fst).Nodup) (k : Bytes) :
    getState o k = getState o' k := by rw [getState, getState, getStr_perm h hn]

theorem closedKeys_perm {o o' : JObj} (h : o.Perm o') (allowed : List Bytes) :
    closedKeys allowed o = closedKeys allowed o' := by
  rw [Bool.eq_iff_iff, closedKeys, closedKeys, List.all_eq_true, List.all_eq_true]
  exact ⟨fun h1 m hm => h1 m (h.mem_iff.2 hm), fun h1 m hm => h1 m (h.mem_iff.1 hm)⟩

end Sys2Proof
end

