-- ==== Sys2Proof/Tests/Slice0.lean ====
section
/-! SUPPORT. The model's own tests: refused ill-formed terms, decoding from frames, lines and records written out from the
spec, one-step tests on the spec's vectors (95_test_vectors.md), and a witness for the hypotheses of
each statement. -/

namespace Sys2Proof.Tests

open Sys2Proof.Machine

/-! ## Helpers -/

/-- A channel in the middle of a train, both lines sampled high. -/
def train (acc : Code) (cnt : Byte) (last : Stamp) : Channel := ⟨acc, cnt, last, true, true, true, true⟩

/-- The reset state with given channels. -/
def withChans (a b : Channel) : State := { State.reset with chans := [a, b] }

/-- The reset state with one input to come. -/
def withInput (x : Input) : State := { State.reset with input := [x] }

/-- What an operation returns to its requester. -/
def resultOf (i : Instr) (s : State) : Option Result :=
  match exec i s with
  | .next s' => some s'.result
  | .fault _ => none
  | .refused _ => none

/-- The next state of an outcome. -/
def nextOf : Host.Outcome State Fault Refusal → Option State
  | .next s => some s
  | .fault _ => none
  | .refused _ => none

/-- The refusal of an outcome. -/
def refusalOf : Host.Outcome State Fault Refusal → Option Refusal
  | .next _ => none
  | .fault _ => none
  | .refused r => some r

/-- A channel, the queue and the diagnostics after an operation. -/
def trainOf (i : Instr) (s : State) (c : Nat) : Option (Channel × List ReaderEvent × List Diag) :=
  match exec i s with
  | .next s' => some (s'.chan c, s'.evq, s'.diags)
  | .fault _ => none
  | .refused _ => none

/-- A text line: the members between braces, and the two checksum digits. -/
def textLine (inside digits : String) : Bytes :=
  ascii "<" ++ 0x7B :: ascii inside ++ 0x7D :: (ascii ">|" ++ ascii digits ++ [0x0A])

/-- The object of a heartbeat line. -/
def heartbeatObj : JObj := [(ascii "type", .str (ascii "heartbeat")), (ascii "hub_addr", .num 1)]

/-- The line of TV2. -/
def heartbeatLine : Bytes := textLine "\"type\":\"heartbeat\",\"hub_addr\":1" "48"

/-- A configuration with one event of room (DV11). -/
def oneSlot : Config := { Config.default with evqCap := 1 }

/-- The state of DV11 before its TICK: both trains of one bit finish at the same time. -/
def bothDue : State :=
  { State.resetWith oneSlot with chans := [train 1 1 1000, train 0 1 1000] }

/-! ## Ill-formed terms and inputs are refused (R8, R70, R72, R78, R83, R85, R86, R276) -/

theorem test_wf_edge_channel : (Instr.edge 2 0 0).wf Config.default = false ∧
    refusalOf (exec (.edge 2 0 0) State.reset) = some .badEdge := by decide
theorem test_wf_edge_line : (Instr.edge 0 2 0).wf Config.default = false ∧
    refusalOf (exec (.edge 0 2 0) State.reset) = some .badEdge := by decide
theorem test_wf_sample_length : (Instr.sample 0 [1] [1, 1]).wf Config.default = false ∧
    (Instr.sample 0 [1, 1] [1]).wf Config.default = false ∧
    refusalOf (exec (.sample 0 [1] [1, 1]) State.reset) = some .badSample := by decide
theorem test_wf_sample_level : (Instr.sample 0 [1, 2] [1, 1]).wf Config.default = false ∧
    (Instr.sample 0 [1, 1] [2, 1]).wf Config.default = false ∧
    refusalOf (exec (.sample 0 [1, 1] [1, 2]) State.reset) = some .badSample := by decide
theorem test_wf_uid_too_long :
    (Instr.binEncode (some (.identifyResponse (List.replicate 255 0x41)))).wf Config.default = false ∧
      refusalOf (exec (.binEncode (some (.identifyResponse (List.replicate 255 0x41)))) State.reset) = some .badBinMsg := by
  decide +kernel
theorem test_wf_device_kind :
    (Instr.txtEncode (.identifyResponse (ascii "door") [] 0 2)).wf Config.default = false ∧
      refusalOf (exec (.txtEncode (.identifyResponse (ascii "door") [] 0 2)) State.reset) = some .badTxtMsg := by
  decide +kernel
theorem test_wf_unknown_with_assigned_tag : (Instr.binUnknown 0x81 0 [] 0x81).wf Config.default = false ∧
    refusalOf (exec (.binUnknown 0x81 0 [] 0x81) State.reset) = some .notThisRow := by decide
theorem test_wf_object_of_another_row : (Instr.txtCardRead heartbeatObj).wf Config.default = false ∧
    refusalOf (exec (.txtCardRead heartbeatObj) State.reset) = some .notThisRow := by decide +kernel
theorem test_wf_object_twice_a_key :
    (Instr.txtHeartbeat (heartbeatObj ++ [(ascii "hub_addr", .num 2)])).wf Config.default = false := by
  decide +kernel
theorem test_wf_object_string_outside_alphabet :
    (Instr.txtHeartbeat (heartbeatObj ++ [(ascii "x", .str [0x22])])).wf Config.default = false := by
  decide +kernel
theorem test_wf_object_number_too_large :
    (Instr.txtHeartbeat (heartbeatObj ++ [(ascii "x", .num (2 ^ 64))])).wf Config.default = false := by
  decide +kernel
theorem test_wf_object_longer_than_a_line :
    (Instr.txtHeartbeat heartbeatObj).wf { Config.default with txtMaxLine := 38 } = false := by decide +kernel
theorem test_wf_unknown_object_of_a_known_row : (Instr.txtUnknown heartbeatObj).wf Config.default = false ∧
    refusalOf (exec (.txtUnknown heartbeatObj) State.reset) = some .notThisRow := by decide +kernel
theorem test_wf_configuration_readers :
    configOk { Config.default with readerId := [] } = false ∧
      configOk { Config.default with readerId := [1, 1] } = false := by decide +kernel
theorem test_wf_configuration_capacities :
    configOk { Config.default with evqCap := 0 } = false ∧ configOk { Config.default with evqCap := 1 } = true ∧
      configOk { Config.default with txtMaxLine := 7 } = false ∧
      configOk { Config.default with txtMaxLine := 8 } = true := by decide +kernel
theorem test_wf_configuration_device_kinds :
    configOk { Config.default with deviceKinds := [[]] } = false ∧
      configOk { Config.default with deviceKinds := [[0x22]] } = false ∧
      configOk { Config.default with deviceKinds := [ascii "heartbeat"] } = false ∧
      configOk { Config.default with deviceKinds := [] } = true := by decide +kernel
theorem test_wf_record : decode Config.default (.record .tick []) = .error (.operands .tick) ∧
    decode Config.default (.record .lookup [.num 256]) = .error (.range .lookup) ∧
    decode Config.default (.record .tick [.num (2 ^ 32)]) = .error (.range .tick) := by decide

/-! ## Decoding from the spec's encodings -/

theorem test_decode_bus_commands :
    decode Config.default (.bus [0x01, 0x00, 0x01]) = .ok (.binIdentify 0x00 [] 0x01) ∧
      decode Config.default (.bus [0x02, 0x01, 0x05, 0x06]) = .ok (.binSetAddress 0x01 [0x05] 0x06) ∧
      decode Config.default (.bus [0x10, 0x01, 0x02, 0x13]) = .ok (.binFeedbackGrant 0x01 [0x02] 0x13) ∧
      decode Config.default (.bus [0x11, 0x01, 0x02, 0x12]) = .ok (.binFeedbackDeny 0x01 [0x02] 0x12) := by decide
theorem test_decode_bus_replies :
    decode Config.default (.bus [0x41, 0x05, 0x04, 0xAA, 0xBB, 0xCC, 0xDD, 0x40]) =
        .ok (.binIdentifyResponse 0x05 [0x04, 0xAA, 0xBB, 0xCC, 0xDD] 0x40) ∧
      decode Config.default (.bus [0x42, 0x02, 0x00, 0x05, 0x45]) = .ok (.binAddressAck 0x02 [0x00, 0x05] 0x45) ∧
      decode Config.default (.bus [0x82, 0x00, 0x82]) = .ok (.binHeartbeat 0x00 [] 0x82) := by decide
theorem test_decode_bus_events :
    decode Config.default (.bus [0x81, 0x06, 0x02, 0x1A, 0x00, 0x00, 0x03, 0xE8, 0x74]) =
        .ok (.binCardRead 0x06 [0x02, 0x1A, 0x00, 0x00, 0x03, 0xE8] 0x74) ∧
      decode Config.default (.bus [0x83, 0x01, 0x03, 0x81]) = .ok (.binRex 0x01 [0x03] 0x81) ∧
      decode Config.default (.bus [0x84, 0x02, 0x01, 0x01, 0x86]) =
        .ok (.binDoorContact 0x02 [0x01, 0x01] 0x86) := by decide
theorem test_decode_bus_others :
    decode Config.default (.bus [0x00]) = .ok .binFiller ∧
      decode Config.default (.bus [0x00, 0x00, 0x00]) = .ok (.binUnknown 0x00 0x00 [] 0x00) ∧
      decode Config.default (.bus [0x55, 0x01, 0x07, 0x53]) = .ok (.binUnknown 0x55 0x01 [0x07] 0x53) ∧
      decode Config.default (.bus [0xFF, 0xFF]) = .ok (.binDecode [0xFF, 0xFF]) := by decide

/-- The words of the opcode table: the tag in bits 7..0. -/
theorem test_decode_table_words :
    decodeTableWord 8 0x81 = some (.binCardRead 0x00 [] 0x00) ∧
      decodeTableWord 8 0x01 = some (.binIdentify 0x00 [] 0x00) ∧
      decodeTableWord 8 0x00 = some .binFiller ∧ decodeTableWord 24 0x00 = some (.binUnknown 0x00 0x00 [] 0x00) ∧
      decodeTableWord 24 0x820082 = some (.binHeartbeat 0x00 [] 0x82) := by decide

theorem test_decode_line_card_read :
    decode Config.default
        (.line (textLine "\"type\":\"card_read\",\"hub_addr\":1,\"rdr_id\":2,\"card\":1000,\"bits\":26" "66")) =
      .ok (.txtCardRead [(ascii "type", .str (ascii "card_read")), (ascii "hub_addr", .num 1),
        (ascii "rdr_id", .num 2), (ascii "card", .num 1000), (ascii "bits", .num 26)]) := by decide +kernel
theorem test_decode_line_heartbeat :
    decode Config.default (.line heartbeatLine) = .ok (.txtHeartbeat heartbeatObj) := by decide +kernel
theorem test_decode_line_rex_event :
    decode Config.default (.line (textLine "\"type\":\"event_rex\",\"hub_addr\":1,\"rdr_id\":1" "7D")) =
      .ok (.txtRexEvent [(ascii "type", .str (ascii "event_rex")), (ascii "hub_addr", .num 1),
        (ascii "rdr_id", .num 1)]) := by decide +kernel
theorem test_decode_line_door_contact :
    decode Config.default
        (.line (textLine "\"type\":\"event_door_contact\",\"hub_addr\":1,\"rdr_id\":1,\"state\":\"open\"" "4e")) =
      .ok (.txtDoorContact [(ascii "type", .str (ascii "event_door_contact")), (ascii "hub_addr", .num 1),
        (ascii "rdr_id", .num 1), (ascii "state", .str (ascii "open"))]) := by decide +kernel
theorem test_decode_line_feedback_grant :
    decode Config.default
        (.line (textLine "\"type\":\"command\",\"cmd\":\"feedback_grant\",\"addr\":1,\"rdr_id\":2" "21")) =
      .ok (.txtFeedbackGrant [(ascii "type", .str (ascii "command")), (ascii "cmd", .str (ascii "feedback_grant")),
        (ascii "addr", .num 1), (ascii "rdr_id", .num 2)]) := by decide +kernel
theorem test_decode_line_feedback_deny :
    decode Config.default
        (.line (textLine "\"type\":\"command\",\"cmd\":\"feedback_deny\",\"addr\":1,\"rdr_id\":2" "59")) =
      .ok (.txtFeedbackDeny [(ascii "type", .str (ascii "command")), (ascii "cmd", .str (ascii "feedback_deny")),
        (ascii "addr", .num 1), (ascii "rdr_id", .num 2)]) := by decide +kernel
theorem test_decode_line_identify :
    decode Config.default (.line (textLine "\"type\":\"command\",\"cmd\":\"identify\"" "3B")) =
      .ok (.txtIdentify [(ascii "type", .str (ascii "command")), (ascii "cmd", .str (ascii "identify"))]) := by
  decide +kernel
theorem test_decode_line_set_address :
    decode Config.default
        (.line (textLine "\"type\":\"command\",\"cmd\":\"set_address\",\"new_addr\":5" "67")) =
      .ok (.txtSetAddress [(ascii "type", .str (ascii "command")), (ascii "cmd", .str (ascii "set_address")),
        (ascii "new_addr", .num 5)]) := by decide +kernel
theorem test_decode_line_identify_response :
    decode Config.default
        (.line (textLine "\"type\":\"identity\",\"uid\":\"AABBCCDD\",\"addr\":0,\"readers\":2" "3B")) =
      .ok (.txtIdentifyResponse [(ascii "type", .str (ascii "identity")), (ascii "uid", .str (ascii "AABBCCDD")),
        (ascii "addr", .num 0), (ascii "readers", .num 2)]) := by decide +kernel
theorem test_decode_line_address_ack :
    decode Config.default (.line (textLine "\"type\":\"ack_set_address\",\"status\":0,\"addr\":5" "5B")) =
      .ok (.txtAddressAck [(ascii "type", .str (ascii "ack_set_address")), (ascii "status", .num 0),
        (ascii "addr", .num 5)]) := by decide +kernel
theorem test_decode_line_unknown :
    decode Config.default (.line (textLine "\"type\":\"foo\",\"x\":1" "1D")) =
      .ok (.txtUnknown [(ascii "type", .str (ascii "foo")), (ascii "x", .num 1)]) := by decide +kernel
theorem test_decode_line_that_selects_no_row :
    decode Config.default (.line [0x0A]) = .ok (.txtDecode [0x0A]) ∧
      decode Config.default (.line (textLine "" "06")) = .ok (.txtDecode (textLine "" "06")) := by decide +kernel

/-- The records of R90 and R91, programs P1 and P2. -/
theorem test_decode_records_of_the_decoder :
    decode Config.default (.record .edge [.num 0, .num 1, .num 1000]) = .ok (.edge 0 1 1000) ∧
      decode Config.default (.record .tick [.num 75999]) = .ok (.tick 75999) ∧
      decode Config.default (.record .sample [.num 4000, .levels [1, 1], .levels [0, 1]]) =
        .ok (.sample 4000 [1, 1] [0, 1]) ∧
      decode Config.default (.record .pop []) = .ok .pop ∧
      decode Config.default (.record .lookup [.num 2]) = .ok (.lookup 2) ∧
      decode Config.default (.record .reset []) = .ok .reset := by decide
theorem test_decode_records_of_the_codec :
    decode Config.default (.record .binEncode [.nothing]) = .ok (.binEncode none) ∧
      decode Config.default (.record .binEncode [.bin .cardRead, .num 2, .num 26, .num 1000]) =
        .ok (.binEncode (some (.cardRead 2 26 1000))) ∧
      decode Config.default (.record .binDecode [.bytes [0x00]]) = .ok (.binDecode [0x00]) ∧
      decode Config.default (.record .ev2bin [.num 1, .num 0xB, .num 4]) = .ok (.ev2bin ⟨1, 0xB, 4⟩) ∧
      decode Config.default (.record .txtEncode [.txt .setAddress, .num 5, .absent]) =
        .ok (.txtEncode (.setAddress 5 none)) ∧
      decode Config.default (.record .txtDecode [.bytes [0x0A]]) = .ok (.txtDecode [0x0A]) ∧
      decode Config.default (.record .ev2txt [.num 1, .num 0xB, .num 4, .num 3]) =
        .ok (.ev2txt ⟨1, 0xB, 4⟩ 3) ∧
      decode Config.default (.record .rxbyte [.num 0x3C]) = .ok (.rxbyte 0x3C) := by decide

/-! ## The Decoder Unit -/

/-- DV2: 199 microseconds is a bounce, exactly 200 is accepted. -/
theorem test_edge_debounce :
    trainOf (.edge 0 1 1199) (withChans (train 0 1 1000) Channel.reset) 0 = some (train 0 1 1000, [], []) ∧
      trainOf (.edge 0 1 1200) (withChans (train 0 1 1000) Channel.reset) 0 = some (train 1 2 1200, [], []) := by
  decide

/-- DV13: time wraps; DV10: an old train is finalized before the edge; DV9: the 65th bit only re-arms. -/
theorem test_edge_wrap_expiry_and_ceiling :
    trainOf (.edge 0 0 150) (withChans (train 1 1 4294967196) Channel.reset) 0 = some (train 2 2 150, [], []) ∧
      trainOf (.edge 0 0 51000) (withChans (train 1 1 1000) Channel.reset) 0 =
        some (train 0 1 51000, [⟨1, 1, 1⟩], []) ∧
      trainOf (.edge 0 1 65000) (withChans (train 0x8000000000000000 64 64000) Channel.reset) 0 =
        some (train 0x8000000000000000 64 65000, [], []) := by decide

/-- DV1: due at exactly 50000 microseconds of quiet, not before. -/
theorem test_tick_idle_bound :
    trainOf (.tick 50999) (withChans (train 1 1 1000) Channel.reset) 0 = some (train 1 1 1000, [], []) ∧
      trainOf (.tick 51000) (withChans (train 1 1 1000) Channel.reset) 0 =
        some (⟨0, 0, 0, false, true, true, true⟩, [⟨1, 1, 1⟩], []) := by decide

/-- DV6, DV7: a 26-bit train that meets parity, and one that fails it. -/
theorem test_tick_parity :
    trainOf (.tick 76000) (withChans (train 0x20207D1 26 26000) Channel.reset) 0 =
        some (⟨0, 0, 0, false, true, true, true⟩, [⟨1, 0x20207D1, 26⟩], []) ∧
      trainOf (.tick 76000) (withChans (train 0x3E8 26 26000) Channel.reset) 0 =
        some (⟨0, 0, 0, false, true, true, true⟩, [], [⟨.parity, 1⟩]) := by decide

/-- DV15: the first sample only loads the levels. DV14 at t=2000: a falling line is an edge. -/
theorem test_sample_first_and_falling :
    trainOf (.sample 1000 [0, 1] [1, 1]) State.reset 0 = some (⟨0, 0, 0, false, false, true, true⟩, [], []) ∧
      trainOf (.sample 2000 [1, 1] [0, 1])
          (withChans { Channel.reset with seen := true } { Channel.reset with seen := true }) 0 =
        some (⟨1, 1, 2000, true, true, false, true⟩, [], []) := by decide

/-- DV14 at t=6000: both lines fall; the bit is the one LINE_ORDER takes first. -/
theorem test_sample_line_order :
    (sampleChanBy false 6000 0 false false (withChans (train 2 2 4000) Channel.reset)).chan 0 =
        ⟨4, 3, 6000, true, false, false, true⟩ ∧
      (sampleChanBy true 6000 0 false false (withChans (train 2 2 4000) Channel.reset)).chan 0 =
        ⟨5, 3, 6000, true, false, false, true⟩ := by decide

/-- DV16. -/
theorem test_pop :
    nextOf (exec .pop State.reset) = some { State.reset with result := .popped none } ∧
      nextOf (exec .pop { State.reset with evq := [⟨1, 1, 1⟩, ⟨2, 0, 1⟩] }) =
some { State.reset with evq := [⟨2, 0, 1⟩], result := .popped (some ⟨1, 1, 1⟩) } := by decide

/-- DV17. -/
theorem test_lookup :
    resultOf (.lookup 1) State.reset = some (.lookup (some 0)) ∧
      resultOf (.lookup 2) State.reset = some (.lookup (some 1)) ∧
      resultOf (.lookup 0) State.reset = some (.lookup none) ∧
      resultOf (.lookup 3) State.reset = some (.lookup none) := by decide

/-- DV18, RV4. -/
theorem test_reset :
    nextOf (exec .reset { withChans (train 5 3 3000) Channel.reset with
        evq := [⟨1, 1, 1⟩], rxbuf := [0x3C], rxdiscard := true }) = some State.reset := by decide

/-- DV11 and program P5: both orders of one sweep. -/
theorem test_sweep_order :
    ((sweepBy id 51000 bothDue).evq, (sweepBy id 51000 bothDue).diags) =
        ([⟨1, 1, 1⟩], [⟨.evqOverflow, 2⟩]) ∧
      ((sweepBy (1 - ·) 51000 bothDue).evq, (sweepBy (1 - ·) 51000 bothDue).diags) =
        ([⟨2, 0, 1⟩], [⟨.evqOverflow, 1⟩]) := by decide

/-- The table of 95_test_vectors.md 2.1. -/
theorem test_parity_table :
    w26Ok 0x20207D1 = true ∧ w26Ok 0x0246073 = true ∧ w26Ok 0x1FFFFFF = true ∧ w26Ok 0x0000001 = true ∧
      w26Ok 0 = false ∧ w26Ok 0x3FFFFFF = false ∧ w26Ok 0x3E8 = false := by decide

/-! ## The binary format -/

/-- BV1, BV13i. -/
theorem test_bin_identify :
    resultOf (.binIdentify 0x00 [] 0x01) State.reset = some (.binDecoded (.msg .identify)) ∧
      resultOf (.binIdentify 0x01 [0x07] 0x07) State.reset = some (.binDecoded (.reject .binFields)) := by decide
/-- BV2, and a checksum that is wrong. -/
theorem test_bin_set_address :
    resultOf (.binSetAddress 0x01 [0x08] 0x0B) State.reset = some (.binDecoded (.msg (.setAddress 8))) ∧
      resultOf (.binSetAddress 0x01 [0x08] 0x0A) State.reset = some (.binDecoded (.reject .binChecksum)) := by decide
/-- BV9. -/
theorem test_bin_feedback_grant :
    resultOf (.binFeedbackGrant 0x01 [0x02] 0x13) State.reset = some (.binDecoded (.msg (.feedbackGrant 2))) := by
  decide
/-- BV10. -/
theorem test_bin_feedback_deny :
    resultOf (.binFeedbackDeny 0x01 [0x02] 0x12) State.reset = some (.binDecoded (.msg (.feedbackDeny 2))) := by
  decide
/-- BV3, BV13k, BV13l, BV13m. -/
theorem test_bin_identify_response :
    resultOf (.binIdentifyResponse 0x05 [0x04, 0xAA, 0xBB, 0xCC, 0xDD] 0x40) State.reset =
        some (.binDecoded (.msg (.identifyResponse [0xAA, 0xBB, 0xCC, 0xDD]))) ∧
      resultOf (.binIdentifyResponse 0x00 [] 0x41) State.reset = some (.binDecoded (.reject .binFields)) ∧
      resultOf (.binIdentifyResponse 0x02 [0x05, 0x41] 0x07) State.reset = some (.binDecoded (.reject .binFields)) ∧
      resultOf (.binIdentifyResponse 0x03 [0x01, 0x41, 0x42] 0x40) State.reset =
        some (.binDecoded (.reject .binFields)) := by decide
/-- BV4. -/
theorem test_bin_address_ack :
    resultOf (.binAddressAck 0x02 [0xFF, 0x05] 0xBA) State.reset = some (.binDecoded (.msg (.addressAck 0xFF 5))) := by
  decide
/-- BV5, BV13e. -/
theorem test_bin_card_read :
    resultOf (.binCardRead 0x06 [0x01, 0x1A, 0x00, 0x24, 0x60, 0x73] 0xAB) State.reset =
        some (.binDecoded (.msg (.cardRead 1 26 0x246073))) ∧
      resultOf (.binCardRead 0x07 [0x02, 0x1A, 0x00, 0x00, 0x03, 0xE8] 0x74) State.reset =
        some (.binDecoded (.reject .binTruncated)) := by decide
/-- BV6, BV13f. -/
theorem test_bin_heartbeat :
    resultOf (.binHeartbeat 0x00 [] 0x82) State.reset = some (.binDecoded (.msg .heartbeat)) ∧
      resultOf (.binHeartbeat 0x00 [0x82] 0x00) State.reset = some (.binDecoded (.reject .binLength)) := by decide
/-- BV7. -/
theorem test_bin_rex :
    resultOf (.binRex 0x01 [0x03] 0x81) State.reset = some (.binDecoded (.msg (.rex 3))) := by decide
/-- BV8, BV13j. -/
theorem test_bin_door_contact :
    resultOf (.binDoorContact 0x02 [0x01, 0x01] 0x86) State.reset =
        some (.binDecoded (.msg (.doorContact 1 .opened))) ∧
      resultOf (.binDoorContact 0x02 [0xFF, 0x00] 0x79) State.reset =
        some (.binDecoded (.msg (.doorContact 255 .closed))) ∧
      resultOf (.binDoorContact 0x02 [0x01, 0x02] 0x85) State.reset = some (.binDecoded (.reject .binFields)) := by
  decide
/-- BV11. -/
theorem test_bin_filler : resultOf .binFiller State.reset = some (.binDecoded .filler) := by decide
/-- BV12a, BV12b. -/
theorem test_bin_unknown :
    resultOf (.binUnknown 0x55 0x01 [0x07] 0x53) State.reset = some (.binDecoded (.unknown 0x55 [0x07])) ∧
      resultOf (.binUnknown 0x00 0x00 [] 0x00) State.reset = some (.binDecoded (.unknown 0x00 [])) := by decide
/-- BV5, BV11. -/
theorem test_bin_encode :
    resultOf (.binEncode (some (.cardRead 2 26 1000))) State.reset =
        some (.encoded (.frame [0x81, 0x06, 0x02, 0x1A, 0x00, 0x00, 0x03, 0xE8, 0x74])) ∧
      resultOf (.binEncode none) State.reset = some (.encoded (.frame [0x00])) := by decide
/-- BV13a to BV13g, and BV15. -/
theorem test_bin_decode :
    resultOf (.binDecode []) State.reset = some (.binDecoded (.reject .binTruncated)) ∧
      resultOf (.binDecode [0x01, 0x05, 0x01]) State.reset = some (.binDecoded (.reject .binTruncated)) ∧
      resultOf (.binDecode [0x01, 0x00, 0x01, 0xFF]) State.reset = some (.binDecoded (.reject .binLength)) ∧
      resultOf (.binDecode [0x81, 0x06, 0x02, 0x1A, 0x00, 0x00, 0x03, 0xE8, 0x75]) State.reset =
        some (.binDecoded (.reject .binChecksum)) ∧
      resultOf (.binDecode [0x81, 0x06, 0x03, 0x1B, 0x00, 0x00, 0x03, 0xE8, 0x74]) State.reset =
        some (.binDecoded (.msg (.cardRead 3 27 1000))) := by decide
/-- BV16. -/
theorem test_ev2bin :
    resultOf (.ev2bin ⟨1, 0xFFFFFFFF, 33⟩) State.reset =
        some (.encoded (.frame [0x81, 0x06, 0x01, 0x21, 0xFF, 0xFF, 0xFF, 0xFF, 0xA7])) ∧
      nextOf (exec (.ev2bin ⟨1, 0x100000000, 33⟩) State.reset) =
some { State.reset with diags := [⟨.unencodable, 1⟩], result := .encoded .unencodable } := by decide

/-! ## The text format -/

/-- TV1. -/
theorem test_txt_card_read :
    resultOf (.txtCardRead [(ascii "type", .str (ascii "card_read")), (ascii "hub_addr", .num 1),
        (ascii "rdr_id", .num 2), (ascii "card", .num 1000), (ascii "bits", .num 26)]) State.reset =
      some (.txtDecoded (.msg (.cardRead 1 2 1000 26))) := by decide +kernel
/-- TV2, TV22a, TV22b, TV22c. -/
theorem test_txt_heartbeat :
    resultOf (.txtHeartbeat heartbeatObj) State.reset = some (.txtDecoded (.msg (.heartbeat 1))) ∧
      resultOf (.txtHeartbeat [(ascii "type", .str (ascii "heartbeat")), (ascii "hub_addr", .num 256)]) State.reset =
        some (.txtDecoded (.reject .txtFields)) ∧
      resultOf (.txtHeartbeat [(ascii "type", .str (ascii "heartbeat"))]) State.reset =
        some (.txtDecoded (.reject .txtFields)) ∧
      resultOf (.txtHeartbeat (heartbeatObj ++ [(ascii "x", .num 2)])) State.reset =
        some (.txtDecoded (.reject .txtFields)) := by decide +kernel
/-- TV3. -/
theorem test_txt_rex_event :
    resultOf (.txtRexEvent [(ascii "type", .str (ascii "event_rex")), (ascii "hub_addr", .num 1),
        (ascii "rdr_id", .num 7)]) State.reset = some (.txtDecoded (.msg (.rexEvent 1 7))) := by decide +kernel
/-- TV4, TV22e, TV22f. -/
theorem test_txt_door_contact :
    let door (st : JVal) : JObj := [(ascii "type", .str (ascii "event_door_contact")), (ascii "hub_addr", .num 1),
      (ascii "rdr_id", .num 1), (ascii "state", st)]
    resultOf (.txtDoorContact (door (.str (ascii "closed")))) State.reset =
        some (.txtDecoded (.msg (.doorContact 1 1 .closed))) ∧
      resultOf (.txtDoorContact (door (.str (ascii "OPEN")))) State.reset = some (.txtDecoded (.reject .txtFields)) ∧
      resultOf (.txtDoorContact (door (.num 1))) State.reset = some (.txtDecoded (.reject .txtFields)) := by
  decide +kernel
/-- TV5. -/
theorem test_txt_feedback_grant :
    resultOf (.txtFeedbackGrant [(ascii "type", .str (ascii "command")), (ascii "cmd", .str (ascii "feedback_grant")),
        (ascii "addr", .num 1), (ascii "rdr_id", .num 2)]) State.reset =
      some (.txtDecoded (.msg (.feedbackGrant 1 2))) := by decide +kernel
/-- TV6. -/
theorem test_txt_feedback_deny :
    resultOf (.txtFeedbackDeny [(ascii "type", .str (ascii "command")), (ascii "cmd", .str (ascii "feedback_deny")),
        (ascii "addr", .num 1), (ascii "rdr_id", .num 2)]) State.reset =
      some (.txtDecoded (.msg (.feedbackDeny 1 2))) := by decide +kernel
/-- TV7, TV22k. -/
theorem test_txt_identify :
    resultOf (.txtIdentify [(ascii "type", .str (ascii "command")), (ascii "cmd", .str (ascii "identify"))])
        State.reset = some (.txtDecoded (.msg .identify)) ∧
      resultOf (.txtIdentify [(ascii "type", .str (ascii "command")), (ascii "cmd", .str (ascii "identify")),
        (ascii "addr", .num 1)]) State.reset = some (.txtDecoded (.reject .txtFields)) := by decide +kernel
/-- TV8. -/
theorem test_txt_set_address :
    let base : JObj := [(ascii "type", .str (ascii "command")), (ascii "cmd", .str (ascii "set_address")),
      (ascii "new_addr", .num 5)]
    resultOf (.txtSetAddress base) State.reset = some (.txtDecoded (.msg (.setAddress 5 none))) ∧
      resultOf (.txtSetAddress (base ++ [(ascii "target_uid", .str [])])) State.reset =
        some (.txtDecoded (.msg (.setAddress 5 (some [])))) := by decide +kernel
/-- TV9. -/
theorem test_txt_identify_response :
    resultOf (.txtIdentifyResponse [(ascii "type", .str (ascii "identity")), (ascii "uid", .str (ascii "AABBCCDD")),
        (ascii "addr", .num 0), (ascii "readers", .num 2)]) State.reset =
      some (.txtDecoded (.msg (.identifyResponse (ascii "identity") (ascii "AABBCCDD") 0 2))) := by decide +kernel
/-- TV10, TV22g. -/
theorem test_txt_address_ack :
    resultOf (.txtAddressAck [(ascii "type", .str (ascii "ack_set_address")), (ascii "status", .num 0),
        (ascii "addr", .num 5)]) State.reset = some (.txtDecoded (.msg (.addressAck 0 5))) ∧
      resultOf (.txtAddressAck [(ascii "type", .str (ascii "ack_set_address")), (ascii "status", .str (ascii "ok")),
        (ascii "addr", .num 5)]) State.reset = some (.txtDecoded (.reject .txtFields)) := by decide +kernel
/-- TV11a, TV11b. -/
theorem test_txt_unknown :
    resultOf (.txtUnknown [(ascii "type", .str (ascii "command")), (ascii "cmd", .str (ascii "reboot"))])
        State.reset = some (.txtDecoded (.unknown (ascii "command") (some (ascii "reboot")))) ∧
      resultOf (.txtUnknown [(ascii "type", .str (ascii "foo")), (ascii "x", .num 1)]) State.reset =
        some (.txtDecoded (.unknown (ascii "foo") none)) := by decide +kernel
/-- TV2, TV14. -/
theorem test_txt_encode :
    resultOf (.txtEncode (.heartbeat 1)) State.reset = some (.encoded (.frame heartbeatLine)) ∧
      resultOf (.txtEncode (.cardRead 255 255 18446744073709551615 255)) State.reset =
        some (.encoded (.frame (textLine
          "\"type\":\"card_read\",\"hub_addr\":255,\"rdr_id\":255,\"card\":18446744073709551615,\"bits\":255"
          "53"))) := by decide +kernel
/-- TV16, TV17, TV18a, TV19b, TV20c, TV20e. -/
theorem test_txt_decode :
    resultOf (.txtDecode (textLine "\"type\":\"heartbeat\",\"hub_addr\":1" "49")) State.reset =
        some (.txtDecoded (.reject .txtChecksum)) ∧
      resultOf (.txtDecode (textLine "\"type\":\"heartbeat\",\"hub_addr\":1" "4G")) State.reset =
        some (.txtDecoded (.reject .txtHex)) ∧
      resultOf (.txtDecode heartbeatLine.dropLast) State.reset = some (.txtDecoded (.reject .txtTruncated)) ∧
      resultOf (.txtDecode (ascii "xx" ++ heartbeatLine)) State.reset =
        some (.txtDecoded (.reject .txtEnvelope)) ∧
      resultOf (.txtDecode (textLine "\"type\":\"heartbeat\",\"hub_addr\":01" "78")) State.reset =
        some (.txtDecoded (.reject .txtJson)) ∧
      resultOf (.txtDecode (textLine
          "\"type\":\"card_read\",\"hub_addr\":1,\"rdr_id\":2,\"card\":18446744073709551616,\"bits\":64" "63"))
        State.reset = some (.txtDecoded (.reject .txtJson)) := by decide +kernel
/-- TV25. -/
theorem test_ev2txt :
    nextOf (exec (.ev2txt ⟨1, 0x100000000, 33⟩ 7) State.reset) =
some { State.reset with result := .encoded (.frame (textLine
        "\"type\":\"card_read\",\"hub_addr\":7,\"rdr_id\":1,\"card\":4294967296,\"bits\":33" "68")) } := by
  decide +kernel
/-- RV1 at its last byte, RV3. -/
theorem test_rxbyte_newline :
    nextOf (exec (.rxbyte 0x0A) { State.reset with rxbuf := heartbeatLine.dropLast }) =
some { State.reset with result := .received (some (.msg (.heartbeat 1))) } ∧
      nextOf (exec (.rxbyte 0x0A) State.reset) =
some { State.reset with result := .received (some (.reject .txtTruncated)) } := by decide +kernel
/-- RV2 at its 256th byte. -/
theorem test_rxbyte_overlong :
    nextOf (exec (.rxbyte 0x5A) { State.reset with rxbuf := List.replicate 255 0x5A }) =
some { State.reset with rxdiscard := true, result := .received (some (.reject .txtOverlong)) } ∧
      nextOf (exec (.rxbyte 0x0A) { State.reset with rxdiscard := true }) =
some { State.reset with result := .received none } := by decide +kernel

/-! ## Scripts (R91, R92) -/

theorem test_script_lines :
    assemble (ascii "RESET\nEDGE c=0 b=1 t=1000\nTICK t=51000\nPOP\nLOOKUP 2") =
      some [.record .reset [], .record .edge [.num 0, .num 1, .num 1000], .record .tick [.num 51000],
        .record .pop [], .record .lookup [.num 2]] := by decide +kernel
theorem test_script_macros :
    assemble (ascii "TRAIN c=1 bits=101 t0=4294966796 dt=400\nWAIT_IDLE c=1") =
      some [.record .edge [.num 1, .num 1, .num 4294966796], .record .edge [.num 1, .num 0, .num 4294967196],
        .record .edge [.num 1, .num 1, .num 300], .record .tick [.num 50300]] := by decide +kernel

/-! ## Witnesses of the statements' hypotheses -/

/-- StepRunsTheDecodedOperation, StepTakesOneInputAndKeepsTheConfiguration: an operation, and an ill-formed one
that decodes. -/
theorem witness_step_runs_an_operation :
    let s := withInput (.record .lookup [.num 2])
    configOk s.cfg = true ∧ s.input = [.record .lookup [.num 2]] ∧
      decode s.cfg (.record .lookup [.num 2]) = .ok (.lookup 2) ∧
      nextOf (step s) = some { State.reset with result := .lookup (some 1) } ∧
      decode s.cfg (.record .edge [.num 2, .num 0, .num 0]) = .ok (.edge 2 0 0) ∧
      refusalOf (step (withInput (.record .edge [.num 2, .num 0, .num 0]))) = some .badEdge := by decide +kernel

/-- The host's way in: the next step runs the table word. -/
theorem test_step_runs_the_fetched_word :
    nextOf (step (State.reset.withFetchWord 8 0x82)) =
some { State.reset with result := .binDecoded (.reject .binChecksum) } := by decide +kernel

/-- StepWithoutAnOperation, both clauses. -/
theorem witness_step_without_an_operation :
    configOk State.reset.cfg = true ∧ State.reset.input = [] ∧
      decode Config.default (.record .rxbyte [.num 256]) = .error (.range .rxbyte) ∧
      refusalOf (step (withInput (.record .rxbyte [.num 256]))) = some (.badRecord (.range .rxbyte)) := by decide +kernel

/-- BoundaryInputsGetNoStep: the first channel and line out of range, one level short, a level of 2, 255 bytes
of uid, a kind that is none, a record of TXT_ENCODE, a configuration that fails R8. The accepted
neighbours beside them. -/
theorem witness_boundary_inputs :
    State.reset.cfg.numReaders ≤ 2 ∧ ¬(2 = 0 ∨ 2 = 1) ∧ [1].length ≠ State.reset.cfg.numReaders ∧
      254 < (List.replicate 255 (0x41 : Byte)).length ∧ ascii "door" ∉ State.reset.cfg.deviceKinds ∧
      decode Config.default (.record .txtEncode [.txt .heartbeat, .num 255]) = .ok (.txtEncode (.heartbeat 255)) ∧
      decode Config.default (.record .txtEncode [.txt .heartbeat, .num 256]) = .error (.range .txtEncode) ∧
      configOk { Config.default with evqCap := 0 } = false ∧ edgeOk Config.default 1 1 = true ∧
      sampleOk Config.default [0, 1] [1, 0] = true ∧
      binMsgOk (.identifyResponse (List.replicate 254 0x41)) = true := by decide +kernel

/-- One well-formed operation for every row of the opcode table. -/
def wellFormedOps : List Instr :=
  [.binIdentify 0 [] 1, .binSetAddress 1 [5] 6, .binFeedbackGrant 1 [2] 0x13, .binFeedbackDeny 1 [2] 0x12,
    .binIdentifyResponse 1 [0] 0x40, .binAddressAck 2 [0, 5] 0x45, .binCardRead 6 [2, 0x1A, 0, 0, 3, 0xE8] 0x74,
    .binHeartbeat 0 [] 0x82, .binRex 1 [3] 0x81, .binDoorContact 2 [1, 1] 0x86, .binFiller,
    .binUnknown 0x55 1 [7] 0x53, .txtCardRead (txtObject (.cardRead 1 2 1000 26)), .txtHeartbeat heartbeatObj,
    .txtRexEvent (txtObject (.rexEvent 1 1)), .txtDoorContact (txtObject (.doorContact 1 1 .opened)),
    .txtFeedbackGrant (txtObject (.feedbackGrant 1 2)), .txtFeedbackDeny (txtObject (.feedbackDeny 1 2)),
    .txtIdentify (txtObject .identify)] ++
  [.txtSetAddress (txtObject (.setAddress 5 none)),
    .txtIdentifyResponse (txtObject (.identifyResponse (ascii "identity") [] 0 2)),
    .txtAddressAck (txtObject (.addressAck 0 5)), .txtUnknown [(ascii "type", .str (ascii "foo"))], .edge 1 1 1000,
    .tick 1000, .sample 1000 [1, 1] [0, 1], .pop, .lookup 2, .binEncode (some .heartbeat), .binDecode [0],
    .ev2bin ⟨1, 1, 1⟩, .txtEncode (.heartbeat 1), .txtDecode [0x0A], .ev2txt ⟨1, 1, 1⟩ 1, .rxbyte 0x3C, .reset]

/-- WellFormedOperationsComplete, DecodeOfEncodeIsTheOperation: every row has a well-formed operation. -/
theorem witness_wellformed_operations :
    wellFormedOps.length = 36 ∧ wellFormedOps.all (Instr.wf Config.default) = true := by decide +kernel

/-- StepKeepsTheRegisterInvariant, from a state with a train, an event and a line under way. -/
theorem witness_register_invariant :
    let s : State := { withChans (train 5 3 1000) Channel.reset with
      evq := [⟨2, 1, 1⟩], rxbuf := [0x3C], input := [.record .edge [.num 0, .num 1, .num 1200]] }
    s.Inv ∧ nextOf (step s) = some { s with chans := [train 11 4 1200, Channel.reset], input := [] } := by decide +kernel

/-- ReachableTrainsFitTheirBitCount: a run of one step. -/
theorem witness_reachable :
    ∃ s, Host.Core.run Sys2Proof.core 1
      { State.resetWith Config.default with input := [.record .edge [.num 0, .num 1, .num 1000]] } = .next s ∧
      (s.chan 0).cnt = 1 := ⟨_, rfl, by decide⟩

/-- ParseJsonAcceptsExactlyTheSpelledObjects: both sides, on an object and on no object (TV20b). -/
theorem witness_parse_json :
    objectOk heartbeatObj = true ∧ parseJson (objectBytes heartbeatObj) = some heartbeatObj ∧
      parseJson (objectBytes (heartbeatObj ++ [(ascii "hub_addr", .num 2)])) = none ∧
      parseJson (objectBytes []) = some [] := by decide +kernel

/-- DecimalSpellingIsCanonical at both ends of the range. -/
theorem witness_decimal :
    dec 0 = ascii "0" ∧ dec (2 ^ 64 - 1) = ascii "18446744073709551615" := by decide +kernel

/-- ScriptMacrosExpandToTheirRecords: a train of one bit. -/
theorem witness_script_macros :
    ([1] : List Nat) ≠ [] ∧
      expandScript [.train 0 [1] 1000 500, .waitIdle 0] =
        some [.record .edge [.num 0, .num 1, .num 1000], .record .tick [.num 51000]] := by decide

/-- TickFinalizesExactlyTheDueChannels: a timer due at its first microsecond, one not due, and none due. -/
theorem witness_tick_due :
    TimerDue (train 1 1 1000) 51000 ∧ ¬TimerDue (train 1 1 1001) 51000 ∧
      (∀ c, c < State.reset.cfg.numReaders → ¬TimerDue (State.reset.chan c) 51000) := by decide

/-- FinishedTrainIsDeliveredOrDiscarded: exactly one due timer, for each outcome: delivered, failed parity,
queue full, and the empty train that only an unreachable state holds. -/
theorem witness_finished_train :
    (∀ ch ∈ [train 1 1 1000, train 0x3E8 26 1000, train 0 0 1000],
        ∀ c', c' < (withChans ch Channel.reset).cfg.numReaders →
          (TimerDue ((withChans ch Channel.reset).chan c') 51000 ↔ c' = 0)) ∧
      trainOf (.tick 51000) (withChans (train 1 1 1000) Channel.reset) 0 =
        some (finalizedChan (train 1 1 1000), [⟨1, 1, 1⟩], []) ∧
      trainOf (.tick 51000) (withChans (train 0x3E8 26 1000) Channel.reset) 0 =
        some (finalizedChan (train 0x3E8 26 1000), [], [⟨.parity, 1⟩]) ∧
      trainOf (.tick 51000) (withChans (train 0 0 1000) Channel.reset) 0 =
        some (finalizedChan (train 0 0 1000), [], []) ∧
      trainOf (.tick 51000) { bothDue with chans := [train 1 1 1000, Channel.reset], evq := [⟨2, 1, 1⟩] } 0 =
        some (finalizedChan (train 1 1 1000), [⟨2, 1, 1⟩], [⟨.evqOverflow, 1⟩]) := by decide

/-- SweepDeliversEveryDueTrain (room for two), SweepOrderAdmitsEveryPermutation (two due channels, and the
order that takes the second first). -/
theorem witness_sweep :
    let s := withChans (train 1 1 1000) (train 0 1 1000)
    s.evq.length + (dueList s 51000).length ≤ s.cfg.evqCap ∧ 2 ≤ (dueList bothDue 51000).length ∧
      dueList bothDue 51000 = [0, 1] ∧ ([1, 0] : List Nat).Perm (dueList bothDue 51000) := by decide

/-- EdgeIsASweepAndThenItsOwnBit at the last channel and line. -/
theorem witness_edge : (1 : Nat) < State.reset.cfg.numReaders ∧ (1 : Nat) ≤ 1 ∧
    (∃ u, exec (.tick 1000) State.reset = .next u) := ⟨by decide, by decide, _, rfl⟩

/-- EdgesWithinTheDebounceWindowAreLost: an edge 199 microseconds after an accepted one, on the other line. -/
theorem witness_debounce_window :
    ∃ u s' s'', 0 < State.reset.chans.length ∧ exec (.tick 1000) State.reset = .next u ∧
      200 ≤ elapsed (u.chan 0).last 1000 ∧ exec (.edge 0 1 1000) State.reset = .next s' ∧
      elapsed 1000 1199 < 200 ∧ exec (.edge 0 0 1199) s' = .next s'' ∧ (s''.chan 0).cnt = 1 :=
  ⟨_, _, _, by decide, rfl, by decide, rfl, by decide, rfl, by decide⟩

/-- WellSpacedTrainIsAccumulatedFirstBitFirst: three bits, 200 and 49999 microseconds apart. -/
theorem witness_well_spaced :
    let es : List (Nat × Stamp) := [(0, 1200), (1, 51199)]
    0 < State.reset.cfg.numReaders ∧ State.reset.chans.length = State.reset.cfg.numReaders ∧
      (∀ c', c' < State.reset.cfg.numReaders → (State.reset.chan c').armed = false) ∧
      (State.reset.chan 0).acc = 0 ∧ (State.reset.chan 0).cnt = 0 ∧
      200 ≤ elapsed (State.reset.chan 0).last 1000 ∧ (∀ e ∈ (1, (1000 : Stamp)) :: es, e.1 ≤ 1) ∧
      es.length ≤ 63 ∧ WellSpaced 1000 es :=
  ⟨by decide, by decide, by decide, by decide, by decide, by decide, by decide, by decide,
    by decide, by decide, by decide, by decide, trivial⟩

/-- SampleIsASweepAndThenTheFallingLines: a sample of a channel not seen before, and one that falls on each
line, on none and on both. -/
theorem witness_sample :
    sampleOk Config.default [0, 1] [1, 1] = true ∧ State.reset.chans.length = State.reset.cfg.numReaders ∧
      (State.reset.chan 0).seen = false ∧ (train 0 0 0).seen = true ∧ (train 0 0 0).prev0 = true ∧
      trainOf (.sample 1000 [0, 1] [1, 1]) (withChans (train 0 1 500) Channel.reset) 0 =
        some (afterEdge { train 0 1 500 with prev0 := false } 0 1000, [], []) ∧
      trainOf (.sample 1000 [1, 1] [0, 1]) (withChans (train 0 1 500) Channel.reset) 0 =
        some (afterEdge { train 0 1 500 with prev1 := false } 1 1000, [], []) ∧
      trainOf (.sample 1000 [1, 1] [1, 1]) (withChans (train 0 1 500) Channel.reset) 0 =
        some (train 0 1 500, [], []) ∧
      fallingLines (train 0 1 500) false false = [0, 1] := by decide

/-- LineOrderDecidesTheSurvivingBit: one channel by its order, and a sample in which both lines of both channels
fall, so that the last channel takes the draw after the first one's. -/
theorem witness_line_order :
    let s := withChans (train 2 2 4000) Channel.reset
    let u := withChans (train 2 2 4000) (train 1 1 4000)
    (0 < s.chans.length ∧ (∀ c', c' < s.cfg.numReaders → ¬TimerDue (s.chan c') 6000) ∧ (s.chan 0).seen = true ∧
        (s.chan 0).prev0 = true ∧ (s.chan 0).prev1 = true) ∧
      sampleOk u.cfg [0, 0] [0, 0] = true ∧ u.chans.length = u.cfg.numReaders ∧
      nextOf (exec (.tick 6000) u) = some u ∧
      (∀ c < 2, BothFall u [0, 0] [0, 0] c ∧ lineDraws u [0, 0] [0, 0] c = c) ∧
      ¬BothFall u [0, 0] [0, 1] 1 ∧ ¬BothFall s [0, 0] [0, 0] 1 := by decide

/-- ChannelsDoNotInterfere: two states that differ in channel 1, and an edge of channel 0. -/
theorem witness_channels :
    ∃ s₁' s₂', (State.reset).cfg = (withChans Channel.reset (train 1 1 900)).cfg ∧
      State.reset.chans.length = (withChans Channel.reset (train 1 1 900)).chans.length ∧
      State.reset.chan 0 = (withChans Channel.reset (train 1 1 900)).chan 0 ∧
      exec (.edge 0 1 1000) State.reset = .next s₁' ∧
      exec (.edge 0 1 1000) (withChans Channel.reset (train 1 1 900)) = .next s₂' :=
  ⟨_, _, by decide, by decide, by decide, rfl, rfl⟩

/-- PopTakesTheOldestEvent (both clauses: test_pop), LookupReturnsTheChannelOfAReaderId,
DecoderOperationsKeepTheRest: every operation it names answers a next state. -/
theorem witness_decoder_operations :
    configOk State.reset.cfg = true ∧ (∃ s', exec (.edge 0 1 1000) State.reset = .next s') ∧
      (∃ s', exec (.tick 1000) State.reset = .next s') ∧
      (∃ s', exec (.sample 1000 [1, 1] [1, 1]) State.reset = .next s') ∧ (∃ s', exec .pop State.reset = .next s') ∧
      ∃ s', exec (.lookup 1) State.reset = .next s' :=
  ⟨by decide, ⟨_, rfl⟩, ⟨_, rfl⟩, ⟨_, rfl⟩, ⟨_, rfl⟩, ⟨_, rfl⟩⟩

/-- BinEncodeWritesTheFrameOfEveryMessage at the longest uid, BinaryFramesRoundTrip. -/
theorem witness_binary_messages :
    (List.replicate 254 (0x41 : Byte)).length ≤ 254 ∧
      binMsgOk (.identifyResponse (List.replicate 254 0x41)) = true ∧
      binEncode (some (.identifyResponse [])) = .frame [0x41, 0x01, 0x00, 0x40] ∧
      binDecode [0x41, 0x01, 0x00, 0x40] = .msg (.identifyResponse []) := by decide +kernel

/-- OneChangedByteIsRejected: the first, the length and the last byte of the heartbeat's frame. -/
theorem witness_changed_byte :
    binMsgOk .heartbeat = true ∧ binEncode (some .heartbeat) = .frame [0x82, 0x00, 0x82] ∧
      (∀ k, k < 3 → ([0x82, 0x00, 0x82] : Bytes)[k]? ≠ some 0x01) ∧
      binDecode [0x01, 0x00, 0x82] = .reject .binChecksum ∧ binDecode [0x82, 0x01, 0x82] = .reject .binTruncated ∧
      binDecode [0x82, 0x00, 0x01] = .reject .binChecksum ∧
      binDecode [0x02, 0x00, 0x05, 0x06] = .reject .binLength := by decide

/-- BinDecodeAnswersEveryString: the filler, two bytes, 259 bytes, and results that need a whole frame. -/
theorem witness_bin_decode_lengths :
    binDecode [0x00] = .filler ∧ binDecode [0x00, 0x00] = .reject .binTruncated ∧
      258 < (List.replicate 259 (0xFF : Byte)).length ∧ binDecode (List.replicate 259 0xFF) = .reject .binLength ∧
      binDecode [0x82, 0x00, 0x82] = .msg .heartbeat ∧ binDecode [0x55, 0x01, 0x07, 0x53] = .unknown 0x55 [0x07] := by
  decide +kernel

/-- BinRowsParseTheirFields: a framed row of every tag. -/
theorem witness_framed_rows :
    Framed 0x01 0 [] 0x01 ∧ Framed 0x02 1 [5] 0x06 ∧ Framed 0x10 1 [2] 0x13 ∧ Framed 0x11 1 [2] 0x12 ∧
      Framed 0x41 1 [0] 0x40 ∧ Framed 0x42 2 [0, 5] 0x45 ∧ Framed 0x81 6 [2, 0x1A, 0, 0, 3, 0xE8] 0x74 ∧
      Framed 0x82 0 [] 0x82 ∧ Framed 0x83 1 [3] 0x81 ∧ Framed 0x84 2 [1, 1] 0x86 := by decide

/-- UnassignedTagGivesUnknown, BinRowsAgreeWithBinDecode: the unassigned tags beside the assigned ones, and what the
encoder writes for the filler. -/
theorem witness_unassigned_tag :
    (∀ tag ∈ ([0x00, 0x03, 0x0F, 0x12, 0x40, 0x43, 0x80, 0x85, 0xFF] : List Byte),
        tag ∉ ([0x01, 0x02, 0x10, 0x11, 0x41, 0x42, 0x81, 0x82, 0x83, 0x84] : List Byte)) ∧
      Framed 0x55 1 [7] 0x53 ∧ Framed 0x00 0 [] 0x00 ∧ binRequestOk none = true ∧
      binEncode none = .frame [0x00] ∧ binDecode [0x00] = .filler := by decide

/-- Ev2BinFramesCodesOf32Bits at the two codes beside the bound. -/
theorem witness_ev2bin : (0xFFFFFFFF : Code).toNat < 2 ^ 32 ∧ 2 ^ 32 ≤ (0x100000000 : Code).toNat := by decide

/-- TxtEncodeWritesTheLineOfEveryMessage: the ends of the alphabet, the two bytes left out, and a kind. -/
theorem witness_alphabet :
    isStr [0x20, 0x7E] = true ∧ isStr [0x1F] = false ∧ isStr [0x7F] = false ∧ isStr [0x22] = false ∧
      isStr [0x5C] = false ∧ ascii "identity" ∈ State.reset.cfg.deviceKinds ∧ isStr (ascii "identity") = true := by
  decide +kernel

/-- TextFramesRoundTrip. -/
theorem witness_text_round_trip :
    configOk State.reset.cfg = true ∧ txtMsgOk State.reset.cfg (.heartbeat 1) = true ∧
      nextOf (exec (.txtEncode (.heartbeat 1)) State.reset) =
some { State.reset with result := .encoded (.frame heartbeatLine) } ∧
      resultOf (.txtDecode heartbeatLine) State.reset = some (.txtDecoded (.msg (.heartbeat 1))) := by decide +kernel

/-- MessagesWithoutStringsFitIn93Bytes: the longest message fills 93 bytes. -/
theorem witness_longest_message :
    93 ≤ State.reset.cfg.txtMaxLine ∧
      (∀ (a : Byte) (u : Bytes), TxtMsg.cardRead 255 255 18446744073709551615 255 ≠ .setAddress a (some u)) ∧
      (∀ (k u : Bytes) (a n : Byte), TxtMsg.cardRead 255 255 18446744073709551615 255 ≠ .identifyResponse k u a n) ∧
      (txtFrame (objectBytes (txtObject (.cardRead 255 255 18446744073709551615 255)))).length = 93 :=
  ⟨by decide, fun _ _ h => (nomatch h), fun _ _ _ _ h => (nomatch h), by decide +kernel⟩

/-- MemberOrderIsIrrelevant: TV12. -/
theorem witness_member_order :
    objectOk heartbeatObj = true ∧ heartbeatObj.Perm heartbeatObj.reverse ∧
      resultOf (.txtDecode (textLine "\"hub_addr\":1,\"type\":\"heartbeat\"" "48")) State.reset =
        some (.txtDecoded (.msg (.heartbeat 1))) := by decide +kernel

/-- CorruptedChecksumDigitIsDetected: the digits 4 and 8 of TV2 replaced by no digit, by another digit; and
the letter of TV4 in the other case. -/
theorem witness_checksum_digit :
    configOk State.reset.cfg = true ∧ txtMsgOk State.reset.cfg (.heartbeat 1) = true ∧
      txtEncode State.reset.cfg (.heartbeat 1) = .frame heartbeatLine ∧ heartbeatLine.length = 39 ∧
      heartbeatLine[36]? = some 0x34 ∧ heartbeatLine[37]? = some 0x38 ∧ hexVal 0x47 = none ∧ hexVal 0x39 = some 9 ∧
      hexVal 0x38 ≠ some 9 ∧ hexVal 0x65 = hexVal 0x45 ∧
      (match txtEncode State.reset.cfg (.doorContact 1 1 .opened) with
        | .frame f => f[f.length - 2]?
        | .unencodable => none) = some 0x45 := by decide +kernel

/-- TxtDecodeAnswersEveryLine: five bytes, no newline, one byte too long (TV24a), and an accepted line. -/
theorem witness_txt_decode_lengths :
    resultOf (.txtDecode (ascii "<>|4" ++ [0x0A])) State.reset = some (.txtDecoded (.reject .txtTruncated)) ∧
      heartbeatLine.dropLast.getLast? ≠ some 0x0A ∧ (List.replicate 256 (0x61 : Byte) ++ [0x0A]).length = 257 ∧
      resultOf (.txtDecode (List.replicate 256 0x61 ++ [0x0A])) State.reset =
        some (.txtDecoded (.reject .txtOverlong)) ∧
      resultOf (.txtDecode heartbeatLine) State.reset = some (.txtDecoded (.msg (.heartbeat 1))) := by decide +kernel

/-- TxtRowsAcceptExactlyTheirMessages: an object of every row. -/
theorem witness_text_rows :
    configOk State.reset.cfg = true ∧
      ([(.cardRead, .cardRead 1 2 1000 26), (.heartbeat, .heartbeat 1), (.rexEvent, .rexEvent 1 1),
          (.doorContact, .doorContact 1 1 .closed), (.feedbackGrant, .feedbackGrant 1 2),
          (.feedbackDeny, .feedbackDeny 1 2), (.identify, .identify), (.setAddress, .setAddress 5 (some [])),
          (.identifyResponse, .identifyResponse (ascii "identity") [] 0 2),
          (.addressAck, .addressAck 0 5)] : List (TxtKind × TxtMsg)).all (fun p =>
        objectOk (txtObject p.2) && decide (txtSelect Config.default (txtObject p.2) = .variant p.1)) = true := by
  decide +kernel

/-- TxtRowsAgreeWithTxtDecode. -/
theorem witness_text_row_and_line :
    objectOk heartbeatObj = true ∧ (txtFrame (objectBytes heartbeatObj)).length ≤ State.reset.cfg.txtMaxLine ∧
      (Instr.txtHeartbeat heartbeatObj).wf State.reset.cfg = true ∧
      encode (.txtHeartbeat heartbeatObj) = .line (txtFrame (objectBytes heartbeatObj)) := by decide +kernel

/-- UnassignedTextTypeGivesUnknown, both clauses. -/
theorem witness_unassigned_text_type :
    ([(ascii "x", .num 1), (ascii "type", .str (ascii "foo"))] : JObj).lookup (ascii "type") =
        some (.str (ascii "foo")) ∧
      objectOk [(ascii "x", .num 1), (ascii "type", .str (ascii "foo"))] = true ∧
      (txtFrame (objectBytes [(ascii "x", .num 1), (ascii "type", .str (ascii "foo"))])).length ≤
        State.reset.cfg.txtMaxLine ∧
      ([(ascii "type", .str (ascii "command")), (ascii "cmd", .str (ascii "reboot"))] : JObj).lookup
        (ascii "type") = some (.str (ascii "command")) ∧
      ascii "foo" ∉ [ascii "command", ascii "card_read", ascii "heartbeat", ascii "event_rex",
        ascii "event_door_contact", ascii "ack_set_address"] ∧ ascii "foo" ∉ State.reset.cfg.deviceKinds ∧
      ([(ascii "type", .str (ascii "command")), (ascii "cmd", .str (ascii "reboot"))] : JObj).lookup (ascii "cmd") =
        some (.str (ascii "reboot")) ∧
      ascii "reboot" ∉ [ascii "feedback_grant", ascii "feedback_deny", ascii "identify", ascii "set_address"] := by
  decide +kernel

/-- Ev2TxtFramesTheEvent: a limit of the frame's own length, 68 bytes, and one byte less. -/
theorem witness_ev2txt :
    let frame := textLine "\"type\":\"card_read\",\"hub_addr\":1,\"rdr_id\":1,\"card\":1,\"bits\":1" "60"
    let limited (n : Nat) : State := { State.reset with cfg := { Config.default with txtMaxLine := n } }
    frame.length = 68 ∧
      nextOf (exec (.ev2txt ⟨1, 1, 1⟩ 1) (limited 68)) =
        some { limited 68 with result := .encoded (.frame frame) } ∧
      nextOf (exec (.ev2txt ⟨1, 1, 1⟩ 1) (limited 67)) =
        some { limited 67 with diags := [⟨.unencodable, 1⟩], result := .encoded .unencodable } := by decide +kernel

/-- RxbyteFollowsTheLineReceiver: the buffer one byte below its bound and at it. -/
theorem witness_rxbyte :
    (List.replicate 254 (0x5A : Byte)).length ≠ State.reset.cfg.txtMaxLine - 1 ∧
      (List.replicate 255 (0x5A : Byte)).length = State.reset.cfg.txtMaxLine - 1 ∧
      State.reset.rxdiscard = false ∧ (0x5A : Byte) ≠ 0x0A := by decide +kernel

/-- LineReceiverDeliversWholeLines: with lines of 8 bytes, a line of 7 bytes before its newline, and one of 8. -/
theorem witness_line_receiver :
    let s : State := { State.reset with cfg := { Config.default with txtMaxLine := 8 } }
    8 ≤ s.cfg.txtMaxLine ∧ s.rxbuf = [] ∧ s.rxdiscard = false ∧ (0x0A : Byte) ∉ List.replicate 8 (0x5A : Byte) ∧
      feedBytes (List.replicate 7 0x5A ++ [0x0A]) s =
        some ({ s with result := .received (some (.reject .txtEnvelope)) },
          List.replicate 7 (.received none) ++ [.received (some (.reject .txtEnvelope))]) ∧
      feedBytes (List.replicate 8 0x5A ++ [0x0A]) s =
        some ({ s with result := .received none },
          List.replicate 7 (.received none) ++ [.received (some (.reject .txtOverlong)), .received none]) := by
  decide +kernel

/-- CodecOperationsChangeNoRegister: a row, a request, a bridge and RXBYTE that answer. -/
theorem witness_codec_operations :
    (∃ s', exec (.binHeartbeat 0x00 [] 0x82) State.reset = .next s') ∧
      (∃ s', exec (.binEncode (some .heartbeat)) State.reset = .next s') ∧
      (∃ s', exec (.ev2bin ⟨1, 1, 1⟩) State.reset = .next s') ∧ ∃ s', exec (.rxbyte 0x3C) State.reset = .next s' :=
  ⟨⟨_, rfl⟩, ⟨_, rfl⟩, ⟨_, rfl⟩, ⟨_, rfl⟩⟩

/-- BinDecodeChecksInItsOrder, each step beside its neighbour: the lengths L + 2, L + 3 and L + 4, the greatest L,
the checksum, and a frame that passes. -/
theorem witness_bin_check_order :
    resultOf (.binDecode [0x00]) State.reset = some (.binDecoded .filler) ∧
      resultOf (.binDecode [0x01, 0x00]) State.reset = some (.binDecoded (.reject .binTruncated)) ∧
      ([0x02, 0x01, 0x03] : Bytes).length < (0x01 : Byte).toNat + 3 ∧
      resultOf (.binDecode [0x02, 0x01, 0x03]) State.reset = some (.binDecoded (.reject .binTruncated)) ∧
      (0x01 : Byte).toNat + 3 < ([0x02, 0x01, 0x05, 0x06, 0x00] : Bytes).length ∧
      resultOf (.binDecode [0x02, 0x01, 0x05, 0x06, 0x00]) State.reset = some (.binDecoded (.reject .binLength)) ∧
      resultOf (.binDecode (0x02 :: 0xFF :: List.replicate 255 0x05)) State.reset =
        some (.binDecoded (.reject .binTruncated)) ∧
      (0x07 : Byte) ≠ xorBytes [0x02, 0x01, 0x05] ∧
      resultOf (.binDecode [0x02, 0x01, 0x05, 0x07]) State.reset = some (.binDecoded (.reject .binChecksum)) ∧
      (0x06 : Byte) = xorBytes [0x02, 0x01, 0x05] ∧
      resultOf (.binDecode [0x02, 0x01, 0x05, 0x06]) State.reset = some (.binDecoded (.msg (.setAddress 5))) := by
  decide +kernel

/-- TxtDecodeChecksInItsOrder, up to the checksum: the steps not in witness_txt_decode_lengths, on TV18c, TV17 and
TV16. -/
theorem witness_txt_check_order :
    (ascii "<" ++ [0x7B, 0x7D] ++ ascii ">|" ++ [0x0A])[6 - 5]? ≠ some 0x3E ∧
      resultOf (.txtDecode (ascii "<" ++ [0x7B, 0x7D] ++ ascii ">|" ++ [0x0A])) State.reset =
        some (.txtDecoded (.reject .txtEnvelope)) ∧
      textLine "\"type\":\"heartbeat\",\"hub_addr\":1" "4G" = lineOfParts (objectBytes heartbeatObj) 0x34 0x47 ∧
      (textLine "\"type\":\"heartbeat\",\"hub_addr\":1" "4G").length ≤ State.reset.cfg.txtMaxLine ∧
      HexDigit 0x34 4 ∧ HexDigit 0x39 9 ∧ 16 * 4 + 9 ≠ (xorBytes (objectBytes heartbeatObj)).toNat ∧
      HexDigit 0x38 8 ∧ 16 * 4 + 8 = (xorBytes (objectBytes heartbeatObj)).toNat := by decide +kernel

/-- TxtDecodeChecksInItsOrder, past the checksum: a payload that spells no object (TV20b), one without a string
type (TV22i) and a command without a cmd (TV22j). -/
theorem witness_txt_payload_order :
    let untyped : JObj := [(ascii "hub_addr", .num 1)]
    let command : JObj := [(ascii "type", .str (ascii "command"))]
    resultOf (.txtDecode (textLine "\"type\":\"heartbeat\",\"hub_addr\":1,\"hub_addr\":2" "5F")) State.reset =
        some (.txtDecoded (.reject .txtJson)) ∧
      objectOk untyped = true ∧ lineOfParts (objectBytes untyped) 0x33 0x45 = textLine "\"hub_addr\":1" "3E" ∧
      HexDigit 0x33 3 ∧ HexDigit 0x45 14 ∧ 16 * 3 + 14 = (xorBytes (objectBytes untyped)).toNat ∧
      untyped.lookup (ascii "type") = none ∧
      resultOf (.txtDecode (textLine "\"hub_addr\":1" "3E")) State.reset = some (.txtDecoded (.reject .txtFields)) ∧
      resultOf (.txtDecode (textLine "\"type\":1" "15")) State.reset = some (.txtDecoded (.reject .txtFields)) ∧
      objectOk command = true ∧ command.lookup (ascii "type") = some (.str (ascii "command")) ∧
      command.lookup (ascii "cmd") = none ∧
      resultOf (.txtDecode (textLine "\"type\":\"command\"" "43")) State.reset =
        some (.txtDecoded (.reject .txtFields)) := by decide +kernel

/-- The hypotheses of the grammar clause of TxtDecodeChecksInItsOrder are met: the empty payload spells no object,
and its checksum is 00. -/
theorem witness_txt_no_object :
    (∀ o, objectOk o = true → ([] : Bytes) ≠ objectBytes o) ∧ HexDigit 0x30 0 ∧ 16 * 0 + 0 = (xorBytes []).toNat ∧
      resultOf (.txtDecode (lineOfParts [] 0x30 0x30)) State.reset = some (.txtDecoded (.reject .txtJson)) :=
  ⟨fun o _ => by simp [objectBytes], by decide, by decide, by decide +kernel⟩

/-- ChecksumDigitsAreUppercaseOutAndEitherCaseIn: the ends of the three ranges of digits, the bytes beside them,
and a frame with a letter digit, read in both cases (TV15). -/
theorem witness_checksum_digits :
    HexDigit 0x30 0 ∧ HexDigit 0x39 9 ∧ HexDigit 0x41 10 ∧ HexDigit 0x46 15 ∧ HexDigit 0x61 10 ∧ HexDigit 0x66 15 ∧
      ([0x2F, 0x3A, 0x40, 0x47, 0x60, 0x67] : List Byte).all (fun b =>
        (List.range 16).all fun n => !decide (HexDigit b n)) = true ∧
      hex2 0x4E = ascii "4E" ∧ hex2 0xAF = ascii "AF" ∧ hex2 0x09 = ascii "09" ∧
      resultOf (.txtDecode (textLine
        "\"type\":\"event_door_contact\",\"hub_addr\":1,\"rdr_id\":1,\"state\":\"open\"" "4e")) State.reset =
        some (.txtDecoded (.msg (.doorContact 1 1 .opened))) := by decide +kernel

/-- SweepFillsTheQueueAndDropsTheRest: two due trains with room for one, in both orders (test_sweep_order), with
room for none, and with room for both. -/
theorem witness_sweep_without_room :
    let evs (l : List Nat) := l.filterMap fun c => trainEvent oneSlot c (bothDue.chan c)
    let full : State := { bothDue with evq := [⟨1, 1, 1⟩] }
    ([1, 0] : List Nat).Perm (dueList bothDue 51000) ∧ bothDue.cfg.evqCap - bothDue.evq.length = 1 ∧
      (evs [0, 1]).take 1 = [⟨1, 1, 1⟩] ∧ (evs [1, 0]).take 1 = [⟨2, 0, 1⟩] ∧
      ((sweepBy id 51000 full).evq, (sweepBy id 51000 full).diags) =
        ([⟨1, 1, 1⟩], [⟨.evqOverflow, 1⟩, ⟨.evqOverflow, 2⟩]) ∧
      (sweepBy id 51000 { bothDue with cfg := Config.default }).diags = [] := by decide

end Sys2Proof.Tests
end

/-! ## Conditions of the configuration, and what an operation can answer -/

namespace Sys2Proof

/-- A byte of R205's alphabet, as its range and the two bytes left out. -/
theorem isSchar_iff (b : Byte) :
    isSchar b = true ↔ 0x20 ≤ b.toNat ∧ b.toNat ≤ 0x7E ∧ b.toNat ≠ 0x22 ∧ b.toNat ≠ 0x5C := by
  have hquote : b ≠ quote ↔ b.toNat ≠ 0x22 := BitVec.toNat_inj.symm.not
  have hbackslash : b ≠ backslash ↔ b.toNat ≠ 0x5C := BitVec.toNat_inj.symm.not
  simp only [isSchar, Bool.and_eq_true, decide_eq_true_iff, bne_iff_ne, hquote, hbackslash, and_assoc]

theorem isStr_iff (s : Bytes) :
    isStr s = true ↔ ∀ b ∈ s, 0x20 ≤ b.toNat ∧ b.toNat ≤ 0x7E ∧ b.toNat ≠ 0x22 ∧ b.toNat ≠ 0x5C := by
  simp only [isStr, List.all_eq_true, isSchar_iff]

theorem not_mem_reservedTypes_iff (k : Bytes) :
    k ∉ reservedTypes ↔ k ≠ ascii "card_read" ∧ k ≠ ascii "heartbeat" ∧ k ≠ ascii "event_rex" ∧
      k ≠ ascii "event_door_contact" ∧ k ≠ ascii "command" ∧ k ≠ ascii "ack_set_address" := by
  simp only [reservedTypes, List.mem_cons, List.not_mem_nil, or_false, not_or, ne_eq]

theorem deviceKindOk_iff (k : Bytes) :
    deviceKindOk k = true ↔ k ≠ [] ∧ isStr k = true ∧ k ∉ reservedTypes := by
  simp only [deviceKindOk, Bool.and_eq_true, bne_iff_ne, Bool.not_eq_true',
    ← Bool.not_eq_true, List.contains_iff_mem, and_assoc]

/-- The check of R8, condition by condition. -/
theorem configOk_iff (cfg : Config) :
    configOk cfg = true ↔
      (1 ≤ cfg.readerId.length ∧ cfg.readerId.length ≤ 255) ∧ cfg.readerId.Nodup ∧
        1 ≤ cfg.evqCap ∧ 8 ≤ cfg.txtMaxLine ∧
        (Config.minPulseUs < Config.idleUs ∧ Config.idleUs < 2 ^ (Config.tsWidth - 1)) ∧
        ∀ k ∈ cfg.deviceKinds, deviceKindOk k = true := by
  simp only [configOk, Bool.and_eq_true, decide_eq_true_iff, List.all_eq_true, and_assoc]
  exact Iff.rfl

end Sys2Proof

namespace Sys2Proof.Machine

/-- The refusals an operation's meaning can raise about its own operands (R276). -/
def operandRefusals : List Refusal := [.badEdge, .badSample, .badBinMsg, .badTxtMsg, .notThisRow]

/-- An operation's answer: a next state, or, only if the operation is ill-formed, a refusal of its operands. -/
inductive Answers (wf : Bool) : Host.Outcome State Fault Refusal → Prop
  | next (s' : State) : Answers wf (.next s')
  | refused (r : Refusal) (hwf : wf = false) (hr : r ∈ operandRefusals) : Answers wf (.refused r)

/-- A meaning guarded by a check that every well-formed operation passes. -/
theorem answers_guard {wf : Bool} {g : Prop} [Decidable g] (hg : wf = true → g) {r : Refusal}
    (hr : r ∈ operandRefusals) (s' : State) : Answers wf (if g then .next s' else .refused r) := by
  split
  · exact .next s'
  · next h => exact .refused r (Bool.eq_false_iff.2 fun hwf => h (hg hwf)) hr

theorem txtRow_answers (k : TxtKind) (schema : JObj → TxtResult) (o : JObj) (s : State) :
    Answers (txtRowWf s.cfg (.variant k) o) (txtRow k schema o s) :=
  answers_guard (fun h => by
    simp only [txtRowWf, Bool.and_eq_true, decide_eq_true_iff] at h
    obtain ⟨⟨-, hsel⟩, -⟩ := h
    exact hsel) (by simp [operandRefusals]) _

theorem execTxtUnknown_answers (o : JObj) (s : State) :
    Answers (txtUnknownWf s.cfg o) (execTxtUnknown o s) := by
  unfold execTxtUnknown
  split
  · exact .next _
  · next hsel =>
    refine .refused _ ?_ (by simp [operandRefusals])
    cases h : txtSelect s.cfg o with
    | unknown ty cmd => exact absurd h (hsel ty cmd)
    | _ => simp [txtUnknownWf, h]

theorem execBinUnknown_answers (tag len : Byte) (fields : Bytes) (cs : Byte) (s : State) :
    Answers (binKindOf tag == none) (execBinUnknown tag len fields cs s) :=
  answers_guard eq_of_beq (by simp [operandRefusals]) _

theorem execPop_answers (wf : Bool) (s : State) : Answers wf (execPop s) := by
  unfold execPop
  split
  · exact .next _
  · exact .next _

theorem execEv2bin_answers (wf : Bool) (ev : ReaderEvent) (s : State) : Answers wf (execEv2bin ev s) := by
  unfold execEv2bin
  split
  · exact .next _
  · exact .next _

theorem execEv2txt_answers (wf : Bool) (ev : ReaderEvent) (a : Byte) (s : State) :
    Answers wf (execEv2txt ev a s) := by
  simp only [execEv2txt]
  split
  · exact .next _
  · exact .next _

/-- Every operation answers a next state, or is ill-formed and refused for its operands (R266, R276). -/
theorem exec_answers (i : Instr) (s : State) : Answers (i.wf s.cfg) (exec i s) := by
  cases i with
  | binUnknown tag len fields cs => exact execBinUnknown_answers tag len fields cs s
  | txtCardRead o | txtHeartbeat o | txtRexEvent o | txtDoorContact o | txtFeedbackGrant o
  | txtFeedbackDeny o | txtIdentify o | txtSetAddress o | txtIdentifyResponse o | txtAddressAck o =>
    exact txtRow_answers _ _ o s
  | txtUnknown o => exact execTxtUnknown_answers o s
  | edge c b t => exact answers_guard id (by simp [operandRefusals]) _
  | sample t d0 d1 => exact answers_guard id (by simp [operandRefusals]) _
  | binEncode m => exact answers_guard id (by simp [operandRefusals]) _
  | txtEncode m => exact answers_guard id (by simp [operandRefusals]) _
  | pop => exact execPop_answers _ s
  | ev2bin ev => exact execEv2bin_answers _ ev s
  | ev2txt ev a => exact execEv2txt_answers _ ev a s
  | _ => exact .next _

/-- An operation refuses its operands, never the configuration. -/
theorem exec_ne_badConfiguration (i : Instr) (s : State) : exec i s ≠ .refused .badConfiguration := by
  intro h
  have ha := exec_answers i s
  rw [h] at ha
  cases ha with
  | refused _ _ hr => simp [operandRefusals] at hr

/-- The configuration is refused exactly where the check of R8 fails. -/
theorem step_eq_badConfiguration_iff (s : State) :
    step s = .refused .badConfiguration ↔ ¬configOk s.cfg = true := by
  by_cases hcfg : configOk s.cfg = true
  · have hstep : step s ≠ .refused .badConfiguration := by
      rw [step, if_pos hcfg]
      split
      · simp
      · simp
      · exact exec_ne_badConfiguration _ _
    simp [hstep, hcfg]
  · simp [step, hcfg]

end Sys2Proof.Machine

/-! ## The statements of 00_scope.md -/

namespace Sys2Proof.Scope

open Sys2Proof Sys2Proof.Machine

/-- Settles O3: `configOk` is the conjunction of R8's conditions, and no arm of `exec` raises the refusal itself. -/
theorem configurationsOutsideR8AreRefused : Obligations.ConfigurationsOutsideR8AreRefused := by
  intro s
  have hids : ∀ r ∈ s.cfg.readerId, r.toNat ≤ 255 := fun r _ => Nat.le_of_lt_succ r.isLt
  rw [step_eq_badConfiguration_iff, configOk_iff]
  simp only [deviceKindOk_iff, isStr_iff, not_mem_reservedTypes_iff, eq_true hids, true_and]

/-- Settles O16 by `dec_spec`: 20 digits reach past `2^64`. -/
theorem decimalSpellingIsCanonical : Obligations.DecimalSpellingIsCanonical := by
  intro n hn
  obtain ⟨hvalue, hdigits, hpos, hlen, hhead, hzero⟩ := dec_spec hn
  have hlead : dec n = [0x30] ∨ (dec n).head? ≠ some 0x30 := (eq_or_ne n 0).imp hzero hhead
  exact ⟨hvalue, fun d hd => of_decide_eq_true (hdigits d hd), hlead, hpos, hlen⟩

/-- Settles O18: subtraction of timestamps wraps at `2^32`. -/
theorem elapsedTimeIsTheDifferenceModulo2To32 : Obligations.ElapsedTimeIsTheDifferenceModulo2To32 := by
  intro a t
  have ha : a.toNat < 2 ^ 32 := a.isLt
  rw [elapsed, BitVec.toNat_sub]
  congr 1
  omega

end Sys2Proof.Scope

/-! ## What a step and an operation can do, and what they keep -/

namespace Sys2Proof.Machine

/-! ### One step -/

/-- A step under a configuration of R8 whose next input spells an operation runs it (R21, R55). -/
theorem step_of_fetch {s : State} {i : Instr} (hcfg : configOk s.cfg = true) (hf : s.fetch = some (.ok i)) :
    step s = exec i s.consume := by
  rw [step, if_pos hcfg]
  simp only [hf]

/-- A step that answers a next state was idle, or ran the operation its next input spells. -/
theorem step_next_cases {s s' : State} (h : step s = .next s') :
    (s.input = [] ∧ s' = s) ∨ ∃ i, s.fetch = some (.ok i) ∧ exec i s.consume = .next s' := by
  by_cases hcfg : configOk s.cfg = true
  · rw [step, if_pos hcfg] at h
    split at h
    · next hf =>
      obtain rfl := Host.Outcome.next.inj h
      exact .inl ⟨by simpa [State.fetch] using hf, rfl⟩
    · cases h
    · next i hf => exact .inr ⟨i, hf, h⟩
  · rw [step, if_neg hcfg] at h
    cases h

/-- What every step of a machine keeps holds of every state that a run reaches from one that has it. -/
theorem run_keeps {M : Host.Core} {P : M.State → Prop}
    (hstep : ∀ s s', P s → M.step s = .next s' → P s') (n : Nat) {s s' : M.State}
    (hs : P s) (h : M.run n s = .next s') : P s' := by
  induction n generalizing s with
  | zero =>
    obtain rfl := Host.Outcome.next.inj h
    exact hs
  | succ n ih =>
    rw [Host.Core.run] at h
    split at h
    · next u hu => exact ih (hstep s u hs hu) h
    · cases h
    · cases h

/-! ### One operation -/

/-- The operations that write a register: the Decoder Unit's without LOOKUP, the text receiver's, and RESET. -/
def writesRegisters : Instr → Bool
  | .edge _ _ _ | .tick _ | .sample _ _ _ | .pop | .rxbyte _ | .reset => true
  | _ => false

/-- What an operation that answers a next state has done: one of the register operations, or a new output and
nothing else. -/
inductive Effect (s : State) : Instr → State → Prop
  | edge {c b : Nat} (t : Stamp) (hok : edgeOk s.cfg c b = true) : Effect s (.edge c b t) (edgeOp c b t s.begin)
  | tick (t : Stamp) : Effect s (.tick t) (sweep t s.begin)
  | sample (t : Stamp) {d0 d1 : List Nat} (hok : sampleOk s.cfg d0 d1 = true) :
      Effect s (.sample t d0 d1) (sampleOp t d0 d1 s.begin)
  | pop : Effect s .pop ({ s with evq := s.evq.tail }.answered (.popped s.evq.head?))
  | rxbyte (x : Byte) : Effect s (.rxbyte x) (receive x s.begin)
  | reset : Effect s .reset (resetRegisters s.begin)
  | outputs {i : Instr} (hi : writesRegisters i = false) (d : List Diag) (r : Result) :
      Effect s i { s with diags := d, result := r }

/-- A guarded meaning that answers a next state has passed its guard. -/
theorem eq_of_guard_next {g : Prop} [Decidable g] {u s' : State} {r : Refusal}
    (h : (if g then Host.Outcome.next u else .refused r : Host.Outcome State Fault Refusal) = .next s') :
    g ∧ s' = u := by
  split at h
  · next hg => exact ⟨hg, (Host.Outcome.next.inj h).symm⟩
  · cases h

/-- A meaning that only answers writes outputs alone. -/
theorem effect_of_answer {i : Instr} (hi : writesRegisters i = false) {s s' : State} {d : List Diag} {r : Result}
    (h : (Host.Outcome.next { s with diags := d, result := r } : Host.Outcome State Fault Refusal) = .next s') :
    Effect s i s' := by
  obtain rfl := Host.Outcome.next.inj h
  exact .outputs hi d r

/-- POP takes the head of the queue, if there is one, and returns it (R120). -/
theorem execPop_eq (s : State) :
    execPop s = .next ({ s with evq := s.evq.tail }.answered (.popped s.evq.head?)) := by
  unfold execPop
  split
  · next h => simp [h, begin_answer, State.answered]
  · next ev rest h => simp [h, State.begin, State.answer, State.answered]

theorem execTxtUnknown_effect {o : JObj} {s s' : State} (h : execTxtUnknown o s = .next s') :
    Effect s (.txtUnknown o) s' := by
  unfold execTxtUnknown at h
  split at h
  · exact effect_of_answer rfl h
  · cases h

theorem execEv2bin_effect {ev : ReaderEvent} {s s' : State} (h : execEv2bin ev s = .next s') :
    Effect s (.ev2bin ev) s' := by
  unfold execEv2bin at h
  split at h
  · exact effect_of_answer rfl h
  · exact effect_of_answer rfl h

theorem execEv2txt_effect {ev : ReaderEvent} {a : Byte} {s s' : State} (h : execEv2txt ev a s = .next s') :
    Effect s (.ev2txt ev a) s' := by
  simp only [execEv2txt] at h
  split at h
  · exact effect_of_answer rfl h
  · exact effect_of_answer rfl h

/-- An operation that answers has done what its row says: six of them write registers, the others outputs. -/
theorem exec_effect {i : Instr} {s s' : State} (h : exec i s = .next s') : Effect s i s' := by
  cases i with
  | edge c b t =>
    obtain ⟨hok, rfl⟩ := eq_of_guard_next h
    exact .edge t hok
  | tick t =>
    obtain rfl := Host.Outcome.next.inj h
    exact .tick t
  | sample t d0 d1 =>
    obtain ⟨hok, rfl⟩ := eq_of_guard_next h
    exact .sample t hok
  | pop =>
    obtain rfl := Host.Outcome.next.inj ((execPop_eq s).symm.trans h)
    exact .pop
  | rxbyte x =>
    obtain rfl := Host.Outcome.next.inj h
    exact .rxbyte x
  | reset =>
    obtain rfl := Host.Outcome.next.inj h
    exact .reset
  | binUnknown tag len fields cs =>
    obtain ⟨-, rfl⟩ := eq_of_guard_next h
    exact .outputs rfl _ _
  | txtCardRead o | txtHeartbeat o | txtRexEvent o | txtDoorContact o | txtFeedbackGrant o
  | txtFeedbackDeny o | txtIdentify o | txtSetAddress o | txtIdentifyResponse o | txtAddressAck o
  | binEncode o | txtEncode o =>
    obtain ⟨-, rfl⟩ := eq_of_guard_next h
    exact .outputs rfl _ _
  | txtUnknown o => exact execTxtUnknown_effect h
  | ev2bin ev => exact execEv2bin_effect h
  | ev2txt ev a => exact execEv2txt_effect h
  | _ => exact effect_of_answer rfl h

/-! ### Frames -/

/-- What the timestamped operations keep: the text receiver, the environment and the result, and of the queue
all that it holds (R27, R57, R58). -/
abbrev TimedFrame (s s' : State) : Prop :=
  SameReceiver s s' ∧ SameEnvironment s s' ∧ s.evq <+: s'.evq ∧ s'.result = s.result

theorem sweep_timedFrame (t : Stamp) (s : State) : TimedFrame s (sweep t s) := by
  obtain ⟨hbuf, hdiscard, hcfg, hresult, hinput, -, evs, hevq⟩ := sweep_frame t s
  exact ⟨⟨hbuf, hdiscard⟩, ⟨hcfg, hinput⟩, ⟨evs, hevq.symm⟩, hresult⟩

theorem edgeOp_timedFrame (c b : Nat) (t : Stamp) (s : State) : TimedFrame s (edgeOp c b t s) := by
  rw [edgeOp_spec]
  exact sweep_timedFrame t s

/-- After its sweep a sample writes nothing but channels and the count of draws. -/
theorem sampleOp_eq_sweep_with (t : Stamp) (d0 d1 : List Nat) (s : State) :
    ∃ chans draws, sampleOp t d0 d1 s = { sweep t s with chans := chans, draws := draws } := by
  obtain ⟨-, heq, -⟩ := sampleChans_spec t (fun c => (levelOf d0 c, levelOf d1 c)) (sweep t s)
    (dueList_sweep t s) s.cfg.numReaders
  exact ⟨_, _, heq⟩

theorem sampleOp_timedFrame (t : Stamp) (d0 d1 : List Nat) (s : State) :
    TimedFrame s (sampleOp t d0 d1 s) := by
  obtain ⟨chans, draws, heq⟩ := sampleOp_eq_sweep_with t d0 d1 s
  rw [heq]
  exact sweep_timedFrame t s

/-- RXBYTE writes the receiver's registers and the result alone (R230). -/
theorem receive_frame (x : Byte) (s : State) :
    (receive x s).chans = s.chans ∧ (receive x s).evq = s.evq ∧ SameEnvironment s (receive x s) ∧
      (receive x s).draws = s.draws ∧ (receive x s).diags = s.diags := by
  obtain ⟨-, -, h⟩ | ⟨-, -, h⟩ | ⟨-, -, h⟩ | ⟨-, -, -, h⟩ | ⟨-, -, -, h⟩ := receive_cases x s
  all_goals
    rw [h]
    exact ⟨rfl, rfl, ⟨rfl, rfl⟩, rfl, rfl⟩

/-- No operation writes the configuration or the inputs to come (R32). -/
theorem exec_keeps_environment {i : Instr} {s s' : State} (h : exec i s = .next s') : SameEnvironment s s' := by
  cases exec_effect h with
  | edge t _ =>
    obtain ⟨-, henv, -⟩ := edgeOp_timedFrame _ _ t s.begin
    exact henv
  | tick t =>
    obtain ⟨-, henv, -⟩ := sweep_timedFrame t s.begin
    exact henv
  | sample t _ =>
    obtain ⟨-, henv, -⟩ := sampleOp_timedFrame t _ _ s.begin
    exact henv
  | rxbyte x =>
    obtain ⟨-, -, henv, -⟩ := receive_frame x s.begin
    exact henv
  | pop | reset | outputs => exact ⟨rfl, rfl⟩

/-! ### The register invariant -/

/-- The channels of a state are well-formed exactly where every channel reads as a well-formed one. -/
theorem chans_ok_iff (s : State) : (∀ ch ∈ s.chans, ch.Ok) ↔ ∀ c, (s.chan c).Ok := by
  constructor
  · intro h c
    by_cases hc : c < s.chans.length
    · simpa [State.chan, hc] using h _ (List.getElem_mem hc)
    · rw [chan_of_length_le s (Nat.not_lt.1 hc)]
      exact ok_reset
  · intro h ch hch
    obtain ⟨c, hc, rfl⟩ := List.getElem_of_mem hch
    simpa [State.chan, hc] using h c

/-- A write that keeps the channel well-formed keeps the invariant. -/
theorem inv_modifyChan {s : State} (h : s.Inv) {c : Nat} {f : Channel → Channel}
    (hf : (s.chan c).Ok → (f (s.chan c)).Ok) : (s.modifyChan c f).Inv := by
  obtain ⟨hlen, hchans, hqueue⟩ := h
  rw [chans_ok_iff] at hchans
  refine ⟨(length_modifyChan s c f).trans hlen, (chans_ok_iff _).2 fun c' => ?_, hqueue⟩
  rw [chan_modifyChan]
  split
  · exact hf (hchans c)
  · exact hchans c'

/-- FINALIZE of a channel of the block keeps the invariant (R116). -/
theorem inv_finalize {c : Nat} {s : State} (hc : c < s.cfg.numReaders) (h : s.Inv) : (finalize c s).Inv := by
  obtain ⟨hlen, hchans, hcap, hevents, hreceiver⟩ := h
  rw [chans_ok_iff] at hchans
  obtain ⟨hbuf, hdiscard, hcfg, -, -, -, hwritten⟩ := finalize_frame c s
  obtain ⟨hcap', hevents'⟩ := finalize_events hc (hchans c) hcap hevents
  have hchans' : ∀ c', ((finalize c s).chan c').Ok := by
    intro c'
    rw [finalize_chan]
    split
    · exact ok_finalizedChan _
    · exact hchans c'
  refine ⟨by rw [hwritten, List.length_modify, hlen, hcfg], (chans_ok_iff _).2 hchans', ?_⟩
  rw [ReceiverOk, hcfg, hbuf, hdiscard]
  exact ⟨hcap', hevents', hreceiver⟩

theorem inv_finalizeAll {l : List Nat} {s : State} (hl : ∀ c ∈ l, c < s.cfg.numReaders) (h : s.Inv) :
    (finalizeAll l s).Inv := by
  induction l generalizing s with
  | nil => exact h
  | cons c l ih =>
    obtain ⟨-, -, hcfg, -⟩ := finalize_frame c s
    obtain ⟨hc, hrest⟩ := List.forall_mem_cons.1 hl
    exact ih (by rwa [hcfg]) (inv_finalize hc h)

/-- A sweep finalizes channels of the block only, so it keeps the invariant (R115). -/
theorem inv_sweep (t : Stamp) {s : State} (h : s.Inv) : (sweep t s).Inv := by
  obtain ⟨l, d, hperm, heq, -⟩ := sweep_spec t s
  rw [heq]
  exact inv_finalizeAll (fun c hc => (mem_dueList.1 (hperm.mem_iff.1 hc)).1) h

theorem inv_edgeOp (c : Nat) {b : Nat} (hb : b ≤ 1) (t : Stamp) {s : State} (h : s.Inv) :
    (edgeOp c b t s).Inv := by
  rw [edgeOp_spec]
  exact inv_modifyChan (inv_sweep t h) fun hok => ok_afterEdge hok hb t

/-- A sample keeps a channel well-formed: each edge it takes is on line 0 or 1 (R122). -/
theorem ok_afterSample {ch : Channel} (h : ch.Ok) (d1First : Bool) (t : Stamp) (l0 l1 : Bool) :
    (afterSample d1First t l0 l1 ch).Ok := by
  have hloaded := ok_loadLines h l0 l1 true
  have hline : (if d1First then 1 else 0) ≤ 1 := by
    cases d1First
    · exact Nat.zero_le 1
    · exact Nat.le_refl 1
  simp only [afterSample]
  split
  · split
    · exact hloaded
    · next b hlines =>
      have hb := mem_fallingLines.1 (hlines ▸ List.mem_singleton_self b)
      exact ok_afterEdge hloaded (by omega) t
    · exact ok_afterEdge hloaded hline t
  · exact hloaded

/-- A sample keeps the invariant: after its sweep no timer is due, and each channel is written once. -/
theorem inv_sampleOp (t : Stamp) (d0 d1 : List Nat) {s : State} (h : s.Inv) : (sampleOp t d0 d1 s).Inv := by
  have hfold : (sampleOp t d0 d1 s).Inv ∧ dueList (sampleOp t d0 d1 s) t = [] := by
    refine List.foldlRecOn (motive := fun u : State => u.Inv ∧ dueList u t = []) _ _
      ⟨inv_sweep t h, dueList_sweep t s⟩ ?_
    rintro u ⟨hinv, hdue⟩ c -
    obtain ⟨d1First, draws, heq⟩ := sampleChan_spec t c (levelOf d0 c) (levelOf d1 c) u hdue
    rw [heq]
    exact ⟨inv_modifyChan hinv fun hok => ok_afterSample hok _ _ _ _,
      dueList_modifyChan hdue not_due_afterSample⟩
  exact hfold.1

/-- Taking the oldest event keeps the invariant (R120). -/
theorem inv_pop {s : State} (h : s.Inv) (r : Result) : ({ s with evq := s.evq.tail }.answered r).Inv := by
  obtain ⟨hlen, hchans, hcap, hevents, hreceiver⟩ := h
  have hcap' : s.evq.tail.length ≤ s.cfg.evqCap := by
    rw [List.length_tail]
    omega
  exact ⟨hlen, hchans, hcap', fun ev hev => hevents ev (List.mem_of_mem_tail hev), hreceiver⟩

theorem inv_receive (x : Byte) {s : State} (h : s.Inv) : (receive x s).Inv := by
  obtain ⟨hlen, hchans, hcap, hevents, hreceiver⟩ := h
  obtain ⟨hsame, hqueue, ⟨hcfg, -⟩, -⟩ := receive_frame x s
  have hreceiver' := receiverOk_receive x hreceiver
  rw [State.Inv, hsame, hqueue, hcfg]
  exact ⟨hlen, hchans, hcap, hevents, hreceiver'⟩

/-- The registers of R35 have the invariant, under every configuration. -/
theorem inv_resetRegisters (s : State) : (resetRegisters s).Inv := by
  refine ⟨by simp, ?_, by simp, by simp, by simp [ReceiverOk]⟩
  intro ch hch
  rw [List.eq_of_mem_replicate hch]
  exact ok_reset

/-- Every operation keeps the invariant of the registers, which no output is part of. -/
theorem exec_keeps_inv {i : Instr} {s s' : State} (h : s.Inv) (hexec : exec i s = .next s') : s'.Inv := by
  have hbegin : s.begin.Inv := h
  cases exec_effect hexec with
  | edge t hok =>
    obtain ⟨-, hb⟩ := of_decide_eq_true hok
    exact inv_edgeOp _ hb t hbegin
  | tick t => exact inv_sweep t hbegin
  | sample t _ => exact inv_sampleOp t _ _ hbegin
  | pop => exact inv_pop h _
  | rxbyte x => exact inv_receive x hbegin
  | reset => exact inv_resetRegisters s.begin
  | outputs => exact h

end Sys2Proof.Machine

/-! ## The statements of 10_state.md -/

namespace Sys2Proof.Registers

open Sys2Proof Sys2Proof.Machine

/-- Settles O8: a step is idle or one operation, and each operation keeps the invariant. -/
theorem stepKeepsTheRegisterInvariant : Obligations.StepKeepsTheRegisterInvariant := by
  intro s s' hinv h
  obtain ⟨-, rfl⟩ | ⟨i, -, hexec⟩ := step_next_cases h
  · exact hinv
  · have hconsume : s.consume.Inv := hinv
    exact exec_keeps_inv hconsume hexec

/-- Settles O6: the step itself takes the input, and no operation touches the environment. -/
theorem stepTakesOneInputAndKeepsTheConfiguration : Obligations.StepTakesOneInputAndKeepsTheConfiguration := by
  intro s s' h
  obtain ⟨hnil, rfl⟩ | ⟨i, -, hexec⟩ := step_next_cases h
  · exact ⟨rfl, by rw [hnil]; rfl⟩
  · exact exec_keeps_environment hexec

/-- Settles O9: the state of R35 is what RESET leaves of it. -/
theorem resetStateHasTheRegisterInvariant : Obligations.ResetStateHasTheRegisterInvariant :=
  fun cfg => inv_resetRegisters (State.resetWith cfg)

/-- Settles O10: the invariant holds at reset (O9) and over every step (O8), and bounds every channel's train. -/
theorem reachableTrainsFitTheirBitCount : Obligations.ReachableTrainsFitTheirBitCount := by
  intro cfg rs n s h c
  have hreset : State.Inv { State.resetWith cfg with input := rs } := resetStateHasTheRegisterInvariant cfg
  obtain ⟨-, hchans, -⟩ := run_keeps (M := Sys2Proof.core) stepKeepsTheRegisterInvariant n hreset h
  obtain ⟨hcnt, hacc, -⟩ := (chans_ok_iff s).1 hchans c
  exact ⟨hcnt, hacc⟩

/-- Settles O32: each timestamped operation has the frame of its sweep; POP and LOOKUP answer at once. -/
theorem decoderOperationsKeepTheRest : Obligations.DecoderOperationsKeepTheRest := by
  intro s s'
  refine ⟨fun c b t h => ?_, fun t h => ?_, fun t d0 d1 h => ?_, fun h => ?_, fun rid h => ?_⟩
  · obtain ⟨-, rfl⟩ := eq_of_guard_next h
    exact edgeOp_timedFrame c b t s.begin
  · obtain rfl := Host.Outcome.next.inj h
    exact sweep_timedFrame t s.begin
  · obtain ⟨-, rfl⟩ := eq_of_guard_next h
    exact sampleOp_timedFrame t d0 d1 s.begin
  · obtain rfl := Host.Outcome.next.inj ((execPop_eq s).symm.trans h)
    exact ⟨⟨rfl, rfl⟩, ⟨rfl, rfl⟩, rfl, rfl, rfl⟩
  · obtain rfl := Host.Outcome.next.inj h
    exact ⟨⟨rfl, rfl, rfl, rfl⟩, ⟨rfl, rfl⟩, rfl, rfl⟩

/-- Settles O1: the first input is what `fetch` decodes and what `consume` takes. -/
theorem stepRunsTheDecodedOperation : Obligations.StepRunsTheDecodedOperation := by
  intro s x rest i hcfg hinput hdecode
  have hfetch : s.fetch = some (.ok i) := by simp [State.fetch, hinput, hdecode]
  have hconsume : s.consume = { s with input := rest } := by simp [State.consume, hinput]
  rw [step_of_fetch hcfg hfetch, hconsume]

/-- Settles O11: the next state is `resetRegisters`, whose channels are copies of one reset channel. -/
theorem resetReturnsEveryRegisterToItsResetValue : Obligations.ResetReturnsEveryRegisterToItsResetValue :=
  fun s => ⟨resetRegisters s.begin, rfl, List.length_replicate, fun _ => List.eq_of_mem_replicate,
    rfl, rfl, rfl, rfl, rfl, ⟨rfl, rfl⟩, rfl⟩

/-- Settles O55: RXBYTE has the frame of the receiver; the Codec Unit's other operations write outputs alone. -/
theorem codecOperationsChangeNoRegister : Obligations.CodecOperationsChangeNoRegister := by
  intro i s s' h
  cases exec_effect h with
  | edge | tick | sample | pop | reset => trivial
  | rxbyte x => exact receive_frame x s.begin
  | outputs hi d r =>
    cases i with
    | edge | tick | sample | pop | rxbyte | reset => cases hi
    | _ => exact ⟨⟨rfl, rfl, rfl, rfl⟩, ⟨rfl, rfl⟩, rfl⟩

end Sys2Proof.Registers

/-! ## Sweeps, well-spaced trains, and outputs of earlier operations -/

namespace Sys2Proof.Machine

/-! ### Earlier outputs -/

/-- Every meaning starts from `State.begin`, which drops the outputs, and its guards read configuration and queue
alone (R260). -/
theorem exec_begin (i : Instr) (s : State) : exec i s.begin = exec i s := by
  cases i <;> rfl

/-! ### The order of a sweep -/

/-- TICK is the sweep at its timestamp (R119). -/
theorem exec_tick (t : Stamp) (s : State) : exec (.tick t) s = .next (sweep t s.begin) := rfl

/-- A sweep with given keys finalizes the due channels in the order of the keys (R115). -/
theorem sweepBy_eq_finalizeAll (key : Nat → Nat) (t : Stamp) (s : State) :
    sweepBy key t s = finalizeAll (orderBy key (dueList s t)) s := by
  rw [sweepBy, dueChannels_eq_dueList, finalizeAll]

/-- Where two or more timers are due, a sweep takes its order from the next free draw (R60, R115). -/
theorem sweep_of_two_due {t : Stamp} {s : State} (h : 2 ≤ (dueList s t).length) :
    sweep t s = { sweepBy (Config.sweepKey s.draws) t s with draws := s.draws + 1 } := by
  rw [sweep, dueChannels_eq_dueList, if_neg (Nat.not_lt.2 h)]

/-! ### A well-spaced train -/

/-- A channel that alone may have its timer running: no edge fed to it ends a train of another channel. -/
structure FedAlone (c : Nat) (s : State) : Prop where
  lt_numReaders : c < s.cfg.numReaders
  length_chans : s.chans.length = s.cfg.numReaders
  others_idle : ∀ c', c' ≠ c → c' < s.cfg.numReaders → (s.chan c').armed = false
  ok : (s.chan c).Ok

/-- A channel fed alone is the only one that can be due. -/
theorem FedAlone.dueList_eq_nil {c : Nat} {s : State} (h : FedAlone c s) {t : Stamp}
    (hdue : ¬TimerDue (s.chan c) t) : dueList s t = [] := by
  refine Machine.dueList_eq_nil fun c' hc' hdue' => ?_
  by_cases hcc : c' = c
  · exact hdue (hcc ▸ hdue')
  · obtain ⟨harmed, -⟩ := hdue'
    rw [h.others_idle c' hcc hc'] at harmed
    cases harmed

theorem FedAlone.modifyChan {c : Nat} {s : State} (h : FedAlone c s) {f : Channel → Channel}
    (hf : (f (s.chan c)).Ok) : FedAlone c (s.modifyChan c f) where
  lt_numReaders := h.lt_numReaders
  length_chans := (length_modifyChan s c f).trans h.length_chans
  others_idle c' hcc hc' := by
    rw [chan_modifyChan_ne s f (Ne.symm hcc)]
    exact h.others_idle c' hcc hc'
  ok := by rwa [chan_modifyChan_self s f (h.length_chans ▸ h.lt_numReaders)]

/-- An accepted edge on a channel with fewer than 64 bits shifts its bit in and starts the timer (R111 to R113). -/
theorem afterEdge_accepted {ch : Channel} {b : Nat} {t : Stamp} (hok : ch.Ok) (hb : b ≤ 1)
    (hgap : 200 ≤ elapsed ch.last t) (hcnt : ch.cnt.toNat < 64) :
    (afterEdge ch b t).acc.toNat = 2 * ch.acc.toNat + b ∧
      (afterEdge ch b t).cnt.toNat = ch.cnt.toNat + 1 ∧
      (afterEdge ch b t).last = t ∧ (afterEdge ch b t).armed = true := by
  obtain ⟨-, hacc, -⟩ := hok
  obtain ⟨-, hshift⟩ := shiftIn_lt hacc hcnt hb
  have hcnt' : (ch.cnt + 1).toNat = ch.cnt.toNat + 1 := by
    have hone : (1 : Byte).toNat = 1 := rfl
    rw [BitVec.toNat_add_of_lt (by omega), hone]
  rw [afterEdge, if_neg (Nat.not_lt.2 hgap), if_pos hcnt, if_pos hcnt]
  exact ⟨hshift, hcnt', rfl, rfl⟩

/-- EDGE on a channel fed alone whose timer is not due is the edge by itself (R110). -/
theorem exec_edge_fedAlone {c b : Nat} {t : Stamp} {s : State} (h : FedAlone c s) (hb : b ≤ 1)
    (hdue : ¬TimerDue (s.chan c) t) :
    exec (.edge c b t) s = .next (s.begin.modifyChan c fun ch => afterEdge ch b t) := by
  have hquiet : dueList s.begin t = [] := h.dueList_eq_nil hdue
  have hedge : edgeOk s.cfg c b = true := decide_eq_true ⟨h.lt_numReaders, hb⟩
  calc exec (.edge c b t) s
      = .next (edgeOp c b t s.begin) := if_pos hedge
    _ = .next (s.begin.modifyChan c fun ch => afterEdge ch b t) := by rw [edgeOp_quiet c b hquiet]

/-- An edge accepted on a channel fed alone: the channel still is, its train is one bit longer, and nothing is
queued. -/
theorem exec_edge_accepted {c b : Nat} {t : Stamp} {s : State} (h : FedAlone c s) (hb : b ≤ 1)
    (hdue : ¬TimerDue (s.chan c) t) (hgap : 200 ≤ elapsed (s.chan c).last t) (hcnt : (s.chan c).cnt.toNat < 64) :
    ∃ s', exec (.edge c b t) s = .next s' ∧ FedAlone c s' ∧
      (s'.chan c).acc.toNat = 2 * (s.chan c).acc.toNat + b ∧
      (s'.chan c).cnt.toNat = (s.chan c).cnt.toNat + 1 ∧
      (s'.chan c).last = t ∧ (s'.chan c).armed = true ∧ s'.evq = s.evq := by
  have hbegin : FedAlone c s.begin := ⟨h.lt_numReaders, h.length_chans, h.others_idle, h.ok⟩
  refine ⟨_, exec_edge_fedAlone h hb hdue, hbegin.modifyChan (ok_afterEdge h.ok hb t), ?_⟩
  rw [chan_modifyChan_self s.begin _ (hbegin.length_chans ▸ hbegin.lt_numReaders)]
  obtain ⟨hacc, hcnt', hlast, harmed⟩ := afterEdge_accepted h.ok hb hgap hcnt
  exact ⟨hacc, hcnt', hlast, harmed, rfl⟩

/-- A first edge and those that follow it. -/
theorem feedEdges_cons {c b : Nat} {t : Stamp} {s s' : State} (es : List (Nat × Stamp))
    (h : exec (.edge c b t) s = .next s') : feedEdges c ((b, t) :: es) s = feedEdges c es s' := by
  rw [feedEdges, h]

/-- A running train takes every well-spaced edge up to its 64th bit: each is accepted, and none finds the timer
due. -/
theorem feedEdges_wellSpaced {c : Nat} {es : List (Nat × Stamp)} {s : State} (h : FedAlone c s)
    (harmed : (s.chan c).armed = true) (hbits : ∀ e ∈ es, e.1 ≤ 1)
    (hroom : (s.chan c).cnt.toNat + es.length ≤ 64) (hspaced : WellSpaced (s.chan c).last es) :
    ∃ s', feedEdges c es s = .next s' ∧
      (s'.chan c).acc.toNat = es.foldl (fun v e => 2 * v + e.1) (s.chan c).acc.toNat ∧
      (s'.chan c).cnt.toNat = (s.chan c).cnt.toNat + es.length ∧ (s'.chan c).armed = true ∧ s'.evq = s.evq := by
  induction es generalizing s with
  | nil => exact ⟨s, rfl, rfl, rfl, harmed, rfl⟩
  | cons e es ih =>
    obtain ⟨b, t⟩ := e
    obtain ⟨hgap, hidle, hrest⟩ := hspaced
    obtain ⟨hb, hbits'⟩ := List.forall_mem_cons.1 hbits
    rw [List.length_cons] at hroom
    have hdue : ¬TimerDue (s.chan c) t := fun ⟨_, hlate⟩ => Nat.not_le.2 hidle hlate
    obtain ⟨u, hexec, hu, hacc, hcnt, hlast, harmed', hevq⟩ := exec_edge_accepted h hb hdue hgap (by omega)
    obtain ⟨s', hfeed, hacc', hcnt', harmed'', hevq'⟩ := ih hu harmed' hbits' (by omega) (by rwa [hlast])
    refine ⟨s', (feedEdges_cons es hexec).trans hfeed, ?_, ?_, harmed'', hevq'.trans hevq⟩
    · rw [hacc', hacc, List.foldl_cons]
    · rw [hcnt', hcnt, List.length_cons]
      omega

end Sys2Proof.Machine

/-! ## The statements of 20_memory.md -/

namespace Sys2Proof.Memory

open Sys2Proof Sys2Proof.Machine

/-- Settles O25: the first edge starts the train (`exec_edge_accepted`), and the others extend it
(`feedEdges_wellSpaced`). -/
theorem wellSpacedTrainIsAccumulatedFirstBitFirst : Obligations.WellSpacedTrainIsAccumulatedFirstBitFirst := by
  intro s c b t es hc hlen hidle hacc hcnt hgap hbits hes hspaced
  have hok : (s.chan c).Ok := by simp [Channel.Ok, hacc, hcnt, hidle c hc]
  have halone : FedAlone c s := ⟨hc, hlen, fun c' _ hc' => hidle c' hc', hok⟩
  have hdue : ¬TimerDue (s.chan c) t := by simp [hidle c hc]
  obtain ⟨hb, hbits'⟩ := List.forall_mem_cons.1 hbits
  have hzero : (s.chan c).cnt.toNat = 0 := by rw [hcnt]; rfl
  obtain ⟨u, hexec, hu, hacc', hcnt', hlast, harmed, hevq⟩ :=
    exec_edge_accepted halone hb hdue hgap (by omega)
  obtain ⟨s', hfeed, hfold, hcount, harmed', hevq'⟩ :=
    feedEdges_wellSpaced hu harmed hbits' (by omega) (by rwa [hlast])
  refine ⟨s', (feedEdges_cons es hexec).trans hfeed, ?_, by omega, harmed', hevq'.trans hevq⟩
  rw [hfold, hacc', hacc]
  rfl

/-- Settles O59: TICK finalizes the due channels in the order its sweep draws, and `finalizeAll_out` says what
that leaves in the queue and in the diagnostics. -/
theorem sweepFillsTheQueueAndDropsTheRest : Obligations.SweepFillsTheQueueAndDropsTheRest := by
  intro s t
  obtain ⟨l, d, hperm, hsweep, -⟩ := sweep_spec t s.begin
  obtain ⟨hevq, ds, hdiags, hout, hsub⟩ :=
    finalizeAll_out l s.begin (hperm.nodup_iff.2 (dueList_nodup s.begin t))
  have hds : (finalizeAll l s.begin).diags = ds := hdiags
  refine ⟨sweep t s.begin, l, exec_tick t s, hperm, ?_⟩
  rw [hsweep]
  subst hds
  exact ⟨hevq, hout, hsub⟩

/-- Settles O21: in the order its sweep draws every due train has room (`finalizeAll_room`). -/
theorem sweepDeliversEveryDueTrain : Obligations.SweepDeliversEveryDueTrain := by
  intro s t hroom
  obtain ⟨l, d, hperm, hsweep, -⟩ := sweep_spec t s.begin
  obtain ⟨hevq, hdiags⟩ := finalizeAll_room l s.begin (hperm.nodup_iff.2 (dueList_nodup s.begin t))
    (by rwa [hperm.length_eq])
  refine ⟨sweep t s.begin, _, exec_tick t s, ?_, hperm.filterMap _, ?_⟩
  · rw [hsweep]
    exact hevq
  · rw [hsweep]
    exact hdiags ▸ hperm.filterMap _

/-- Settles O22: keys order the due channels (`orderBy_perm`), any order is that of some keys
(`orderBy_surjective`), and a sweep of two or more takes its keys from the draw. -/
theorem sweepOrderAdmitsEveryPermutation : Obligations.SweepOrderAdmitsEveryPermutation := by
  intro s t
  refine ⟨fun key => ⟨orderBy key (dueList s t), orderBy_perm _ _, sweepBy_eq_finalizeAll key t s⟩,
    fun l hl => ?_, fun htwo => ?_⟩
  · obtain ⟨key, hkey⟩ := orderBy_surjective hl (dueList_nodup s t)
    exact ⟨key, by rw [sweepBy_eq_finalizeAll, hkey, finalizeAll]⟩
  · have hdue : 2 ≤ (dueList s.begin t).length := htwo
    rw [exec_tick, sweep_of_two_due hdue]
    rfl

/-- Settles O7: two states that differ in their outputs begin an operation as the same state. -/
theorem noOperationReadsEarlierOutputs : Obligations.NoOperationReadsEarlierOutputs := by
  intro i s d r
  have hbegin : State.begin { s with diags := d, result := r } = s.begin := rfl
  rw [← exec_begin, hbegin, exec_begin]

/-- Settles O41 by the value of the four bytes and their reading back. -/
theorem cardReadCodeIsBigEndian : Obligations.CardReadCodeIsBigEndian :=
  fun b3 b2 b1 b0 => ⟨toNat_be32 b3 b2 b1 b0, be32Bytes_be32 b3 b2 b1 b0⟩

end Sys2Proof.Memory

/-! ## Rows, frames and messages of the binary port -/

namespace Sys2Proof

open Machine

/-! ### The tag byte -/

/-- Under mask 0xFF a message's tag alone selects it (R78). -/
theorem eq_tag_of_binKindOf {tag : Byte} {k : BinKind} (h : binKindOf tag = some k) : tag = k.tag := by
  unfold binKindOf at h
  repeat' split at h
  all_goals cases h <;> assumption

/-- The unassigned tags (R80) are those outside the list of R78. -/
theorem binKindOf_eq_none_iff (tag : Byte) :
    binKindOf tag = none ↔
      tag ∉ ([0x01, 0x02, 0x10, 0x11, 0x41, 0x42, 0x81, 0x82, 0x83, 0x84] : List Byte) := by
  constructor
  · intro hnone hmem
    have hassigned : ∀ t ∈ ([0x01, 0x02, 0x10, 0x11, 0x41, 0x42, 0x81, 0x82, 0x83, 0x84] : List Byte),
        binKindOf t ≠ none := by decide
    exact hassigned tag hmem hnone
  · intro hmem
    cases hk : binKindOf tag with
    | none => rfl
    | some k =>
      obtain rfl := eq_tag_of_binKindOf hk
      exact absurd (by cases k <;> decide) hmem

/-- A frame on the bus is the row its tag selects, whatever its length and checksum bytes are. -/
theorem decodeBus_binFrame (tag len : Byte) (fields : Bytes) (cs : Byte) :
    decodeBus (binFrame tag len fields cs) =
      (binKindOf tag).elim (.binUnknown tag len fields cs) fun k => binRowOf k len fields cs := by
  have hlen : ¬(binFrame tag len fields cs).length < 3 := by
    rw [length_binFrame]
    omega
  have hfields : (binFrame tag len fields cs).length - 2 = fields.length + 1 := by
    rw [length_binFrame]
    omega
  have hlast : (binFrame tag len fields cs).length - 1 = fields.length + 2 := by
    rw [length_binFrame]
    omega
  simp only [decodeBus, if_neg (binFrame_ne_filler tag len fields cs), if_neg hlen, hfields, hlast,
    binFrame_zero, binFrame_one, binFrame_fields, binFrame_last]
  cases binKindOf tag <;> rfl

/-! ### A row and the request for its frame -/

/-- The row of an assigned tag returns what BIN_DECODE returns for the frame. -/
theorem binRow_parseBin (k : BinKind) (len : Byte) (fields : Bytes) (cs : Byte) :
    binRow (parseBin k) k.tag len fields cs = binDecode (binFrame k.tag len fields cs) := by
  cases hfault : binFramingFault (binFrame k.tag len fields cs) with
  | none => simp only [binRow, binDecode_binFrame, hfault, binKindOf_tag]
  | some r => simp only [binRow, binDecode_binFrame, hfault]

/-- The row of an unassigned tag returns what BIN_DECODE returns for the frame. -/
theorem binRow_unknown {tag : Byte} (h : binKindOf tag = none) (len : Byte) (fields : Bytes) (cs : Byte) :
    binRow (.unknown tag) tag len fields cs = binDecode (binFrame tag len fields cs) := by
  cases hfault : binFramingFault (binFrame tag len fields cs) with
  | none => simp only [binRow, binDecode_binFrame, hfault, h]
  | some r => simp only [binRow, binDecode_binFrame, hfault]

/-- Each row's own parser is its tag's, so each runs as `binRow` of that tag (R151). -/
theorem exec_binRowOf_eq_answerBin (k : BinKind) (len : Byte) (fields : Bytes) (cs : Byte) (s : State) :
    exec (binRowOf k len fields cs) s = answerBin (binRow (parseBin k) k.tag len fields cs) s := by
  cases k <;> rfl

/-- The row of an assigned tag is BIN_DECODE of its frame. -/
theorem exec_binRowOf (k : BinKind) (len : Byte) (fields : Bytes) (cs : Byte) (s : State) :
    exec (binRowOf k len fields cs) s =
      .next (s.answered (.binDecoded (binDecode (binFrame k.tag len fields cs)))) := by
  rw [exec_binRowOf_eq_answerBin, binRow_parseBin, answerBin, begin_answer]

/-- The row of an unassigned tag is BIN_DECODE of its frame. -/
theorem exec_binUnknown {tag : Byte} (h : binKindOf tag = none) (len : Byte) (fields : Bytes) (cs : Byte)
    (s : State) :
    exec (.binUnknown tag len fields cs) s =
      .next (s.answered (.binDecoded (binDecode (binFrame tag len fields cs)))) := by
  calc exec (.binUnknown tag len fields cs) s
      = answerBin (binRow (.unknown tag) tag len fields cs) s := if_pos h
    _ = _ := by rw [binRow_unknown h, answerBin, begin_answer]

/-! ### A message and its frame -/

/-- The constructor of a message. -/
def BinMsg.kind : BinMsg → BinKind
  | .identify => .identify
  | .setAddress _ => .setAddress
  | .identifyResponse _ => .identifyResponse
  | .addressAck _ _ => .addressAck
  | .cardRead _ _ _ => .cardRead
  | .heartbeat => .heartbeat
  | .rex _ => .rex
  | .doorContact _ _ => .doorContact
  | .feedbackGrant _ => .feedbackGrant
  | .feedbackDeny _ => .feedbackDeny

theorem binFields_fst (m : BinMsg) : (binFields m).1 = m.kind.tag := by
  cases m <;> rfl

/-- A message is well-typed exactly where its fields fit the length byte (R76, R85). -/
theorem binMsgOk_iff_length (m : BinMsg) : binMsgOk m = true ↔ (binFields m).2.length ≤ 255 := by
  refine ⟨length_binFields, fun h => ?_⟩
  cases m with
  | identifyResponse uid =>
    have hlen : uid.length + 1 ≤ 255 := h
    exact decide_eq_true (by omega)
  | _ => rfl

/-- The parser of a message's tag reads its fields back. -/
theorem parseBin_binFields {m : BinMsg} (h : binMsgOk m = true) : parseBin m.kind (binFields m).2 = .msg m := by
  cases m with
  | identifyResponse uid =>
    have hlen : uid.length ≤ 254 := of_decide_eq_true h
    have hcount : uid.length = (BitVec.ofNat 8 uid.length).toNat := by
      rw [BitVec.toNat_ofNat]
      omega
    exact if_pos hcount
  | cardRead r bl k =>
    have hcode := be32_be32Bytes k
    exact congrArg (fun code => BinResult.msg (.cardRead r bl code)) hcode
  | doorContact r st => cases st <;> rfl
  | _ => rfl

/-- What a tag's parser reads as a message are that message's fields. -/
theorem binFields_of_parseBin {k : BinKind} {fields : Bytes} {m : BinMsg} (h : parseBin k fields = .msg m) :
    binFields m = (k.tag, fields) := by
  cases k with
  | identifyResponse =>
    simp only [parseBin, parseBinIdentifyResponse] at h
    split at h
    · next n uid =>
      split at h
      · next hlen =>
        obtain rfl := BinResult.msg.inj h
        have hcount : BitVec.ofNat 8 uid.length = n := by rw [hlen, BitVec.ofNat_toNat, BitVec.setWidth_eq]
        rw [binFields, hcount]
        rfl
      · cases h
    · cases h
  | cardRead =>
    simp only [parseBin, parseBinCardRead] at h
    split at h
    · obtain rfl := BinResult.msg.inj h
      rw [binFields, be32Bytes_be32]
      rfl
    · cases h
  | doorContact =>
    simp only [parseBin, parseBinDoorContact] at h
    split at h
    · next r st =>
      split_ifs at h with hopen hclosed
      all_goals
        obtain rfl := BinResult.msg.inj h
        subst st
        rfl
    · cases h
  | _ =>
    simp only [parseBin, parseBinIdentify, parseBinSetAddress, parseBinAddressAck, parseBinHeartbeat,
      parseBinRex, parseBinFeedbackGrant, parseBinFeedbackDeny] at h
    split at h
    · obtain rfl := BinResult.msg.inj h
      rfl
    · cases h

/-- The four bytes of a code by value, the most significant first (R157). -/
theorem be32Bytes_eq_ofNat (k : BitVec 32) :
    be32Bytes k = [24, 16, 8, 0].map fun n => BitVec.ofNat 8 (k.toNat / 2 ^ n) := by
  simp only [be32Bytes, BitVec.extractLsb', Nat.shiftRight_eq_div_pow, List.map_cons, List.map_nil]

/-- The frame of a message: its tag, the count of its fields, the fields and their exclusive-or (R150). -/
def frameOf (m : BinMsg) : Bytes :=
  binFrame (binFields m).1 (BitVec.ofNat 8 (binFields m).2.length) (binFields m).2
    (xorBytes ((binFields m).1 :: BitVec.ofNat 8 (binFields m).2.length :: (binFields m).2))

theorem binEncode_of_ok {m : BinMsg} (h : binMsgOk m = true) : binEncode (some m) = .frame (frameOf m) :=
  binEncode_some m (length_binFields h)

theorem exec_binEncode {m : BinMsg} (h : binMsgOk m = true) (s : State) :
    exec (.binEncode (some m)) s = .next (s.answered (.encoded (.frame (frameOf m)))) := by
  calc exec (.binEncode (some m)) s
      = .next (s.begin.answer (.encoded (binEncode (some m)))) := if_pos h
    _ = _ := by rw [binEncode_of_ok h, begin_answer]

/-- The length and checksum steps pass exactly the frames with the right length and checksum bytes (R152). -/
theorem binFramingFault_eq_none_iff (tag len : Byte) (fields : Bytes) (cs : Byte) :
    binFramingFault (binFrame tag len fields cs) = none ↔ Framed tag len fields cs := by
  rw [binFramingFault_binFrame, Framed]
  split_ifs with hshort hlong hsum
  · simp only [false_iff, not_and]
    omega
  · simp only [false_iff, not_and]
    omega
  · simp only [false_iff, not_and]
    exact fun _ hcs => hsum hcs.symm
  · exact iff_of_true rfl ⟨by omega, (not_not.1 hsum).symm⟩

theorem binDecode_of_framed {tag len cs : Byte} {fields : Bytes} {k : BinKind}
    (hframed : Framed tag len fields cs) (hk : binKindOf tag = some k) :
    binDecode (binFrame tag len fields cs) = parseBin k fields := by
  rw [binDecode_binFrame, (binFramingFault_eq_none_iff tag len fields cs).2 hframed, hk]

theorem framed_frameOf {m : BinMsg} (h : binMsgOk m = true) :
    Framed (binFields m).1 (BitVec.ofNat 8 (binFields m).2.length) (binFields m).2
      (xorBytes ((binFields m).1 :: BitVec.ofNat 8 (binFields m).2.length :: (binFields m).2)) := by
  refine ⟨?_, rfl⟩
  have hlen := length_binFields h
  rw [BitVec.toNat_ofNat]
  omega

/-- A message's frame decodes to the message (R167). -/
theorem binDecode_frameOf {m : BinMsg} (h : binMsgOk m = true) : binDecode (frameOf m) = .msg m := by
  have hk : binKindOf (binFields m).1 = some m.kind := by rw [binFields_fst, binKindOf_tag]
  rw [frameOf, binDecode_of_framed (framed_frameOf h) hk, parseBin_binFields h]

/-- What decodes to a message is a frame that passes the length and checksum steps and whose tag's parser gives the
message. -/
theorem framed_of_binDecode {f : Bytes} {m : BinMsg} (h : binDecode f = .msg m) :
    ∃ k len fields cs, f = binFrame (BinKind.tag k) len fields cs ∧ Framed k.tag len fields cs ∧
      parseBin k fields = .msg m := by
  have hlen : 3 ≤ f.length := by
    by_contra hshort
    by_cases hfill : f = [0x00]
    · rw [hfill] at h
      cases h
    · rw [binDecode_short (by omega) hfill] at h
      cases h
  generalize htag : byteAt f 0 = tag
  have hf := eq_binFrame hlen
  rw [htag] at hf
  generalize byteAt f 1 = len, slice f 2 (f.length - 2) = fields, byteAt f (f.length - 1) = cs at hf
  subst hf
  rw [binDecode_binFrame] at h
  split at h
  · cases h
  · next hfault =>
    split at h
    · next k hk =>
      obtain rfl := eq_tag_of_binKindOf hk
      exact ⟨k, len, fields, cs, rfl, (binFramingFault_eq_none_iff _ _ _ _).1 hfault, h⟩
    · cases h

/-- What decodes to a message is the frame of that message, which is well-typed (R87). -/
theorem eq_frameOf_of_binDecode {f : Bytes} {m : BinMsg} (h : binDecode f = .msg m) :
    binMsgOk m = true ∧ f = frameOf m := by
  obtain ⟨k, len, fields, cs, rfl, ⟨hlen, rfl⟩, hparse⟩ := framed_of_binDecode h
  have hfields := binFields_of_parseBin hparse
  have hcount : BitVec.ofNat 8 fields.length = len := by rw [← hlen, BitVec.ofNat_toNat, BitVec.setWidth_eq]
  refine ⟨(binMsgOk_iff_length m).2 ?_, ?_⟩
  · have hbound : fields.length ≤ 255 := hlen ▸ Nat.le_of_lt_succ len.isLt
    rwa [hfields]
  · rw [frameOf, hfields, hcount]

end Sys2Proof

/-! ### An operation and the input that spells it -/

namespace Sys2Proof

open Machine

/-- The line of an object that selects a variant is the variant's row. -/
theorem decode_lineOf_of_variant {cfg : Config} {k : TxtKind} {o : JObj} (h : txtRowWf cfg (.variant k) o = true) :
    decode cfg (lineOf o) = .ok (txtRowOf k o) := by
  simp only [txtRowWf, Bool.and_eq_true, decide_eq_true_iff] at h
  obtain ⟨⟨hok, hsel⟩, hlen⟩ := h
  rw [lineOf, decode, decodeLine_txtFrame cfg hok hlen]
  simp only [hsel]

/-- The line of an object that selects no variant is the row TXT.Unknown. -/
theorem decode_lineOf_of_unknown {cfg : Config} {o : JObj} (h : txtUnknownWf cfg o = true) :
    decode cfg (lineOf o) = .ok (.txtUnknown o) := by
  simp only [txtUnknownWf, Bool.and_eq_true, decide_eq_true_iff] at h
  obtain ⟨⟨hok, hsel⟩, hlen⟩ := h
  rw [lineOf, decode, decodeLine_txtFrame cfg hok hlen]
  cases hs : txtSelect cfg o with
  | unknown ty cmd => rfl
  | noType | variant k => simp [hs] at hsel

/-! ### Operands -/

@[simp] theorem operandU8_toNat (op : PortOp) (v : Byte) : operandU8 op v.toNat = .ok v := by
  rw [operandU8, if_pos v.isLt, BitVec.ofNat_toNat, BitVec.setWidth_eq]

@[simp] theorem operandU32_toNat (op : PortOp) (v : BitVec 32) : operandU32 op v.toNat = .ok v := by
  rw [operandU32, if_pos v.isLt, BitVec.ofNat_toNat, BitVec.setWidth_eq]

@[simp] theorem operandU64_toNat (op : PortOp) (v : Code) : operandU64 op v.toNat = .ok v := by
  rw [operandU64, if_pos v.isLt, BitVec.ofNat_toNat, BitVec.setWidth_eq]

@[simp] theorem operandEvent_toNat (op : PortOp) (ev : ReaderEvent) :
    operandEvent op ev.readerId.toNat ev.code.toNat ev.bitLength.toNat = .ok ev := by
  simp only [operandEvent, operandU8_toNat, operandU64_toNat]
  rfl

/-- The operands of a BIN_ENCODE request are read back. -/
@[simp] theorem operandBin_binOperands (m : Option BinMsg) : operandBin (binOperands m) = .ok m := by
  cases m with
  | none => rfl
  | some m =>
    cases m with
    | identify | heartbeat | identifyResponse => rfl
    | _ =>
      simp only [binOperands, operandBin, operandU8_toNat, operandU32_toNat]
      rfl

/-- The operands of a TXT_ENCODE request are read back. -/
@[simp] theorem operandTxt_txtOperands (m : TxtMsg) : operandTxt (txtOperands m) = .ok m := by
  cases m with
  | identify => rfl
  | setAddress n u =>
    cases u
    all_goals
      simp only [txtOperands, operandTxt, operandU8_toNat]
      rfl
  | _ =>
    simp only [txtOperands, operandTxt, operandU8_toNat, operandU64_toNat]
    rfl

end Sys2Proof

/-! ## Objects and messages of the text port -/

namespace Sys2Proof

open Machine

/-! ### The value at a key -/

theorem mem_of_lookup {o : JObj} {k : Bytes} {v : JVal} (h : o.lookup k = some v) : (k, v) ∈ o := by
  obtain ⟨before, after, rfl, -⟩ := List.lookup_eq_some_iff.1 h
  simp

/-- In an object no key of which stands twice, the value at a key is that of the key's member. -/
theorem lookup_eq_some_iff_mem {o : JObj} (hn : (o.map Prod.fst).Nodup) {k : Bytes} {v : JVal} :
    o.lookup k = some v ↔ (k, v) ∈ o := by
  refine ⟨mem_of_lookup, fun hmem => ?_⟩
  cases hl : o.lookup k with
  | none => simpa using List.lookup_eq_none_iff.1 hl _ hmem
  | some w =>
    have hsame := List.inj_on_of_nodup_map hn (mem_of_lookup hl) hmem rfl
    rw [(Prod.mk.inj hsame).2]

theorem getU8_eq_some_iff {o : JObj} {k : Bytes} {v : Byte} :
    getU8 o k = some v ↔ o.lookup k = some (u8Val v) := by
  have hv : v.toNat ≤ 255 := Nat.le_of_lt_succ v.isLt
  unfold getU8
  split
  · next n hn =>
    rw [hn, u8Val, Option.some.injEq, JVal.num.injEq]
    split
    · next hle =>
      rw [Option.some.injEq, ← BitVec.toNat_inj, BitVec.toNat_ofNat, Nat.mod_eq_of_lt (by omega)]
    · next hgt => exact iff_of_false (by simp) (by omega)
  · next hno => exact iff_of_false (by simp) (hno _)

theorem getU64_eq_some_iff {o : JObj} {k : Bytes} {v : Code} :
    getU64 o k = some v ↔ o.lookup k = some (.num v.toNat) := by
  have hv : v.toNat < 2 ^ 64 := v.isLt
  unfold getU64
  split
  · next n hn =>
    rw [hn, Option.some.injEq, JVal.num.injEq]
    split
    · next hlt =>
      rw [Option.some.injEq, ← BitVec.toNat_inj, BitVec.toNat_ofNat, Nat.mod_eq_of_lt hlt]
    · next hge => exact iff_of_false (by simp) (by omega)
  · next hno => exact iff_of_false (by simp) (hno _)

theorem getStr_eq_some_iff {o : JObj} {k s : Bytes} : getStr o k = some s ↔ o.lookup k = some (.str s) := by
  unfold getStr
  split
  · next t ht => rw [ht, Option.some.injEq, Option.some.injEq, JVal.str.injEq]
  · next hno => exact iff_of_false (by simp) (hno _)

theorem getState_eq_some_iff {o : JObj} {k : Bytes} {st : DoorState} :
    getState o k = some st ↔ o.lookup k = some (stateVal st) := by
  have hne : ascii "open" ≠ ascii "closed" := by decide +kernel
  have hval (v : Bytes) : o.lookup k = some (.str v) ↔ getStr o k = some v := getStr_eq_some_iff.symm
  unfold getState
  cases st with
  | opened =>
    rw [stateVal, hval]
    cases getStr o k with
    | none => simp
    | some s => by_cases hs : s = ascii "open" <;> simp [hs]
  | closed =>
    rw [stateVal, hval]
    cases getStr o k with
    | none => simp
    | some s => by_cases hs : s = ascii "open" <;> simp [hs, hne]

/-- An optional string is absent exactly where its key is. -/
theorem getOptStr_eq_some_none_iff {o : JObj} {k : Bytes} : getOptStr o k = some none ↔ o.lookup k = none := by
  unfold getOptStr
  cases o.lookup k with
  | none => simp
  | some v => cases v <;> simp

theorem getOptStr_eq_some_some_iff {o : JObj} {k s : Bytes} :
    getOptStr o k = some (some s) ↔ o.lookup k = some (.str s) := by
  unfold getOptStr
  cases o.lookup k with
  | none => simp
  | some v => cases v <;> simp

theorem closedKeys_iff {allowed : List Bytes} {o : JObj} :
    closedKeys allowed o = true ↔ ∀ p ∈ o, p.1 ∈ allowed := by
  simp only [closedKeys, List.all_eq_true, List.contains_iff_mem]

/-! ### An object that spells a message -/

/-- An object has a message's members, and no key besides theirs. -/
structure Spells (o : JObj) (m : TxtMsg) : Prop where
  keys : closedKeys ((txtObject m).map Prod.fst) o = true
  values : ∀ p ∈ txtObject m, o.lookup p.1 = some p.2

theorem spells_iff (o : JObj) (m : TxtMsg) :
    Spells o m ↔
      closedKeys ((txtObject m).map Prod.fst) o = true ∧ ∀ p ∈ txtObject m, o.lookup p.1 = some p.2 :=
  ⟨fun h => ⟨h.keys, h.values⟩, fun ⟨hkeys, hvalues⟩ => ⟨hkeys, hvalues⟩⟩

/-- The keys of a message are distinct (R84). -/
theorem txtObject_keys_nodup (m : TxtMsg) : ((txtObject m).map Prod.fst).Nodup := by
  cases m with
  | setAddress n u => cases u <;> exact of_decide_eq_true rfl
  | _ => exact of_decide_eq_true rfl

/-- An object spells a message exactly where its members are those of the message, in any order. -/
theorem spells_iff_perm {o : JObj} (hn : (o.map Prod.fst).Nodup) (m : TxtMsg) :
    Spells o m ↔ o.Perm (txtObject m) := by
  constructor
  · rintro ⟨hkeys, hvalues⟩
    rw [List.perm_ext_iff_of_nodup hn.of_map (txtObject_keys_nodup m).of_map]
    rintro ⟨k, v⟩
    refine ⟨fun hmem => ?_, fun hmem => mem_of_lookup (hvalues _ hmem)⟩
    obtain ⟨⟨k', v'⟩, hmem', rfl⟩ := List.mem_map.1 (closedKeys_iff.1 hkeys _ hmem)
    have hv' := hvalues _ hmem'
    rw [(lookup_eq_some_iff_mem hn).2 hmem] at hv'
    rwa [Option.some.inj hv']
  · intro hperm
    exact ⟨closedKeys_iff.2 fun p hp => List.mem_map_of_mem (hperm.mem_iff.1 hp),
      fun p hp => (lookup_eq_some_iff_mem hn).2 (hperm.mem_iff.2 hp)⟩

/-! ### Selection -/

/-- The constructor of a message. -/
def TxtMsg.kind : TxtMsg → TxtKind
  | .cardRead _ _ _ _ => .cardRead
  | .heartbeat _ => .heartbeat
  | .rexEvent _ _ => .rexEvent
  | .doorContact _ _ _ => .doorContact
  | .feedbackGrant _ _ => .feedbackGrant
  | .feedbackDeny _ _ => .feedbackDeny
  | .identify => .identify
  | .setAddress _ _ => .setAddress
  | .identifyResponse _ _ _ _ => .identifyResponse
  | .addressAck _ _ => .addressAck

/-- The fixed members that select a variant (R83); an IdentifyResponse is selected by its device kind instead. -/
def selectingMembers : TxtKind → JObj
  | .cardRead => [(kType, .str (ascii "card_read"))]
  | .heartbeat => [(kType, .str (ascii "heartbeat"))]
  | .rexEvent => [(kType, .str (ascii "event_rex"))]
  | .doorContact => [(kType, .str (ascii "event_door_contact"))]
  | .feedbackGrant => [(kType, .str tCommand), (kCmd, .str (ascii "feedback_grant"))]
  | .feedbackDeny => [(kType, .str tCommand), (kCmd, .str (ascii "feedback_deny"))]
  | .identify => [(kType, .str tCommand), (kCmd, .str (ascii "identify"))]
  | .setAddress => [(kType, .str tCommand), (kCmd, .str (ascii "set_address"))]
  | .identifyResponse => []
  | .addressAck => [(kType, .str (ascii "ack_set_address"))]

/-- A message begins with the members that select its variant. -/
theorem selectingMembers_isPrefix_txtObject (m : TxtMsg) : selectingMembers m.kind <+: txtObject m := by
  cases m with
  | setAddress n u => cases u <;> exact ⟨_, rfl⟩
  | _ => exact ⟨_, rfl⟩

/-- What an object must hold to select a variant (R83, R206). -/
theorem txtSelect_eq_variant_iff {cfg : Config} {o : JObj} {k : TxtKind} :
    txtSelect cfg o = .variant k ↔
      ∃ ty, o.lookup kType = some (.str ty) ∧
        (ty = tCommand ∧ (∃ cmd, o.lookup kCmd = some (.str cmd) ∧ txtCommandOf cmd = some k) ∨
          ty ≠ tCommand ∧ txtTypeOf cfg ty = some k) := by
  simp only [← getStr_eq_some_iff]
  unfold txtSelect
  cases getStr o kType with
  | none => simp
  | some ty =>
    by_cases hty : ty = tCommand
    · cases getStr o kCmd with
      | none => simp [hty]
      | some cmd => cases hc : txtCommandOf cmd <;> simp [hty, hc]
    · cases ht : txtTypeOf cfg ty <;> simp [hty, ht]

theorem selectingMembers_of_txtCommandOf {cmd : Bytes} {k : TxtKind} (h : txtCommandOf cmd = some k) :
    selectingMembers k = [(kType, .str tCommand), (kCmd, .str cmd)] := by
  unfold txtCommandOf at h
  split_ifs at h
  all_goals
    obtain rfl := Option.some.inj h
    subst cmd
    rfl

theorem selectingMembers_of_txtTypeOf {cfg : Config} {ty : Bytes} {k : TxtKind} (h : txtTypeOf cfg ty = some k) :
    selectingMembers k = [(kType, .str ty)] ∨ k = .identifyResponse ∧ ty ∈ cfg.deviceKinds := by
  unfold txtTypeOf at h
  split_ifs at h with h1 h2 h3 h4 h5 hkind
  all_goals obtain rfl := Option.some.inj h
  pick_goal 6
  · exact .inr ⟨rfl, List.contains_iff_mem.1 hkind⟩
  all_goals
    subst ty
    exact .inl rfl


/-- An object that selects a variant holds the members that do so. -/
theorem lookup_selectingMembers {cfg : Config} {o : JObj} {k : TxtKind} (h : txtSelect cfg o = .variant k) :
    ∀ p ∈ selectingMembers k, o.lookup p.1 = some p.2 := by
  obtain ⟨ty, hty, ⟨rfl, cmd, hcmd, hk⟩ | ⟨-, hk⟩⟩ := txtSelect_eq_variant_iff.1 h
  · rw [selectingMembers_of_txtCommandOf hk]
    simp [hty, hcmd]
  · obtain hsel | ⟨rfl, -⟩ := selectingMembers_of_txtTypeOf hk
    · rw [hsel]
      simp [hty]
    · simp [selectingMembers]

/-- An object that holds a variant's fixed members selects it; a device kind of R8 selects IdentifyResponse. -/
theorem txtSelect_of_spells {cfg : Config} (hcfg : configOk cfg = true) {o : JObj} {m : TxtMsg}
    (hok : txtMsgOk cfg m = true) (h : Spells o m) : txtSelect cfg o = .variant m.kind := by
  rw [txtSelect_eq_variant_iff]
  have hfixed : ∀ p ∈ selectingMembers m.kind, o.lookup p.1 = some p.2 :=
    fun p hp => h.values p ((selectingMembers_isPrefix_txtObject m).mem hp)
  cases m with
  | identifyResponse k u a n =>
    have hkind : k ∈ cfg.deviceKinds := List.contains_iff_mem.1 hok
    have hty : o.lookup kType = some (.str k) := h.values (kType, .str k) (by simp [txtObject])
    obtain ⟨-, -, -, -, -, hkinds⟩ := (configOk_iff cfg).1 hcfg
    obtain ⟨-, -, hreserved⟩ := (deviceKindOk_iff k).1 (hkinds k hkind)
    obtain ⟨h1, h2, h3, h4, hcommand, h5⟩ := (not_mem_reservedTypes_iff k).1 hreserved
    refine ⟨k, hty, .inr ⟨hcommand, ?_⟩⟩
    rw [txtTypeOf, if_neg h1, if_neg h2, if_neg h3, if_neg h4, if_neg h5]
    exact if_pos hok
  | feedbackGrant | feedbackDeny | identify | setAddress =>
    simp only [TxtMsg.kind, selectingMembers, List.forall_mem_cons] at hfixed
    obtain ⟨hty, hcmd, -⟩ := hfixed
    exact ⟨_, hty, .inl ⟨rfl, _, hcmd, rfl⟩⟩
  | cardRead | heartbeat | rexEvent | doorContact | addressAck =>
    simp only [TxtMsg.kind, selectingMembers, List.forall_mem_cons] at hfixed
    obtain ⟨hty, -⟩ := hfixed
    exact ⟨_, hty, .inr ⟨by decide +kernel, rfl⟩⟩

/-! ### The schema -/

theorem txtSchema_eq_msg_iff {allowed : List Bytes} {values : JObj → Option TxtMsg} {o : JObj} {m : TxtMsg} :
    txtSchema allowed values o = .msg m ↔ closedKeys allowed o = true ∧ values o = some m := by
  unfold txtSchema
  split
  · next h => cases values o <;> simp [txtMsgOr, h]
  · next h => simp [h]

/-- A variant's schema is a check of keys and then of values, which make a message of the variant (R206). -/
theorem schemaOf_eq_txtSchema (k : TxtKind) :
    ∃ allowed values, schemaOf k = txtSchema allowed values ∧ ∀ o m, values o = some m → m.kind = k := by
  cases k
  all_goals
    refine ⟨_, _, rfl, fun o m hm => ?_⟩
    simp only [Option.bind_eq_bind, Option.bind_eq_some_iff, Option.pure_def, Option.some.injEq] at hm
  case identify => exact hm ▸ rfl
  case heartbeat =>
    obtain ⟨-, -, rfl⟩ := hm
    rfl
  case rexEvent | feedbackGrant | feedbackDeny | setAddress | addressAck =>
    obtain ⟨-, -, -, -, rfl⟩ := hm
    rfl
  case doorContact =>
    obtain ⟨-, -, -, -, -, -, rfl⟩ := hm
    rfl
  case cardRead | identifyResponse =>
    obtain ⟨-, -, -, -, -, -, -, -, rfl⟩ := hm
    rfl

/-- A variant's schema gives a message of the variant, or REJ_TXT_FIELDS (R206). -/
theorem schemaOf_cases (k : TxtKind) (o : JObj) :
    (∃ m, m.kind = k ∧ schemaOf k o = .msg m) ∨ schemaOf k o = .reject .txtFields := by
  obtain ⟨allowed, values, hschema, hkind⟩ := schemaOf_eq_txtSchema k
  rw [hschema]
  unfold txtSchema
  split
  · cases hvalues : values o with
    | none => exact .inr rfl
    | some m => exact .inl ⟨m, hkind o m hvalues, rfl⟩
  · exact .inr rfl

/-- A list of keys is closed without its last one exactly where it is closed and the last has no value. -/
theorem closedKeys_and_lookup_eq_none {allowed : List Bytes} {k : Bytes} {o : JObj} (hk : k ∉ allowed) :
    closedKeys (allowed ++ [k]) o = true ∧ o.lookup k = none ↔ closedKeys allowed o = true := by
  simp only [closedKeys_iff, List.lookup_eq_none_iff, bne_iff_ne, List.mem_append, List.mem_singleton]
  constructor
  · rintro ⟨hkeys, hnone⟩ p hp
    exact (hkeys p hp).resolve_right fun he => hnone p hp he.symm
  · intro hkeys
    exact ⟨fun p hp => .inl (hkeys p hp), fun p hp he => hk (he ▸ hkeys p hp)⟩

/-- For an object that holds the members which select a message's variant, the variant's schema gives the message
exactly where the object spells it (R206). -/
theorem schemaOf_kind_eq_msg_iff {o : JObj} {m : TxtMsg}
    (hsel : ∀ p ∈ selectingMembers m.kind, o.lookup p.1 = some p.2) :
    schemaOf m.kind o = .msg m ↔ Spells o m := by
  rw [spells_iff]
  cases m with
  | setAddress n u =>
    simp only [TxtMsg.kind, selectingMembers, List.forall_mem_cons] at hsel
    obtain ⟨hty, hcmd, -⟩ := hsel
    cases u with
    | none =>
      have hkeys := closedKeys_and_lookup_eq_none (o := o) (allowed := [kType, kCmd, kNewAddr]) (k := kTargetUid)
        (by decide +kernel)
      simp [TxtMsg.kind, schemaOf, schemaSetAddress, txtSchema_eq_msg_iff, txtObject, hty, hcmd,
        Option.bind_eq_some_iff, getU8_eq_some_iff, getOptStr_eq_some_none_iff, ← hkeys, and_assoc,
        and_left_comm, and_comm]
    | some u =>
      simp [TxtMsg.kind, schemaOf, schemaSetAddress, txtSchema_eq_msg_iff, txtObject, hty, hcmd,
        Option.bind_eq_some_iff, getU8_eq_some_iff, getOptStr_eq_some_some_iff]
  | identifyResponse k u a n =>
    simp [TxtMsg.kind, schemaOf, schemaIdentifyResponse, txtSchema_eq_msg_iff, txtObject,
      Option.bind_eq_some_iff, getU8_eq_some_iff, getStr_eq_some_iff]
  | _ =>
    simp only [TxtMsg.kind, selectingMembers, List.forall_mem_cons] at hsel
    simp [TxtMsg.kind, schemaOf, schemaCardRead, schemaHeartbeat, schemaRexEvent, schemaDoorContact,
      schemaFeedbackGrant, schemaFeedbackDeny, schemaIdentify, schemaAddressAck, txtSchema_eq_msg_iff,
      txtObject, hsel, Option.bind_eq_some_iff, getU8_eq_some_iff, getU64_eq_some_iff, getState_eq_some_iff]

/-! ### Rows -/

/-- A message that a schema gives under its selection is well-typed: a device kind is one of the configuration. -/
theorem txtMsgOk_of_spells {cfg : Config} {o : JObj} {m : TxtMsg} (hsel : txtSelect cfg o = .variant m.kind)
    (h : Spells o m) : txtMsgOk cfg m = true := by
  cases m with
  | identifyResponse k u a n =>
    obtain ⟨ty, hty, ⟨-, cmd, -, hk⟩ | ⟨-, hk⟩⟩ := txtSelect_eq_variant_iff.1 hsel
    · have hfixed := selectingMembers_of_txtCommandOf hk
      simp [TxtMsg.kind, selectingMembers] at hfixed
    · have hsame : o.lookup kType = some (.str k) := h.values (kType, .str k) (by simp [txtObject])
      obtain rfl : ty = k := by simpa [hty] using hsame
      obtain hfixed | ⟨-, hmem⟩ := selectingMembers_of_txtTypeOf hk
      · simp [TxtMsg.kind, selectingMembers] at hfixed
      · exact List.contains_iff_mem.2 hmem
  | _ => rfl

/-- A variant's schema accepts exactly the objects of the variant's well-typed messages (R206). -/
theorem acceptsExactly_schemaOf {cfg : Config} (hcfg : configOk cfg = true) {o : JObj} (hok : objectOk o = true)
    {k : TxtKind} (hsel : txtSelect cfg o = .variant k) : AcceptsExactly cfg o (schemaOf k o) := by
  obtain ⟨-, hnodup⟩ := (objectOk_iff o).1 hok
  obtain ⟨m, rfl, hmsg⟩ | hreject := schemaOf_cases k o
  · have hspells := (schemaOf_kind_eq_msg_iff (lookup_selectingMembers hsel)).1 hmsg
    exact .inl ⟨m, txtMsgOk_of_spells hsel hspells, (spells_iff_perm hnodup m).1 hspells, hmsg⟩
  · refine .inr ⟨fun m hm hperm => ?_, hreject⟩
    have hspells := (spells_iff_perm hnodup m).2 hperm
    obtain rfl : m.kind = k := TxtSelection.variant.inj ((txtSelect_of_spells hcfg hm hspells).symm.trans hsel)
    rw [(schemaOf_kind_eq_msg_iff (lookup_selectingMembers hsel)).2 hspells] at hreject
    cases hreject

/-- The row an object selects returns what the variant's schema gives (R206). -/
theorem exec_txtRowOf {s : State} {o : JObj} {k : TxtKind} (hsel : txtSelect s.cfg o = .variant k) :
    exec (txtRowOf k o) s = .next (s.answered (.txtDecoded (schemaOf k o))) := by
  have hrow : txtRow k (schemaOf k) o s = answerTxt (schemaOf k o) s := if_pos hsel
  rw [← begin_answer]
  cases k <;> exact hrow

end Sys2Proof

/-! ## Lines of the text port -/

namespace Sys2Proof

open Machine

/-! ### What TXT_DECODE answers -/

theorem exec_txtDecode (f : Bytes) (s : State) :
    exec (.txtDecode f) s = .next (s.answered (.txtDecoded (txtDecode s.cfg f))) := rfl

/-- The last byte of a string that has one. -/
theorem getLast?_eq_some_iff_byteAt {f : Bytes} (h : 0 < f.length) (x : Byte) :
    f.getLast? = some x ↔ byteAt f (f.length - 1) = x := by
  have hlast : f.length - 1 < f.length := by omega
  simp [List.getLast?_eq_getElem?, byteAt, List.getElem?_eq_getElem hlast]

theorem txtDecode_of_fault {cfg : Config} {f : Bytes} {r : RejectReason} (h : txtFramingFault cfg f = some r) :
    txtDecode cfg f = .reject r := by
  simp only [txtDecode, h]

/-- A line too short for an envelope, or without its newline, is truncated (R202). -/
theorem txtDecode_of_truncated (cfg : Config) {f : Bytes} (h : f.length < 6 ∨ f.getLast? ≠ some newline) :
    txtDecode cfg f = .reject .txtTruncated := by
  refine txtDecode_of_fault (if_pos ?_)
  by_cases hlen : f.length < 6
  · exact .inl hlen
  · have hlast := getLast?_eq_some_iff_byteAt (show 0 < f.length by omega) newline
    exact .inr fun he => (h.resolve_left hlen) (hlast.2 he)

/-- A line past TXT_MAX_LINE is overlong (R202). -/
theorem txtDecode_of_overlong {cfg : Config} {f : Bytes} (hlen : 6 ≤ f.length) (hlast : f.getLast? = some newline)
    (hmax : cfg.txtMaxLine < f.length) : txtDecode cfg f = .reject .txtOverlong := by
  have hnewline := (getLast?_eq_some_iff_byteAt (show 0 < f.length by omega) newline).1 hlast
  have hwhole : ¬(f.length < 6 ∨ byteAt f (f.length - 1) ≠ newline) := by
    rintro (h | h)
    · omega
    · exact h hnewline
  exact txtDecode_of_fault ((if_neg hwhole).trans (if_pos hmax))

/-- The layout of R81 as the encoder's parts and as its ASCII text. -/
theorem txtLine_eq_append (j : Bytes) (h l : Byte) :
    txtLine j h l = ascii "<" ++ j ++ ascii ">|" ++ [h, l, 0x0A] := by
  rw [List.append_assoc, List.append_assoc]
  rfl

/-- What is not rejected is a line of the layout of R81 whose digits spell the exclusive-or of its payload. -/
theorem eq_txtLine_of_accepted {cfg : Config} {f : Bytes} (h : ∀ r, txtDecode cfg f ≠ .reject r) :
    f.length ≤ cfg.txtMaxLine ∧ ∃ j a b, f = txtLine j a b ∧ hexPair a b = some (xorBytes j) := by
  have hfault : txtFramingFault cfg f = none := by
    cases hf : txtFramingFault cfg f with
    | none => rfl
    | some r => exact absurd (txtDecode_of_fault hf) (h r)
  obtain ⟨hlen, a, b, hline, hdigits⟩ := txtFramingFault_eq_none hfault
  exact ⟨hlen, _, a, b, hline, hdigits⟩

/-! ### What TXT_ENCODE answers -/

theorem exec_txtEncode {s : State} {m : TxtMsg} (h : txtMsgOk s.cfg m = true) :
    exec (.txtEncode m) s = .next (s.answered (.encoded (txtEncode s.cfg m))) := if_pos h

/-- A message whose strings are in the alphabet has a frame, unless the frame is too long (R200, R207). -/
theorem txtEncode_of_stringsOk (cfg : Config) {m : TxtMsg} (h : stringsOk (txtObject m) = true) :
    txtEncode cfg m =
      if (txtFrame (objectBytes (txtObject m))).length > cfg.txtMaxLine then .unencodable
      else .frame (txtFrame (objectBytes (txtObject m))) := by
  simp only [txtEncode, txtJson, if_pos h]

theorem txtEncode_of_not_stringsOk (cfg : Config) {m : TxtMsg} (h : stringsOk (txtObject m) = false) :
    txtEncode cfg m = .unencodable := by
  simp [txtEncode, txtJson, h]

/-- The encoder's line as its ASCII text (R81). -/
theorem txtFrame_eq_append (j : Bytes) :
    txtFrame j = ascii "<" ++ j ++ ascii ">|" ++ hex2 (xorBytes j) ++ [0x0A] := by
  rw [List.append_assoc, List.append_assoc, List.append_assoc]
  rfl

/-- The strings of a message that are not the model's own are the target uid, and device kind and uid (R205). -/
theorem stringsOk_setAddress (n : Byte) (u : Bytes) :
    stringsOk (txtObject (.setAddress n (some u))) = isStr u := by
  have hcommand : isStr tCommand = true := by decide +kernel
  have hcmd : isStr (ascii "set_address") = true := by decide +kernel
  simp [stringsOk, txtObject, u8Val, hcommand, hcmd]

theorem stringsOk_identifyResponse (k u : Bytes) (a n : Byte) :
    stringsOk (txtObject (.identifyResponse k u a n)) = (isStr k && isStr u) := by
  simp [stringsOk, txtObject, u8Val]

/-- A message that carries no string of its own. -/
theorem stringsOk_of_no_string {m : TxtMsg} (huid : ∀ n u, m ≠ .setAddress n (some u))
    (hkind : ∀ k u a n, m ≠ .identifyResponse k u a n) : stringsOk (txtObject m) = true := by
  cases m with
  | setAddress n u =>
    cases u with
    | none => rfl
    | some u => exact absurd rfl (huid n u)
  | identifyResponse k u a n => exact absurd rfl (hkind k u a n)
  | doorContact a r st => cases st <;> rfl
  | _ => rfl

/-! ### The length of a line -/

/-- Each member takes its key, its value, two quotes, a colon and a comma or the closing brace (R207). -/
theorem length_objectBytes {o : JObj} (h : o ≠ []) :
    (objectBytes o).length = (o.map fun m => m.1.length + (valueBytes m.2).length + 4).sum + 1 := by
  have hmembers : (membersBytes o).length + 1 = (o.map fun m => m.1.length + (valueBytes m.2).length + 4).sum := by
    induction o with
    | nil => exact absurd rfl h
    | cons m ms ih =>
      cases ms with
      | nil =>
        simp [membersBytes, memberBytes]
        omega
      | cons m' ms =>
        have hrest := ih (by simp)
        rw [List.map_cons, List.sum_cons, ← hrest]
        simp [membersBytes, memberBytes]
        omega
  rw [← hmembers]
  simp [objectBytes]

theorem length_valueBytes_str (s : Bytes) : (valueBytes (.str s)).length = s.length + 2 := by
  simp [valueBytes]

theorem length_valueBytes_u8Val (v : Byte) : (valueBytes (u8Val v)).length ≤ 3 := length_dec_u8 v

theorem length_valueBytes_code (k : Code) : (valueBytes (.num k.toNat)).length ≤ 20 := by
  obtain ⟨-, -, -, hlen, -⟩ := dec_spec k.isLt
  exact hlen

theorem length_valueBytes_stateVal (st : DoorState) : (valueBytes (stateVal st)).length ≤ 8 := by
  cases st <;> exact of_decide_eq_true rfl

/-- The longest object without a string of its own is a CardRead's, of at most 87 bytes. -/
theorem length_objectBytes_of_no_string {m : TxtMsg} (huid : ∀ n u, m ≠ .setAddress n (some u))
    (hkind : ∀ k u a n, m ≠ .identifyResponse k u a n) : (objectBytes (txtObject m)).length ≤ 87 := by
  cases m with
  | setAddress n u =>
    cases u with
    | none =>
      simp [length_objectBytes, txtObject, length_valueBytes_str, kType, kCmd, kNewAddr, tCommand, ascii]
      grind [length_valueBytes_u8Val]
    | some u => exact absurd rfl (huid n u)
  | identifyResponse k u a n => exact absurd rfl (hkind k u a n)
  | identify => exact of_decide_eq_true rfl
  | _ =>
    simp [length_objectBytes, txtObject, length_valueBytes_str, kType, kCmd, kHubAddr, kAddr, kRdrId, kCard,
      kBits, kState, kStatus, tCommand, ascii]
    grind [length_valueBytes_u8Val, length_valueBytes_code, length_valueBytes_stateVal]

end Sys2Proof

/-! ## TRAIN and WAIT_IDLE -/

namespace Sys2Proof

/-- The record of bit i of a train that begins at T with D between its bits (R92). -/
def trainEdge (c t0 dt : Nat) (bit : Nat × Nat) : Input :=
  .record .edge [.num c, .num bit.1, .num ((t0 + bit.2 * dt) % 2 ^ 32)]

/-- A train from its k-th bit on is the records of its bits, numbered from k. -/
theorem trainEdges_eq_map (c t0 dt k : Nat) (bits : List Nat) :
    trainEdges c dt (t0 + k * dt) bits = (bits.zipIdx k).map (trainEdge c t0 dt) := by
  induction bits generalizing k with
  | nil => rfl
  | cons b bs ih =>
    have hnext : t0 + k * dt + dt = t0 + (k + 1) * dt := by rw [Nat.add_mul, Nat.one_mul, Nat.add_assoc]
    rw [trainEdges, hnext, ih (k + 1), List.zipIdx_cons, List.map_cons]
    rfl

theorem expandLine_train (before : List Input) (c t0 dt : Nat) (bits : List Nat) :
    expandLine before (.train c bits t0 dt) = some (bits.zipIdx.map (trainEdge c t0 dt)) := by
  have hstart := trainEdges_eq_map c t0 dt 0 bits
  rw [Nat.zero_mul, Nat.add_zero] at hstart
  rw [expandLine, hstart]

/-- The timestamp of the last EDGE is that of the last record, where that is an EDGE of the channel. -/
theorem lastEdgeTo_concat_edge (c b t : Nat) (rs : List Input) :
    lastEdgeTo c (rs ++ [.record .edge [.num c, .num b, .num t]]) = some t := by
  simp [lastEdgeTo]

/-- The last EDGE of a non-empty train is that of its last bit. -/
theorem lastEdgeTo_train (c t0 dt : Nat) {bits : List Nat} (h : bits ≠ []) :
    lastEdgeTo c (bits.zipIdx.map (trainEdge c t0 dt)) = some ((t0 + (bits.length - 1) * dt) % 2 ^ 32) := by
  obtain rfl | ⟨init, b, rfl⟩ := List.eq_nil_or_concat bits
  · exact absurd rfl h
  · have hlast : (init.concat b).zipIdx.map (trainEdge c t0 dt) =
        init.zipIdx.map (trainEdge c t0 dt) ++ [trainEdge c t0 dt (b, init.length)] := by
      simp [List.zipIdx_append]
    rw [hlast, List.length_concat, Nat.add_sub_cancel]
    exact lastEdgeTo_concat_edge c b _ _

/-- A script of two lines: the second is expanded after the records of the first (R91). -/
theorem expandScript_pair {l₁ l₂ : ScriptLine} {rs₁ rs₂ : List Input} (h₁ : expandLine [] l₁ = some rs₁)
    (h₂ : expandLine rs₁ l₂ = some rs₂) : expandScript [l₁, l₂] = some (rs₁ ++ rs₂) := by
  simp [expandScript, h₁, h₂]

end Sys2Proof

/-! ## A sample, channel by channel -/

namespace Sys2Proof.Machine

theorem exec_sample {s : State} {d0 d1 : List Nat} (t : Stamp) (h : sampleOk s.cfg d0 d1 = true) :
    exec (.sample t d0 d1) s = .next (sampleOp t d0 d1 s.begin) := if_pos h

/-- What a SAMPLE does to a channel of the block: its own sample, after the sweep (R122). -/
theorem sampleOp_chan (t : Stamp) (d0 d1 : List Nat) {s : State} (hlen : s.chans.length = s.cfg.numReaders)
    {c : Nat} (hc : c < s.cfg.numReaders) :
    ∃ d1First, (sampleOp t d0 d1 s).chan c =
      afterSample d1First t (levelOf d0 c) (levelOf d1 c) ((sweep t s).chan c) := by
  obtain ⟨-, -, -, -, -, hsweep, -⟩ := sweep_frame t s
  obtain ⟨-, -, -, -, hchan⟩ := sampleChans_spec t (fun c => (levelOf d0 c, levelOf d1 c)) (sweep t s)
    (dueList_sweep t s) s.cfg.numReaders
  exact ⟨_, hchan c hc (by rwa [hsweep, hlen])⟩

theorem length_chans_sampleOp (t : Stamp) (d0 d1 : List Nat) (s : State) :
    (sampleOp t d0 d1 s).chans.length = s.chans.length := by
  obtain ⟨-, -, -, -, -, hsweep, -⟩ := sweep_frame t s
  obtain ⟨-, -, hlen, -⟩ := sampleChans_spec t (fun c => (levelOf d0 c, levelOf d1 c)) (sweep t s)
    (dueList_sweep t s) s.cfg.numReaders
  exact hlen.trans hsweep

theorem levelOf_of_getElem? {d : List Nat} {c v : Nat} (h : d[c]? = some v) : levelOf d c = (v == 1) := by
  rw [levelOf, List.getD_eq_getElem?_getD, h, Option.getD_some]

theorem fallingLines_eq (ch : Channel) (l0 l1 : Bool) :
    fallingLines ch l0 l1 =
      (if ch.prev0 = true ∧ l0 = false then [0] else []) ++ (if ch.prev1 = true ∧ l1 = false then [1] else []) := by
  simp [fallingLines]

/-- A sample of a channel (R122): its levels are loaded; after its first sample a line that falls is an edge, and of
two that fall one is. -/
theorem afterSample_cases (d1First : Bool) (t : Stamp) (l0 l1 : Bool) (ch : Channel) :
    let loaded : Channel := { ch with prev0 := l0, prev1 := l1, seen := true }
    let falls0 := ch.prev0 = true ∧ l0 = false
    let falls1 := ch.prev1 = true ∧ l1 = false
    (ch.seen = false → afterSample d1First t l0 l1 ch = loaded) ∧
      (ch.seen = true →
        (¬falls0 → ¬falls1 → afterSample d1First t l0 l1 ch = loaded) ∧
          (falls0 → ¬falls1 → afterSample d1First t l0 l1 ch = afterEdge loaded 0 t) ∧
          (¬falls0 → falls1 → afterSample d1First t l0 l1 ch = afterEdge loaded 1 t) ∧
          (falls0 → falls1 →
            afterSample d1First t l0 l1 ch = afterEdge loaded 0 t ∨
              afterSample d1First t l0 l1 ch = afterEdge loaded 1 t)) := by
  intro loaded falls0 falls1
  refine ⟨fun hseen => by simp [afterSample, hseen, loaded], fun hseen => ⟨?_, ?_, ?_, ?_⟩⟩
  · intro h0 h1
    have hlines : fallingLines ch l0 l1 = [] := by rw [fallingLines_eq, if_neg h0, if_neg h1]; rfl
    simp [afterSample, hseen, hlines, loaded]
  · intro h0 h1
    have hlines : fallingLines ch l0 l1 = [0] := by rw [fallingLines_eq, if_pos h0, if_neg h1]; rfl
    simp [afterSample, hseen, hlines, loaded]
  · intro h0 h1
    have hlines : fallingLines ch l0 l1 = [1] := by rw [fallingLines_eq, if_neg h0, if_pos h1]; rfl
    simp [afterSample, hseen, hlines, loaded]
  · intro h0 h1
    have hlines : fallingLines ch l0 l1 = [0, 1] := by rw [fallingLines_eq, if_pos h0, if_pos h1]; rfl
    cases d1First <;> simp [afterSample, hseen, hlines, loaded]

end Sys2Proof.Machine

/-! ## The statements of 30_encoding.md -/

namespace Sys2Proof.Encoding

open Sys2Proof Sys2Proof.Machine

/-- Settles O12: a BIN row by its tag, a TXT row by its object's selection, a record by its operands. -/
theorem decodeOfEncodeIsTheOperation : Obligations.DecodeOfEncodeIsTheOperation := by
  intro cfg i hwf
  cases i with
  | binIdentify len fields cs | binSetAddress len fields cs | binFeedbackGrant len fields cs
  | binFeedbackDeny len fields cs | binIdentifyResponse len fields cs | binAddressAck len fields cs
  | binCardRead len fields cs | binHeartbeat len fields cs | binRex len fields cs
  | binDoorContact len fields cs => exact congrArg Except.ok (decodeBus_binFrame _ len fields cs)
  | binUnknown tag len fields cs =>
    have htag : binKindOf tag = none := eq_of_beq hwf
    rw [encode, decode, decodeBus_binFrame, htag, Option.elim_none]
  | txtCardRead o | txtHeartbeat o | txtRexEvent o | txtDoorContact o | txtFeedbackGrant o
  | txtFeedbackDeny o | txtIdentify o | txtSetAddress o | txtIdentifyResponse o | txtAddressAck o =>
    exact decode_lineOf_of_variant hwf
  | txtUnknown o => exact decode_lineOf_of_unknown hwf
  | binFiller | pop | binDecode | txtDecode | reset => rfl
  | edge | tick | sample | lookup | binEncode | ev2bin | txtEncode | ev2txt | rxbyte =>
    simp only [encode, eventOperands, decode, decodeRecord, operandU8_toNat, operandU32_toNat, operandEvent_toNat,
      operandBin_binOperands, operandTxt_txtOperands, List.cons_append, List.nil_append]
    rfl

/-- Settles O35: a message's frame decodes to it, and what decodes to a message is its frame. -/
theorem binaryMessagesAndFramesAreInBijection : Obligations.BinaryMessagesAndFramesAreInBijection := by
  intro f m
  constructor
  · intro h
    obtain ⟨hok, rfl⟩ := eq_frameOf_of_binDecode h
    exact ⟨hok, binEncode_of_ok hok⟩
  · rintro ⟨hok, hencode⟩
    rw [binEncode_of_ok hok] at hencode
    obtain rfl := EncResult.frame.inj hencode
    exact binDecode_frameOf hok

/-- Settles O49: an object that selects a row spells a message of the row's variant, or none. -/
theorem txtRowsAcceptExactlyTheirMessages : Obligations.TxtRowsAcceptExactlyTheirMessages := by
  intro s o hcfg hok
  have runs (k : TxtKind) (hsel : txtSelect s.cfg o = .variant k) :
      ∃ r, exec (txtRowOf k o) s = .next (s.answered (.txtDecoded r)) ∧ AcceptsExactly s.cfg o r :=
    ⟨schemaOf k o, exec_txtRowOf hsel, acceptsExactly_schemaOf hcfg hok hsel⟩
  exact ⟨runs .cardRead, runs .heartbeat, runs .rexEvent, runs .doorContact, runs .feedbackGrant,
    runs .feedbackDeny, runs .identify, runs .setAddress, runs .identifyResponse, runs .addressAck⟩

/-- Settles O13 by `decodeBus_binFrame`: the map of R78, tag by tag. -/
theorem tagByteSelectsTheRow : Obligations.TagByteSelectsTheRow := by
  intro cfg tag len cs fields
  refine ⟨rfl, congrArg Except.ok ?_⟩
  rw [← binFrame, decodeBus_binFrame]
  cases hk : binKindOf tag with
  | none =>
    have htag := (binKindOf_eq_none_iff tag).1 hk
    simp only [List.mem_cons, List.not_mem_nil, or_false, not_or] at htag
    simp only [htag, if_false, Option.elim_none]
  | some k =>
    obtain rfl := eq_tag_of_binKindOf hk
    cases k <;> rfl

/-- Settles O40: row and request run the same checks and the same parser. -/
theorem binRowsAgreeWithBinDecode : Obligations.BinRowsAgreeWithBinDecode := by
  intro s tag len cs fields
  have assigned (k : BinKind) := exec_binRowOf k len fields cs s
  exact ⟨assigned .identify, assigned .setAddress, assigned .feedbackGrant, assigned .feedbackDeny,
    assigned .identifyResponse, assigned .addressAck, assigned .cardRead, assigned .heartbeat,
    assigned .rex, assigned .doorContact,
    fun htag => exec_binUnknown ((binKindOf_eq_none_iff tag).2 htag) len fields cs s⟩

/-- Settles O33: BIN_ENCODE answers `frameOf`, whose bytes are written out for each constructor. -/
theorem binEncodeWritesTheFrameOfEveryMessage : Obligations.BinEncodeWritesTheFrameOfEveryMessage := by
  intro s
  have writes {m : BinMsg} {f : Bytes} (hok : binMsgOk m = true) (hf : frameOf m = f) :
      exec (.binEncode (some m)) s = .next (s.answered (.encoded (.frame f))) := hf ▸ exec_binEncode hok s
  refine ⟨rfl, writes rfl rfl, fun a => writes rfl ?_, fun uid huid => writes (decide_eq_true huid) ?_,
    fun st a => writes rfl ?_, fun r bl k => writes rfl ?_, writes rfl rfl, fun r => writes rfl ?_,
    fun r => writes rfl ?_, fun r => writes rfl ?_, fun r => writes rfl ?_, fun r => writes rfl ?_⟩
  all_goals simp [frameOf, binFrame, binFields, stateByte, be32Bytes_eq_ofNat, ← BitVec.xor_assoc, Nat.add_comm]

/-- Settles O48 by the first of the envelope steps that a string fails; what passes them has the layout. -/
theorem txtDecodeAnswersEveryLine : Obligations.TxtDecodeAnswersEveryLine := by
  intro s f
  refine ⟨txtDecode s.cfg f, exec_txtDecode f s, txtDecode_of_truncated s.cfg, txtDecode_of_overlong,
    fun haccepted => ?_⟩
  have hreject : ∀ r, txtDecode s.cfg f ≠ .reject r := by
    intro r hr
    obtain ⟨m, hm⟩ | ⟨ty, cmd, hunknown⟩ := haccepted
    · cases hr.symm.trans hm
    · cases hr.symm.trans hunknown
  obtain ⟨hlen, j, h, l, rfl, hdigits⟩ := eq_txtLine_of_accepted hreject
  exact ⟨hlen, j, h, l, txtLine_eq_append j h l, hdigits⟩

/-- Settles O43: the line is `txtFrame` of the object's text, whose members are spelled out for each variant; what is
outside the alphabet makes it Unencodable. -/
theorem txtEncodeWritesTheLineOfEveryMessage : Obligations.TxtEncodeWritesTheLineOfEveryMessage := by
  intro s line frame writes n alphabet
  have encodes {m : TxtMsg} {inside : Bytes} (hok : txtMsgOk s.cfg m = true) (hstr : stringsOk (txtObject m) = true)
      (hinside : membersBytes (txtObject m) = inside) : writes m inside := by
    have hframe : txtFrame (objectBytes (txtObject m)) = frame (line inside) := by
      rw [txtFrame_eq_append, objectBytes, hinside]
      rfl
    show exec (.txtEncode m) s = _
    rw [exec_txtEncode hok, txtEncode_of_stringsOk s.cfg hstr, hframe]
  have unencodable {m : TxtMsg} (hok : txtMsgOk s.cfg m = true) (hstr : stringsOk (txtObject m) = false) :
      exec (.txtEncode m) s = .next (s.answered (.encoded .unencodable)) := by
    rw [exec_txtEncode hok, txtEncode_of_not_stringsOk s.cfg hstr]
  have within {u : Bytes} (hu : alphabet u) : isStr u = true := (isStr_iff u).2 hu
  have outside {u : Bytes} (hu : ¬alphabet u) : isStr u = false := by
    rw [← Bool.not_eq_true, isStr_iff]
    exact hu
  have known {k u : Bytes} {a r : Byte} (hk : k ∈ s.cfg.deviceKinds) :
      txtMsgOk s.cfg (.identifyResponse k u a r) = true := List.contains_iff_mem.2 hk
  refine ⟨fun a r b k => encodes rfl rfl ?_, fun a => encodes rfl rfl ?_, fun a r => encodes rfl rfl ?_,
    fun a r => encodes rfl rfl ?_, fun a r => encodes rfl rfl ?_, fun a r => encodes rfl rfl ?_,
    fun a r => encodes rfl rfl ?_, encodes rfl rfl ?_, fun a => encodes rfl rfl ?_,
    fun a u hu => encodes rfl ((stringsOk_setAddress a u).trans (within hu)) ?_,
    fun k u a r hk hkind hu => encodes (known hk) ?_ ?_, fun st a => encodes rfl rfl ?_,
    fun a u hu => unencodable rfl ((stringsOk_setAddress a u).trans (outside hu)),
    fun k u a r hk hu => unencodable (known hk) ?_⟩
  case refine_11 => rw [stringsOk_identifyResponse, within hkind, within hu, Bool.and_self]
  case refine_14 => rw [stringsOk_identifyResponse, outside hu, Bool.and_false]
  all_goals
    simp only [txtObject, membersBytes, memberBytes, valueBytes, u8Val, stateVal, List.append_assoc,
      List.cons_append]
    rfl

/-- Settles O45: the envelope adds 6 bytes to an object of at most 87. -/
theorem messagesWithoutStringsFitIn93Bytes : Obligations.MessagesWithoutStringsFitIn93Bytes := by
  intro s m hroom huid hkind
  have hok : txtMsgOk s.cfg m = true := by
    cases m with
    | identifyResponse k u a n => exact absurd rfl (hkind k u a n)
    | _ => rfl
  have hstr := stringsOk_of_no_string huid hkind
  have hlen : (txtFrame (objectBytes (txtObject m))).length ≤ 93 := by
    rw [length_txtFrame]
    exact Nat.add_le_add_right (length_objectBytes_of_no_string huid hkind) 6
  refine ⟨txtFrame (objectBytes (txtObject m)), ?_, hlen⟩
  rw [exec_txtEncode hok, txtEncode_of_stringsOk s.cfg hstr, if_neg (by omega)]

/-- Settles O17: the records of a train by induction on its bits, and WAIT_IDLE from the last of them. -/
theorem scriptMacrosExpandToTheirRecords : Obligations.ScriptMacrosExpandToTheirRecords := by
  intro c t0 dt bits
  refine ⟨fun before => expandLine_train before c t0 dt bits, fun hne => ?_⟩
  exact expandScript_pair (expandLine_train [] c t0 dt bits) (congrArg (Option.map _) (lastEdgeTo_train c t0 dt hne))

/-- Settles O26: the channels are those of `sampleOp_chan`, the rest is as the sweep leaves it. -/
theorem sampleIsASweepAndThenTheFallingLines : Obligations.SampleIsASweepAndThenTheFallingLines := by
  intro s t d0 d1 hok hlen
  obtain ⟨chans, draws, heq⟩ := sampleOp_eq_sweep_with t d0 d1 s.begin
  obtain ⟨hreceiver, henv, -, hresult⟩ := sampleOp_timedFrame t d0 d1 s.begin
  refine ⟨sweep t s.begin, sampleOp t d0 d1 s.begin, exec_tick t s, exec_sample t hok, by rw [heq], by rw [heq],
    hresult, hreceiver, henv, length_chans_sampleOp t d0 d1 s.begin, fun c v0 v1 hv0 hv1 => ?_⟩
  simp only [sampleOk, Bool.and_eq_true, decide_eq_true_iff, List.all_eq_true] at hok
  obtain ⟨⟨⟨hlen0, -⟩, hlevels0⟩, hlevels1⟩ := hok
  have hc : c < s.cfg.numReaders := hlen0 ▸ (List.getElem?_eq_some_iff.1 hv0).1
  obtain ⟨d1First, hchan⟩ := sampleOp_chan t d0 d1 (s := s.begin) hlen hc
  rw [levelOf_of_getElem? hv0, levelOf_of_getElem? hv1] at hchan
  have low {v : Nat} (hv : v ≤ 1) : v = 0 ↔ (v == 1) = false := by
    rw [beq_eq_false_iff_ne]
    omega
  have hlow0 := low (hlevels0 v0 (List.mem_of_getElem? hv0))
  have hlow1 := low (hlevels1 v1 (List.mem_of_getElem? hv1))
  simp only [hchan, hlow0, hlow1]
  exact afterSample_cases d1First t (v0 == 1) (v1 == 1) _

/-- Settles O14 by evaluation of the decoder. -/
theorem exampleFramesDecodeToTheirOperations : Obligations.ExampleFramesDecodeToTheirOperations :=
  ⟨rfl, rfl, rfl, rfl, rfl⟩

end Sys2Proof.Encoding

/-! ## Finished trains, edges, and the draws of a sample -/

namespace Sys2Proof.Machine

/-! ### A finished train -/

/-- FINALIZE of a train (R116, R118): an empty one gives nothing, a 26-bit one that fails parity its diagnostic, any
other its event, or where the queue is full the diagnostic of the drop. -/
theorem finalize_eq (c : Nat) (s : State) :
    finalize c s =
      { s with
        chans := s.chans.modify c finalizedChan
        evq :=
          if (s.chan c).cnt = 0 ∨ ((s.chan c).cnt = 26 ∧ ¬ParityHolds (s.chan c).acc) ∨
              s.cfg.evqCap ≤ s.evq.length then s.evq
          else s.evq ++ [⟨s.cfg.readerId.getD c 0, (s.chan c).acc, (s.chan c).cnt⟩]
        diags := s.diags ++
          if (s.chan c).cnt = 0 then []
          else if (s.chan c).cnt = 26 ∧ ¬ParityHolds (s.chan c).acc then
            [⟨.parity, s.cfg.readerId.getD c 0⟩]
          else if s.cfg.evqCap ≤ s.evq.length then [⟨.evqOverflow, s.cfg.readerId.getD c 0⟩]
          else [] } := by
  rw [finalize, deliver_spec, cleared_eq_finalizedChan]
  generalize s.chan c = ch
  by_cases hempty : ch.cnt = 0
  · have hev : trainEvent s.cfg c ch = none := if_pos (.inl hempty)
    have hdiag : trainDiag s.cfg c ch = none := if_neg (by simp [hempty])
    simp [hev, hdiag, hempty, State.modifyChan]
  by_cases hparity : ch.cnt = 26 ∧ ¬ParityHolds ch.acc
  · have hev : trainEvent s.cfg c ch = none := if_pos (.inr hparity)
    have hdiag : trainDiag s.cfg c ch = some ⟨.parity, s.cfg.readerId.getD c 0⟩ := if_pos hparity
    simp only [hev, hdiag, State.modifyChan, if_neg hempty, if_pos hparity, if_pos (Or.inr (Or.inl hparity)),
      Option.toList_some]
  · have hev : trainEvent s.cfg c ch = some ⟨s.cfg.readerId.getD c 0, ch.acc, ch.cnt⟩ :=
      if_neg (not_or.2 ⟨hempty, hparity⟩)
    by_cases hfull : s.cfg.evqCap ≤ s.evq.length
    · simp only [hev, push_spec, State.modifyChan, if_neg hempty, if_neg hparity, if_pos hfull,
        if_pos (Or.inr (Or.inr hfull))]
    · have hroom : ¬(ch.cnt = 0 ∨ (ch.cnt = 26 ∧ ¬ParityHolds ch.acc) ∨ s.cfg.evqCap ≤ s.evq.length) := by tauto
      simp only [hev, push_spec, State.modifyChan, if_neg hempty, if_neg hparity, if_neg hfull, if_neg hroom,
        List.append_nil]

theorem dueList_eq_singleton {s : State} {t : Stamp} {c : Nat} (hc : c < s.cfg.numReaders)
    (h : ∀ c', c' < s.cfg.numReaders → (TimerDue (s.chan c') t ↔ c' = c)) : dueList s t = [c] := by
  refine List.perm_singleton.1 <|
    (List.perm_ext_iff_of_nodup (dueList_nodup s t) (List.nodup_singleton c)).2 fun c' => ?_
  rw [mem_dueList, List.mem_singleton]
  constructor
  · rintro ⟨hc', hdue⟩
    exact (h c' hc').1 hdue
  · rintro rfl
    exact ⟨hc, (h c' hc).2 rfl⟩

/-- A sweep with one timer due is its FINALIZE, and takes no draw (R115). -/
theorem sweep_of_one_due {s : State} {t : Stamp} {c : Nat} (h : dueList s t = [c]) : sweep t s = finalize c s := by
  obtain ⟨l, d, -, heq, hfew⟩ := sweep_spec t s
  obtain ⟨rfl, rfl⟩ := hfew (by simp [h])
  obtain ⟨-, -, -, hdraws, -⟩ := finalize_frame c s
  rw [heq, h, ← hdraws]
  rfl

/-! ### Parity -/

/-- A running exclusive-or is the parity of the number of ones. -/
theorem foldl_xor_eq_odd_ones (bit : Nat → Bool) (l : List Nat) (p : Bool) :
    l.foldl (fun p i => p ^^ bit i) p = (p ^^ decide ((l.filter bit).length % 2 = 1)) := by
  induction l generalizing p with
  | nil => simp
  | cons i l ih =>
    rw [List.foldl_cons, ih]
    cases hbit : bit i with
    | false => simp [hbit]
    | true =>
      rcases Nat.mod_two_eq_zero_or_one (l.filter bit).length with h | h
      · simp [hbit, h, Nat.add_mod]
      · simp [hbit, h, Nat.add_mod]

/-! ### An edge -/

/-- EDGE on a channel and a line of the block: the sweep, then the edge on that channel alone (R110). -/
theorem exec_edge {c b : Nat} {s : State} (t : Stamp) (h : edgeOk s.cfg c b = true) :
    exec (.edge c b t) s = .next ((sweep t s.begin).modifyChan c fun ch => afterEdge ch b t) :=
  (if_pos h).trans (congrArg Host.Outcome.next (edgeOp_spec c b t s.begin))

theorem eq_of_exec_edge {c b : Nat} {t : Stamp} {s s' : State} (h : exec (.edge c b t) s = .next s') :
    s' = (sweep t s.begin).modifyChan c fun ch => afterEdge ch b t := by
  obtain ⟨-, rfl⟩ := eq_of_guard_next h
  exact edgeOp_spec c b t s.begin

theorem eq_of_exec_tick {t : Stamp} {s s' : State} (h : exec (.tick t) s = .next s') : s' = sweep t s.begin :=
  (Host.Outcome.next.inj h).symm

theorem last_afterEdge {ch : Channel} {b : Nat} {t : Stamp} (h : 200 ≤ elapsed ch.last t) :
    (afterEdge ch b t).last = t := by
  rw [afterEdge, if_neg (Nat.not_lt.2 h)]

/-- What a sweep leaves in a channel follows from the configuration and that channel alone (R123). -/
theorem sweep_chan_congr {s₁ s₂ : State} {c : Nat} (t : Stamp) (hcfg : s₁.cfg = s₂.cfg)
    (hchan : s₁.chan c = s₂.chan c) : (sweep t s₁).chan c = (sweep t s₂).chan c := by
  rw [sweep_chan, sweep_chan, hcfg, hchan]

/-- What a write leaves in a channel follows from that channel and the number of channels. -/
theorem modifyChan_chan_congr {s₁ s₂ : State} {c : Nat} (c' : Nat) (f : Channel → Channel)
    (hlen : s₁.chans.length = s₂.chans.length) (hchan : s₁.chan c = s₂.chan c) :
    (s₁.modifyChan c' f).chan c = (s₂.modifyChan c' f).chan c := by
  by_cases hcc : c' = c
  · subst hcc
    rw [chan_modifyChan, chan_modifyChan, hlen, hchan]
  · rw [chan_modifyChan_ne _ _ hcc, chan_modifyChan_ne _ _ hcc, hchan]

theorem length_chans_sweep (t : Stamp) (s : State) : (sweep t s).chans.length = s.chans.length := by
  obtain ⟨-, -, -, -, -, hlen, -⟩ := sweep_frame t s
  exact hlen

/-! ### The oldest event -/

/-- POP takes the head of the queue, if there is one (R120). -/
theorem exec_pop (s : State) :
    exec .pop s = .next ({ s with evq := s.evq.tail }.answered (.popped s.evq.head?)) := execPop_eq s

/-! ### The draws of a sample -/

/-- Where both lines of a channel fall, its sample is the one edge that the order takes first (R122, R124). -/
theorem afterSample_of_fallsBoth {ch : Channel} (d1First : Bool) (t : Stamp) (hseen : ch.seen = true)
    (h0 : ch.prev0 = true) (h1 : ch.prev1 = true) :
    afterSample d1First t false false ch =
      afterEdge { ch with prev0 := false, prev1 := false } (if d1First then 1 else 0) t := by
  have hlines : fallingLines ch false false = [0, 1] := by simp [fallingLines, h0, h1]
  have hloaded : ({ ch with prev0 := false, prev1 := false, seen := true } : Channel) =
      { ch with prev0 := false, prev1 := false } := by rw [hseen]
  simp only [afterSample, hseen, hlines, hloaded, if_true]

/-- A line whose levels are all 0 or 1 is low exactly where that level is 0 (R72). -/
theorem levelOf_eq_false_iff {d : List Nat} {c : Nat} (hc : c < d.length) (hd : ∀ v ∈ d, v ≤ 1) :
    levelOf d c = false ↔ d[c]? = some 0 := by
  have hle : d[c] ≤ 1 := hd _ (List.getElem_mem hc)
  rw [levelOf_of_getElem? (List.getElem?_eq_getElem hc), List.getElem?_eq_getElem hc, Option.some_inj,
    beq_eq_false_iff_ne]
  omega

theorem sampleOk_iff (cfg : Config) (d0 d1 : List Nat) :
    sampleOk cfg d0 d1 = true ↔
      (d0.length = cfg.numReaders ∧ d1.length = cfg.numReaders) ∧ (∀ v ∈ d0, v ≤ 1) ∧ ∀ v ∈ d1, v ≤ 1 := by
  simp only [sampleOk, Bool.and_eq_true, decide_eq_true_iff, List.all_eq_true, and_assoc]

theorem fallsBoth_levelOf_iff {cfg : Config} {d0 d1 : List Nat} (h : sampleOk cfg d0 d1 = true) {c : Nat}
    (hc : c < cfg.numReaders) (u : State) :
    fallsBoth (u.chan c) (levelOf d0 c) (levelOf d1 c) ↔ BothFall u d0 d1 c := by
  obtain ⟨⟨hlen0, hlen1⟩, hlevels0, hlevels1⟩ := (sampleOk_iff cfg d0 d1).1 h
  rw [fallsBoth, levelOf_eq_false_iff (by omega) hlevels0, levelOf_eq_false_iff (by omega) hlevels1]

/-- SAMPLE after its sweep: each channel on which both lines fall takes the next draw of LINE_ORDER, in channel order,
and is sampled in the order it drew (R122, R124). -/
theorem sampleOp_draws (t : Stamp) {d0 d1 : List Nat} {s : State} (hok : sampleOk s.cfg d0 d1 = true)
    (hlen : s.chans.length = s.cfg.numReaders) :
    (sampleOp t d0 d1 s).draws = (sweep t s).draws + lineDraws (sweep t s) d0 d1 s.cfg.numReaders ∧
      ∀ c, c < s.cfg.numReaders →
        (sampleOp t d0 d1 s).chan c =
          afterSample (Config.d1First ((sweep t s).draws + lineDraws (sweep t s) d0 d1 c) c) t
            (levelOf d0 c) (levelOf d1 c) ((sweep t s).chan c) := by
  obtain ⟨-, heq, -, -, hchan⟩ := sampleChans_spec t (fun c => (levelOf d0 c, levelOf d1 c)) (sweep t s)
    (dueList_sweep t s) s.cfg.numReaders
  have hdraws {n : Nat} (hn : n ≤ s.cfg.numReaders) :
      ((List.range n).filter fun c => decide (fallsBoth ((sweep t s).chan c) (levelOf d0 c) (levelOf d1 c))).length =
        lineDraws (sweep t s) d0 d1 n := by
    refine congrArg List.length (List.filter_congr fun c hc => ?_)
    exact decide_eq_decide.2 (fallsBoth_levelOf_iff hok ((List.mem_range.1 hc).trans_le hn) _)
  refine ⟨?_, fun c hc => ?_⟩
  · rw [← hdraws (Nat.le_refl _)]
    exact congrArg State.draws heq
  · rw [← hdraws (Nat.le_of_lt hc)]
    exact hchan c hc (by rw [length_chans_sweep, hlen]; exact hc)

end Sys2Proof.Machine

/-! ## The statements of 40_decoder.md -/

namespace Sys2Proof.Decoder

open Sys2Proof Sys2Proof.Machine

/-- Settles O19: the sweep's frame, and each channel after it. -/
theorem tickFinalizesExactlyTheDueChannels : Obligations.TickFinalizesExactlyTheDueChannels := by
  intro s t
  obtain ⟨hbuf, hdiscard, hcfg, hresult, hinput, hlen, hevq⟩ := sweep_frame t s.begin
  refine ⟨sweep t s.begin, exec_tick t s, hlen, fun c hc => ?_, fun c hc => ?_, hevq, ⟨hbuf, hdiscard⟩,
    ⟨hcfg, hinput⟩, hresult, fun hidle => ?_⟩
  · simp only [sweep_chan, begin_cfg, begin_chan, hc, true_and]
  · rw [sweep_chan, if_neg fun h => Nat.not_le.2 h.1 hc, begin_chan]
  · have hquiet : dueList s.begin t = [] := dueList_eq_nil hidle
    rw [sweep_quiet hquiet, begin_eq_answered]

/-- Settles O20: the sweep is one FINALIZE (`sweep_of_one_due`), whose cases are those of `finalize_eq`. -/
theorem finishedTrainIsDeliveredOrDiscarded : Obligations.FinishedTrainIsDeliveredOrDiscarded := by
  intro s t c hc hdue
  have hone : dueList s.begin t = [c] := dueList_eq_singleton hc hdue
  rw [exec_tick, sweep_of_one_due hone, finalize_eq]
  rfl

/-- Settles O23: EDGE and TICK share the sweep (`exec_edge`). -/
theorem edgeIsASweepAndThenItsOwnBit : Obligations.EdgeIsASweepAndThenItsOwnBit :=
  fun s _ _ t hc hb => ⟨sweep t s.begin, exec_tick t s, exec_edge t (decide_eq_true ⟨hc, hb⟩)⟩

/-- Settles O24: the accepted edge sets `last` to t, so at t' the timer is not due and the second edge is a
bounce. -/
theorem edgesWithinTheDebounceWindowAreLost : Obligations.EdgesWithinTheDebounceWindowAreLost := by
  intro s u s' s'' c b b' t t' hc htick hgap hedge hsoon hedge'
  obtain rfl := eq_of_exec_tick htick
  obtain rfl := eq_of_exec_edge hedge'
  have hcs : c < (sweep t s.begin).chans.length := (length_chans_sweep t s.begin).symm ▸ hc
  have hlast : (s'.chan c).last = t := by
    rw [eq_of_exec_edge hedge, chan_modifyChan_self _ _ hcs, last_afterEdge hgap]
  have hsoon' : elapsed (s'.chan c).last t' < 200 := hlast.symm ▸ hsoon
  have hidle : ¬TimerDue (s'.chan c) t' := by
    rintro ⟨-, hlate⟩
    omega
  have hsweep : (sweep t' s'.begin).chan c = s'.chan c := by
    rw [sweep_chan, if_neg fun h => hidle h.2, begin_chan]
  rw [modifyChan_eq_self, hsweep]
  rw [hsweep, afterEdge, if_pos hsoon']

/-- Settles O27: of two falling lines the order's first is the edge (`afterSample_of_fallsBoth`), and the order of each
channel is the draw it takes (`sampleOp_draws`). -/
theorem lineOrderDecidesTheSurvivingBit : Obligations.LineOrderDecidesTheSurvivingBit := by
  constructor
  · intro s t c d1First hc hidle hseen h0 h1
    rw [sampleChanBy_spec d1First t c false false s (dueList_eq_nil hidle), chan_modifyChan_self s _ hc,
      afterSample_of_fallsBoth d1First t hseen h0 h1]
  · intro s t d0 d1 hok hlen
    obtain ⟨hdraws, hchan⟩ := sampleOp_draws (s := s.begin) t hok hlen
    refine ⟨sweep t s.begin, sampleOp t d0 d1 s.begin, exec_tick t s, exec_sample t hok, hdraws, ?_⟩
    intro c hfall
    obtain ⟨hseen, h0, h1, hd0, hd1⟩ := hfall
    obtain ⟨⟨hlen0, -⟩, -⟩ := (sampleOk_iff s.cfg d0 d1).1 hok
    have hc : c < s.cfg.numReaders := hlen0 ▸ (List.getElem?_eq_some_iff.1 hd0).1
    rw [hchan c hc, levelOf_of_getElem? hd0, levelOf_of_getElem? hd1]
    exact afterSample_of_fallsBoth _ t hseen h0 h1

/-- Settles O28: the sweep and the write of an edge look at no channel but the one they may change. -/
theorem channelsDoNotInterfere : Obligations.ChannelsDoNotInterfere := by
  intro s₁ s₂ s₁' s₂' c i hi hcfg hlen hchan h₁ h₂
  have hsweep (t : Stamp) : (sweep t s₁.begin).chan c = (sweep t s₂.begin).chan c :=
    sweep_chan_congr t hcfg hchan
  obtain ⟨t, rfl⟩ | ⟨c', b, t, rfl⟩ := hi
  · rw [eq_of_exec_tick h₁, eq_of_exec_tick h₂, hsweep]
  · rw [eq_of_exec_edge h₁, eq_of_exec_edge h₂]
    refine modifyChan_chan_congr c' _ ?_ (hsweep t)
    rw [length_chans_sweep, length_chans_sweep]
    exact hlen

/-- Settles O29: each exclusive-or is the parity of a count of `ParityHolds` (`foldl_xor_eq_odd_ones`). -/
theorem parityVerdictIsTheHalvesExclusiveOr : Obligations.ParityVerdictIsTheHalvesExclusiveOr := by
  intro v
  rw [Bool.eq_iff_iff, w26Ok_iff, foldl_xor_eq_odd_ones fun i => v.getLsbD (13 + i), foldl_xor_eq_odd_ones v.getLsbD]
  simp only [ParityHolds, Bool.false_xor, Bool.and_eq_true, Bool.not_eq_true', decide_eq_true_iff,
    decide_eq_false_iff_not, Nat.mod_two_ne_one]

/-- Settles O31: the ids of R8 are distinct, so the first channel with the id is the only one. -/
theorem lookupReturnsTheChannelOfAReaderId : Obligations.LookupReturnsTheChannelOfAReaderId := by
  intro s rid hcfg
  obtain ⟨-, hnodup, -⟩ := (configOk_iff s.cfg).1 hcfg
  refine ⟨s.cfg.readerId.idxOf? rid, rfl, fun c => ?_, List.idxOf?_eq_none_iff⟩
  rw [List.idxOf?_eq_some_iff, List.getElem?_eq_some_iff]
  refine exists_congr fun hc => and_iff_left_of_imp fun hid j hj hid' => ?_
  exact hj.ne (hnodup.getElem_inj_iff.1 (hid'.trans hid.symm))

/-- Settles O30 by the head and the tail of the queue (`exec_pop`). -/
theorem popTakesTheOldestEvent : Obligations.PopTakesTheOldestEvent := by
  intro s
  rw [exec_pop]
  refine ⟨fun hempty => ?_, fun ev rest hqueue => ?_⟩
  · simp [hempty, State.answered]
  · rw [hqueue]
    rfl

end Sys2Proof.Decoder

/-! ## What BIN_DECODE answers to any string -/

namespace Sys2Proof

open Machine

theorem exec_binDecode (f : Bytes) (s : State) :
    exec (.binDecode f) s = .next (s.answered (.binDecoded (binDecode f))) := rfl

/-- A frame's checksum byte is right exactly where the exclusive-or of the whole frame is 0 (R77). -/
theorem xorBytes_binFrame_eq_zero_iff (tag len : Byte) (fields : Bytes) (cs : Byte) :
    xorBytes (binFrame tag len fields cs) = 0 ↔ cs = xorBytes (tag :: len :: fields) := by
  have hsplit : binFrame tag len fields cs = (tag :: len :: fields) ++ [cs] := rfl
  have hlast : xorBytes [cs] = cs := BitVec.xor_zero
  rw [hsplit, xorBytes_append, xor_eq_zero_iff, hlast, eq_comm]

/-- The steps of R151 before the tag's rule, for any string: its length against the length byte, then the
exclusive-or of all its bytes (R263). -/
theorem binFramingFault_eq (f : Bytes) :
    binFramingFault f =
      if f.length < (byteAt f 1).toNat + 3 then some .binTruncated
      else if (byteAt f 1).toNat + 3 < f.length then some .binLength
      else if xorBytes f ≠ 0 then some .binChecksum
      else none := by
  by_cases hshort : f.length < 3
  · rw [if_pos (by omega)]
    exact if_pos hshort
  · have hf := eq_binFrame (Nat.not_lt.1 hshort)
    generalize byteAt f 0 = tag, byteAt f 1 = len, slice f 2 (f.length - 2) = fields,
      byteAt f (f.length - 1) = cs at hf
    subst hf
    simp only [binFramingFault_binFrame, length_binFrame, Nat.add_lt_add_iff_right, Ne,
      xorBytes_binFrame_eq_zero_iff, eq_comm (a := cs)]

/-- The strings that pass these steps are those of `L + 3` bytes whose exclusive-or is 0 (R152). -/
theorem binFramingFault_eq_none_iff_whole (f : Bytes) :
    binFramingFault f = none ↔ f.length = (byteAt f 1).toNat + 3 ∧ xorBytes f = 0 := by
  rw [binFramingFault_eq]
  constructor
  · intro h
    split_ifs at h with hshort hlong hxor
    exact ⟨by omega, not_not.1 hxor⟩
  · rintro ⟨hlen, hxor⟩
    rw [if_neg (by omega), if_neg (by omega), if_neg (not_not.2 hxor)]

theorem binDecode_of_fault {f : Bytes} {r : RejectReason} (hf : f ≠ [0x00]) (h : binFramingFault f = some r) :
    binDecode f = .reject r := by
  rw [binDecode, if_neg hf, h]

/-- A string shorter than its length byte says, or too short to have one, is truncated. -/
theorem binDecode_of_length_lt {f : Bytes} (hf : f ≠ [0x00]) (h : f.length < (byteAt f 1).toNat + 3) :
    binDecode f = .reject .binTruncated :=
  binDecode_of_fault hf (by rw [binFramingFault_eq, if_pos h])

theorem ne_filler_of_three_le {f : Bytes} (h : 3 ≤ f.length) : f ≠ [0x00] := by
  rintro rfl
  exact absurd h (by decide)

theorem binDecode_of_lt_length {f : Bytes} (h : (byteAt f 1).toNat + 3 < f.length) :
    binDecode f = .reject .binLength :=
  binDecode_of_fault (ne_filler_of_three_le (by omega)) (by rw [binFramingFault_eq, if_neg (by omega), if_pos h])

theorem binDecode_of_xorBytes_ne_zero {f : Bytes} (hlen : f.length = (byteAt f 1).toNat + 3)
    (hxor : xorBytes f ≠ 0) : binDecode f = .reject .binChecksum :=
  binDecode_of_fault (ne_filler_of_three_le (by omega))
    (by rw [binFramingFault_eq, if_neg (by omega), if_neg (by omega), if_pos hxor])

/-- What a tag's rule answers (R153 to R162): a message, or REJ_BIN_FIELDS. -/
theorem parseBin_answers (k : BinKind) (fields : Bytes) :
    (∃ m, parseBin k fields = .msg m) ∨ parseBin k fields = .reject .binFields := by
  cases k with
  | identifyResponse =>
    simp only [parseBin, parseBinIdentifyResponse]
    split
    · split_ifs
      · exact .inl ⟨_, rfl⟩
      · exact .inr rfl
    · exact .inr rfl
  | doorContact =>
    simp only [parseBin, parseBinDoorContact]
    split
    · split_ifs
      · exact .inl ⟨_, rfl⟩
      · exact .inl ⟨_, rfl⟩
      · exact .inr rfl
    · exact .inr rfl
  | _ =>
    simp only [parseBin, parseBinIdentify, parseBinSetAddress, parseBinAddressAck, parseBinCardRead,
      parseBinHeartbeat, parseBinRex, parseBinFeedbackGrant, parseBinFeedbackDeny]
    split
    · exact .inl ⟨_, rfl⟩
    · exact .inr rfl

/-- Past the length and checksum steps BIN_DECODE answers a message, an Unknown or REJ_BIN_FIELDS (R151). -/
theorem binDecode_of_no_fault {f : Bytes} (h : binFramingFault f = none) :
    (∃ m, binDecode f = .msg m) ∨ (∃ tag fields, binDecode f = .unknown tag fields) ∨
      binDecode f = .reject .binFields := by
  obtain ⟨hlen, -⟩ := (binFramingFault_eq_none_iff_whole f).1 h
  rw [binDecode, if_neg (ne_filler_of_three_le (by omega)), h]
  cases binKindOf (byteAt f 0) with
  | none => exact .inr (.inl ⟨_, _, rfl⟩)
  | some k => exact (parseBin_answers k _).imp_right .inr

/-- Only the one byte 00 is answered Filler (R165). -/
theorem binDecode_eq_filler_iff (f : Bytes) : binDecode f = .filler ↔ f = [0x00] := by
  refine ⟨fun h => ?_, fun hf => if_pos hf⟩
  by_contra hf
  cases hfault : binFramingFault f with
  | some r => cases (binDecode_of_fault hf hfault).symm.trans h
  | none =>
    obtain ⟨m, hr⟩ | ⟨tag, fields, hr⟩ | hr := binDecode_of_no_fault hfault
    all_goals cases hr.symm.trans h

/-! ### Framed rows, changed bytes and the event bridge -/

theorem binDecode_of_framed_unknown {tag len cs : Byte} {fields : Bytes} (hframed : Framed tag len fields cs)
    (hk : binKindOf tag = none) : binDecode (binFrame tag len fields cs) = .unknown tag fields := by
  rw [binDecode_binFrame, (binFramingFault_eq_none_iff tag len fields cs).2 hframed, hk]

/-- An assigned tag's row, on a frame whose length and checksum bytes are right, is its parser (R151). -/
theorem exec_binRowOf_of_framed {k : BinKind} {len cs : Byte} {fields : Bytes} (h : Framed k.tag len fields cs)
    (s : State) :
    exec (binRowOf k len fields cs) s = .next (s.answered (.binDecoded (parseBin k fields))) := by
  rw [exec_binRowOf, binDecode_of_framed h (binKindOf_tag k)]

/-- A message's frame is whole: `L + 3` bytes with exclusive-or 0 (R76, R77). -/
theorem frameOf_whole {m : BinMsg} (h : binMsgOk m = true) :
    (frameOf m).length = (byteAt (frameOf m) 1).toNat + 3 ∧ xorBytes (frameOf m) = 0 :=
  (binFramingFault_eq_none_iff_whole _).1 ((binFramingFault_eq_none_iff _ _ _ _).2 (framed_frameOf h))

theorem byteAt_set_self {f : Bytes} {k : Nat} (h : k < f.length) (v : Byte) : byteAt (f.set k v) k = v := by
  simp [byteAt, h]

theorem byteAt_set_ne (f : Bytes) {k i : Nat} (h : k ≠ i) (v : Byte) : byteAt (f.set k v) i = byteAt f i := by
  simp [byteAt, h]

/-- EV2BIN of an event whose code fits 32 bits is BIN_ENCODE of its CardRead (R166). -/
theorem exec_ev2bin_of_fits {ev : ReaderEvent} (h : ev.code.toNat < 2 ^ 32) (s : State) :
    exec (.ev2bin ev) s =
      exec (.binEncode (some (.cardRead ev.readerId ev.bitLength (ev.code.extractLsb' 0 32)))) s :=
  if_neg (Nat.not_le.2 h)

theorem exec_ev2bin_of_too_wide {ev : ReaderEvent} (h : 2 ^ 32 ≤ ev.code.toNat) (s : State) :
    exec (.ev2bin ev) s =
      .next { s with diags := [⟨.unencodable, ev.readerId⟩], result := .encoded .unencodable } := if_pos h

end Sys2Proof

/-! ## The statements of 41_binary_codec.md -/

namespace Sys2Proof.BinaryCodec

open Sys2Proof Sys2Proof.Machine

/-- Settles O34: BIN_ENCODE answers `frameOf`, which decodes to its message (`binDecode_frameOf`). -/
theorem binaryFramesRoundTrip : Obligations.BinaryFramesRoundTrip := by
  intro s m hok
  refine ⟨frameOf m, exec_binEncode hok s, ?_⟩
  rw [exec_binDecode, binDecode_frameOf hok]

/-- Settles O36: a changed byte 1 no longer counts the bytes, and any other changed byte leaves an exclusive-or that is
not 0. -/
theorem oneChangedByteIsRejected : Obligations.OneChangedByteIsRejected := by
  intro s m f k v hok hencode hk hv
  rw [binEncode_of_ok hok] at hencode
  obtain rfl := EncResult.frame.inj hencode
  obtain ⟨hlen, hxor⟩ := frameOf_whole hok
  have hchanged : (frameOf m)[k] ≠ v := fun h => hv (List.getElem?_eq_some_iff.2 ⟨hk, h⟩)
  simp only [exec_binDecode]
  refine ⟨fun hk1 => ?_, fun hk1 => ?_⟩
  · subst hk1
    have hcount : byteAt (frameOf m) 1 = (frameOf m)[1] := by simp [byteAt, hk]
    have hne : (byteAt (frameOf m) 1).toNat ≠ v.toNat := fun h =>
      hchanged (hcount.symm.trans (BitVec.eq_of_toNat_eq h))
    rcases Nat.lt_or_gt_of_ne hne with hlt | hgt
    · left
      rw [binDecode_of_length_lt (ne_filler_of_three_le (by rw [List.length_set]; omega))
        (by rw [List.length_set, byteAt_set_self hk]; omega)]
    · right
      rw [binDecode_of_lt_length (by rw [List.length_set, byteAt_set_self hk]; omega)]
  · rw [binDecode_of_xorBytes_ne_zero]
    · rwa [List.length_set, byteAt_set_ne _ hk1]
    · have hdiff : xorBytes ((frameOf m).set k v) = (frameOf m)[k] ^^^ v := by
        rw [xorBytes_set _ _ _ hk, hxor]
        exact BitVec.zero_xor
      rwa [hdiff, Ne, xor_eq_zero_iff]

/-- Settles O37: a string with a fault is rejected, and one without is whole. -/
theorem binDecodeAnswersEveryString : Obligations.BinDecodeAnswersEveryString := by
  intro s f
  refine ⟨binDecode f, exec_binDecode f s, binDecode_eq_filler_iff f, fun hshort hf => binDecode_short hshort hf,
    fun hlong => ?_, fun haccepted => ?_⟩
  · have hcount := (byteAt f 1).isLt
    exact binDecode_of_lt_length (by omega)
  · have hf : f ≠ [0x00] := by
      rintro rfl
      obtain ⟨m, hr⟩ | ⟨tag, fields, hr⟩ := haccepted
      all_goals cases hr
    cases hfault : binFramingFault f with
    | none => exact (binFramingFault_eq_none_iff_whole f).1 hfault
    | some r =>
      rw [binDecode_of_fault hf hfault] at haccepted
      obtain ⟨m, hr⟩ | ⟨tag, fields, hr⟩ := haccepted
      all_goals cases hr

/-- Settles O38: each row runs its parser (`exec_binRowOf_of_framed`), which is the rule of its tag. -/
theorem binRowsParseTheirFields : Obligations.BinRowsParseTheirFields := by
  intro s len cs fields gives
  have row (k : BinKind) {r : BinResult} (hr : parseBin k fields = r) (h : Framed k.tag len fields cs) :
      gives (binRowOf k len fields cs) r := hr ▸ exec_binRowOf_of_framed h s
  refine ⟨rfl, row .identify ?_, row .setAddress ?_, row .feedbackGrant ?_, row .feedbackDeny ?_,
    row .identifyResponse ?_, row .addressAck ?_, row .cardRead ?_, row .heartbeat ?_, row .rex ?_,
    row .doorContact ?_⟩
  case refine_1 | refine_8 => cases fields <;> rfl
  case refine_5 =>
    cases fields with
    | nil => rfl
    | cons n uid => simp only [parseBin, parseBinIdentifyResponse, eq_comm]
  case refine_7 =>
    simp only [parseBin, parseBinCardRead, ← toNat_be32, BitVec.ofNat_toNat, BitVec.setWidth_eq] <;> rfl
  all_goals rfl

/-- Settles O39: a framed string whose tag selects no rule is an Unknown; the encoder's strings decode to their
messages, or to Filler. -/
theorem unassignedTagGivesUnknown : Obligations.UnassignedTagGivesUnknown := by
  refine ⟨fun s tag len cs fields htag hframed => ?_, fun m f hok hencode tag fields => ?_⟩
  · have hk : binKindOf tag = none := (binKindOf_eq_none_iff tag).2 htag
    have hdecode := binDecode_of_framed_unknown hframed hk
    refine ⟨?_, ?_⟩
    · rw [exec_binUnknown hk, hdecode]
    · rw [← binFrame, exec_binDecode, hdecode]
  · cases m with
    | none =>
      obtain rfl := EncResult.frame.inj hencode
      exact BinResult.noConfusion
    | some m =>
      rw [binEncode_of_ok hok] at hencode
      obtain rfl := EncResult.frame.inj hencode
      rw [binDecode_frameOf hok]
      exact BinResult.noConfusion

/-- Settles O42: EV2BIN of a code of 32 bits is BIN_ENCODE of the CardRead, whose frame O33 writes out. -/
theorem ev2BinFramesCodesOf32Bits : Obligations.Ev2BinFramesCodesOf32Bits := by
  intro s ev
  refine ⟨fun hwide => exec_ev2bin_of_too_wide hwide s, fun hfits => ?_⟩
  have hcode : (ev.code.extractLsb' 0 32).toNat = ev.code.toNat := by
    rw [BitVec.extractLsb'_toNat, Nat.shiftRight_zero, Nat.mod_eq_of_lt hfits]
  obtain ⟨-, -, -, -, -, hcardRead, -⟩ := Encoding.binEncodeWritesTheFrameOfEveryMessage s
  have hframe := hcardRead ev.readerId ev.bitLength (ev.code.extractLsb' 0 32)
  rw [hcode] at hframe
  rw [exec_ev2bin_of_fits hfits]
  exact hframe

/-- Settles O56 by the length and checksum steps in their order (`binFramingFault_eq`); past them a reject is the
parser's. -/
theorem binDecodeChecksInItsOrder : Obligations.BinDecodeChecksInItsOrder := by
  intro s f gives
  have answer {r : BinResult} (h : binDecode f = r) : gives r := h ▸ exec_binDecode f s
  refine ⟨fun hf => answer ((binDecode_eq_filler_iff f).2 hf), fun hf hshort => answer (binDecode_short hshort hf),
    fun tag len fields cs hframe => ?_⟩
  have hf : f = binFrame tag len fields cs := hframe
  have hcount : byteAt f 1 = len := by rw [hf, binFrame_one]
  have hxor : xorBytes f = 0 ↔ cs = xorBytes (tag :: len :: fields) := by rw [hf, xorBytes_binFrame_eq_zero_iff]
  rw [← hcount] at hxor ⊢
  refine ⟨fun hlt => answer (binDecode_of_length_lt (hf ▸ binFrame_ne_filler tag len fields cs) hlt),
    fun hgt => answer (binDecode_of_lt_length hgt),
    fun hlen hcs => answer (binDecode_of_xorBytes_ne_zero hlen (mt hxor.1 hcs)),
    fun hlen hcs => ⟨binDecode f, answer rfl, fun q hq => ?_⟩⟩
  have hnone : binFramingFault f = none := (binFramingFault_eq_none_iff_whole f).2 ⟨hlen, hxor.2 hcs⟩
  obtain ⟨m, hr⟩ | ⟨tag, fields, hr⟩ | hr := binDecode_of_no_fault hnone
  · cases hr.symm.trans hq
  · cases hr.symm.trans hq
  · exact (BinResult.reject.inj (hr.symm.trans hq)).symm

end Sys2Proof.BinaryCodec

/-! ## Objects and their text, and the text codec's round trip -/

namespace Sys2Proof

open Machine

/-! ### PARSE_JSON -/

/-- What the grammar accepts is the text of the object that it answers (R203, R207). -/
theorem parseObject_eq_some {j : Bytes} {o : JObj} (h : parseObject j = some o) :
    (∀ m ∈ o, isStr m.1 = true ∧ m.2.ok = true) ∧ j = objectBytes o := by
  unfold parseObject at h
  split at h
  · cases h
  · next x xs =>
    split_ifs at h with hopen hempty
    · obtain rfl := Option.some.inj h
      exact ⟨by simp, by rw [hopen, hempty]; rfl⟩
    · split at h
      · next hscan =>
        obtain rfl := Option.some.inj h
        obtain ⟨-, hall, hxs⟩ := scanMembers_eq_some hscan
        exact ⟨hall, by rw [hopen, hxs]; rfl⟩
      · cases h

theorem parseJson_objectBytes {o : JObj} (h : objectOk o = true) : parseJson (objectBytes o) = some o := by
  obtain ⟨hall, hnodup⟩ := (objectOk_iff o).1 h
  rw [parseJson, parseObject_objectBytes hall]
  exact if_pos hnodup

theorem parseJson_eq_some {j : Bytes} {o : JObj} (h : parseJson j = some o) :
    objectOk o = true ∧ j = objectBytes o := by
  unfold parseJson at h
  split at h
  · next p hp =>
    obtain ⟨hall, hj⟩ := parseObject_eq_some hp
    split_ifs at h with hnodup
    obtain rfl := Option.some.inj h
    exact ⟨(objectOk_iff _).2 ⟨hall, hnodup⟩, hj⟩
  · cases h

/-- PARSE_JSON reads an object exactly from its one compact text (R203 to R205). -/
theorem parseJson_eq_some_iff {j : Bytes} {o : JObj} :
    parseJson j = some o ↔ objectOk o = true ∧ j = objectBytes o :=
  ⟨parseJson_eq_some, fun ⟨hok, hj⟩ => hj ▸ parseJson_objectBytes hok⟩

/-! ### The order of an object's members -/

/-- Each member stands behind a comma, once the list has one in front. -/
theorem comma_cons_membersBytes {o : JObj} (h : o ≠ []) :
    comma :: membersBytes o = o.flatMap fun m => comma :: memberBytes m := by
  induction o with
  | nil => exact absurd rfl h
  | cons m ms ih =>
    cases ms with
    | nil => simp [membersBytes]
    | cons m' ms =>
      rw [List.flatMap_cons, ← ih (by simp)]
      simp [membersBytes]

/-- Members in another order are spelled by the same bytes in another order. -/
theorem objectBytes_perm {o o' : JObj} (h : o.Perm o') : (objectBytes o).Perm (objectBytes o') := by
  by_cases ho : o = []
  · subst ho
    rw [h.nil_eq]
  · have ho' : o' ≠ [] := fun he => ho (h.trans (.of_eq he)).eq_nil
    have hmembers : (comma :: membersBytes o).Perm (comma :: membersBytes o') := by
      rw [comma_cons_membersBytes ho, comma_cons_membersBytes ho']
      exact h.flatMap_right _
    exact (hmembers.cons_inv.append_right _).cons _

theorem txtSelect_perm (cfg : Config) {o o' : JObj} (h : o.Perm o') (hn : (o.map Prod.fst).Nodup) :
    txtSelect cfg o = txtSelect cfg o' := by
  simp only [txtSelect, getStr_perm h hn]

/-- A variant's schema looks its keys up, wherever they stand (R221). -/
theorem schemaOf_perm (k : TxtKind) {o o' : JObj} (h : o.Perm o') (hn : (o.map Prod.fst).Nodup) :
    schemaOf k o = schemaOf k o' := by
  cases k
  all_goals
    simp only [schemaOf, schemaCardRead, schemaHeartbeat, schemaRexEvent, schemaDoorContact, schemaFeedbackGrant,
      schemaFeedbackDeny, schemaIdentify, schemaSetAddress, schemaIdentifyResponse, schemaAddressAck, txtSchema,
      closedKeys_perm h, getU8_perm h hn, getU64_perm h hn, getStr_perm h hn, getOptStr_perm h hn,
      getState_perm h hn]

theorem txtSchemaOf_perm (cfg : Config) {o o' : JObj} (h : o.Perm o') (hn : (o.map Prod.fst).Nodup) :
    txtSchemaOf cfg o = txtSchemaOf cfg o' := by
  simp only [txtSchemaOf, txtSelect_perm cfg h hn, schemaOf_perm _ h hn]

/-! ### The schema's answers -/

theorem txtSchemaOf_of_noType {cfg : Config} {o : JObj} (h : txtSelect cfg o = .noType) :
    txtSchemaOf cfg o = .reject .txtFields := by
  simp only [txtSchemaOf, h]

theorem txtSchemaOf_of_unknown {cfg : Config} {o : JObj} {ty : Bytes} {cmd : Option Bytes}
    (h : txtSelect cfg o = .unknown ty cmd) : txtSchemaOf cfg o = .unknown ty cmd := by
  simp only [txtSchemaOf, h]

theorem txtSchemaOf_of_variant {cfg : Config} {o : JObj} {k : TxtKind} (h : txtSelect cfg o = .variant k) :
    txtSchemaOf cfg o = schemaOf k o := by
  simp only [txtSchemaOf, h]

/-- The schema rejects for the fields alone (R206). -/
theorem eq_txtFields_of_txtSchemaOf {cfg : Config} {o : JObj} {r : RejectReason}
    (h : txtSchemaOf cfg o = .reject r) : r = .txtFields := by
  cases hsel : txtSelect cfg o with
  | noType =>
    rw [txtSchemaOf_of_noType hsel] at h
    exact (TxtResult.reject.inj h).symm
  | unknown ty cmd =>
    rw [txtSchemaOf_of_unknown hsel] at h
    cases h
  | variant k =>
    rw [txtSchemaOf_of_variant hsel] at h
    obtain ⟨m, -, hm⟩ | hreject := schemaOf_cases k o
    · cases hm.symm.trans h
    · exact (TxtResult.reject.inj (hreject.symm.trans h)).symm

/-- An object that spells a well-typed message decodes to it (R206). -/
theorem txtSchemaOf_of_spells {cfg : Config} (hcfg : configOk cfg = true) {o : JObj} {m : TxtMsg}
    (hok : txtMsgOk cfg m = true) (h : Spells o m) : txtSchemaOf cfg o = .msg m := by
  have hsel := txtSelect_of_spells hcfg hok h
  rw [txtSchemaOf_of_variant hsel]
  exact (schemaOf_kind_eq_msg_iff (lookup_selectingMembers hsel)).2 h

/-! ### The encoder's line -/

/-- The keys of a message are strings of the alphabet (R84, R205). -/
theorem isStr_key_of_mem_txtObject {m : TxtMsg} {p : Bytes × JVal} (h : p ∈ txtObject m) : isStr p.1 = true := by
  have hall : ((txtObject m).all fun p => isStr p.1) = true := by
    cases m with
    | setAddress n u => cases u <;> exact of_decide_eq_true rfl
    | _ => exact of_decide_eq_true rfl
  exact List.all_eq_true.1 hall p h

/-- The numbers of a message are its fields, of at most 64 bits (R86). -/
theorem lt_of_num_mem_txtObject (m : TxtMsg) : ∀ p ∈ txtObject m, ∀ n, p.2 = .num n → n < 2 ^ 64 := by
  have hbyte (v : Byte) : v.toNat < 2 ^ 64 := v.isLt.trans (by decide)
  have hcode (v : Code) : v.toNat < 2 ^ 64 := v.isLt
  cases m with
  | setAddress _ u => cases u <;> simp [txtObject, u8Val, hbyte, -Nat.reducePow]
  | doorContact _ _ st => cases st <;> simp [txtObject, u8Val, stateVal, hbyte, -Nat.reducePow]
  | _ => simp [txtObject, u8Val, hbyte, hcode, -Nat.reducePow]

/-- A message with strings of the alphabet makes an object that PARSE_JSON can answer. -/
theorem objectOk_txtObject {m : TxtMsg} (h : stringsOk (txtObject m) = true) : objectOk (txtObject m) = true := by
  refine (objectOk_iff _).2 ⟨fun p hp => ⟨isStr_key_of_mem_txtObject hp, ?_⟩, txtObject_keys_nodup m⟩
  obtain ⟨k, s | n⟩ := p
  · exact List.all_eq_true.1 h _ hp
  · exact decide_eq_true (lt_of_num_mem_txtObject m _ hp n rfl)

/-- What TXT_ENCODE frames: the line of the message's object, its strings of the alphabet and within TXT_MAX_LINE. -/
theorem txtEncode_eq_frame_iff {cfg : Config} {m : TxtMsg} {f : Bytes} :
    txtEncode cfg m = .frame f ↔
      stringsOk (txtObject m) = true ∧ f = txtFrame (objectBytes (txtObject m)) ∧ f.length ≤ cfg.txtMaxLine := by
  cases hstr : stringsOk (txtObject m) with
  | false => simp [txtEncode_of_not_stringsOk cfg hstr]
  | true =>
    rw [txtEncode_of_stringsOk cfg hstr]
    split_ifs with hlen
    · refine iff_of_false (by simp) ?_
      rintro ⟨-, rfl, hle⟩
      omega
    · rw [EncResult.frame.injEq]
      constructor
      · rintro rfl
        exact ⟨rfl, rfl, by omega⟩
      · rintro ⟨-, rfl, -⟩
        rfl

/-- R220: a well-typed message's frame decodes to the message. -/
theorem txtDecode_of_txtEncode {cfg : Config} {m : TxtMsg} {f : Bytes} (hcfg : configOk cfg = true)
    (hok : txtMsgOk cfg m = true) (h : txtEncode cfg m = .frame f) : txtDecode cfg f = .msg m := by
  obtain ⟨hstr, rfl, hlen⟩ := txtEncode_eq_frame_iff.1 h
  rw [length_txtFrame] at hlen
  rw [txtDecode_txtFrame cfg (objectOk_txtObject hstr), if_neg (by omega)]
  exact txtSchemaOf_of_spells hcfg hok ((spells_iff_perm (txtObject_keys_nodup m) m).2 (.refl _))

end Sys2Proof

/-! ## What TXT_DECODE answers to a line, step by step -/

namespace Sys2Proof

open Machine

/-! ### The checksum digits -/

/-- The decoder reads the digits of R201, in either letter case. -/
theorem hexVal_eq_some_iff {b : Byte} {n : Nat} : hexVal b = some n ↔ HexDigit b n := by
  simp only [hexVal]
  split_ifs <;> simp only [Option.some.injEq, false_iff] <;> omega

theorem hexVal_eq_none_iff {b : Byte} : hexVal b = none ↔ ∀ n, ¬HexDigit b n := by
  simp only [Option.eq_none_iff_forall_ne_some, ← hexVal_eq_some_iff, ne_eq]

/-- The encoder's digit of a nibble, as a place in R201's row of digits. -/
theorem hexDigit_eq_getD {n : Nat} (h : n < 16) : hexDigit n = (ascii "0123456789ABCDEF").getD n 0 := by
  interval_cases n <;> decide +kernel

theorem hexPair_eq_none_iff {h l : Byte} : hexPair h l = none ↔ hexVal h = none ∨ hexVal l = none := by
  unfold hexPair
  cases hexVal h <;> cases hexVal l <;> simp

/-- Two digits spell 16 times the first value plus the second (R201). -/
theorem hexPair_eq_some_iff_of_digits {h l v : Byte} {a b : Nat} (ha : HexDigit h a) (hb : HexDigit l b) :
    hexPair h l = some v ↔ 16 * a + b = v.toNat := by
  rw [hexPair, hexVal_eq_some_iff.2 ha, hexVal_eq_some_iff.2 hb]
  simp only [Option.some.injEq]
  rw [← BitVec.toNat_inj, BitVec.toNat_ofNat, Nat.mod_eq_of_lt (by omega)]

theorem hexPair_ne_none {h l : Byte} {a b : Nat} (ha : HexDigit h a) (hb : HexDigit l b) : hexPair h l ≠ none := by
  rw [ne_eq, hexPair_eq_none_iff, hexVal_eq_some_iff.2 ha, hexVal_eq_some_iff.2 hb]
  simp

/-- Two digits spell a byte exactly where they have the values of its nibbles. -/
theorem hexPair_eq_some_iff {h l v : Byte} :
    hexPair h l = some v ↔ hexVal h = some (v.toNat / 16) ∧ hexVal l = some (v.toNat % 16) := by
  by_cases hnone : hexPair h l = none
  · rw [hnone]
    obtain hh | hl := hexPair_eq_none_iff.1 hnone
    · simp [hh]
    · simp [hl]
  · simp only [hexPair_eq_none_iff, not_or, Option.ne_none_iff_exists'] at hnone
    obtain ⟨⟨a, ha⟩, b, hb⟩ := hnone
    have hlow := hexVal_lt hb
    rw [hexPair_eq_some_iff_of_digits (hexVal_eq_some_iff.1 ha) (hexVal_eq_some_iff.1 hb), ha, hb, Option.some.injEq,
      Option.some.injEq]
    omega

/-! ### A replaced digit -/

/-- Of two digits h and l one, `old`, has been replaced by x: the digits are now h' and l'. -/
inductive Replaced (h l old x : Byte) : Byte → Byte → Prop
  | high (hold : old = h) : Replaced h l old x x l
  | low (hold : old = l) : Replaced h l old x h x

theorem Replaced.no_digits {h l old x h' l' : Byte} (hrep : Replaced h l old x h' l') (hx : hexVal x = none) :
    hexPair h' l' = none := by
  cases hrep with
  | high => exact hexPair_eq_none_iff.2 (.inl hx)
  | low => exact hexPair_eq_none_iff.2 (.inr hx)

/-- Digits that spell a byte spell none with another digit in place of one of them. -/
theorem Replaced.other_digits {h l old x h' l' v : Byte} (hrep : Replaced h l old x h' l')
    (hdigits : hexPair h l = some v) {n : Nat} (hx : hexVal x = some n) (hne : hexVal old ≠ some n) :
    hexPair h' l' ≠ none ∧ hexPair h' l' ≠ some v := by
  obtain ⟨hh, hl⟩ := hexPair_eq_some_iff.1 hdigits
  rw [ne_eq, ne_eq, hexPair_eq_none_iff, hexPair_eq_some_iff]
  cases hrep with
  | high hold =>
    subst hold
    rw [hx, hl, ← hh]
    exact ⟨by simp, fun ⟨hsame, _⟩ => hne hsame.symm⟩
  | low hold =>
    subst hold
    rw [hx, hh, ← hl]
    exact ⟨by simp, fun ⟨_, hsame⟩ => hne hsame.symm⟩

theorem Replaced.same_digits {h l old x h' l' : Byte} (hrep : Replaced h l old x h' l')
    (hx : hexVal x = hexVal old) : hexPair h' l' = hexPair h l := by
  cases hrep with
  | high hold => simp only [hexPair, hx, hold]
  | low hold => simp only [hexPair, hx, hold]

/-- A changed checksum byte of a line makes it the line of the same payload with that digit replaced. -/
theorem set_txtLine {j : Bytes} {h l old : Byte} {k : Nat}
    (hk : k = (txtLine j h l).length - 3 ∨ k = (txtLine j h l).length - 2) (hold : (txtLine j h l)[k]? = some old)
    (x : Byte) : ∃ h' l', (txtLine j h l).set k x = txtLine j h' l' ∧ Replaced h l old x h' l' := by
  rw [length_txtLine] at hk
  obtain rfl | rfl : k = j.length + 2 + 1 ∨ k = j.length + 3 + 1 := by omega
  · refine ⟨x, l, ?_, .high ?_⟩
    · simp [txtLine]
    · simpa [txtLine, eq_comm] using hold
  · refine ⟨h, x, ?_, .low ?_⟩
    · simp [txtLine]
    · simpa [txtLine, eq_comm] using hold

/-! ### The steps past the length -/

theorem lineOfParts_eq_txtLine (j : Bytes) (h l : Byte) : lineOfParts j h l = txtLine j h l :=
  (txtLine_eq_append j h l).symm

theorem getElem?_eq_some_iff_byteAt {f : Bytes} {i : Nat} (h : i < f.length) (x : Byte) :
    f[i]? = some x ↔ byteAt f i = x := by
  simp [byteAt, List.getElem?_eq_getElem h]

/-- A line within TXT_MAX_LINE whose markers are not in their places (R202). -/
theorem txtDecode_of_envelope {cfg : Config} {f : Bytes} (hlen : 6 ≤ f.length) (hlast : f.getLast? = some newline)
    (hmax : f.length ≤ cfg.txtMaxLine)
    (hmarks : ¬(f[0]? = some markOpen ∧ f[f.length - 5]? = some markClose ∧ f[f.length - 4]? = some markBar)) :
    txtDecode cfg f = .reject .txtEnvelope := by
  have hnewline := (getLast?_eq_some_iff_byteAt (show 0 < f.length by omega) newline).1 hlast
  have hwhole : ¬(f.length < 6 ∨ byteAt f (f.length - 1) ≠ newline) := by
    rintro (h | h)
    · omega
    · exact h hnewline
  rw [getElem?_eq_some_iff_byteAt (by omega), getElem?_eq_some_iff_byteAt (by omega),
    getElem?_eq_some_iff_byteAt (by omega), not_and_or, not_and_or] at hmarks
  exact txtDecode_of_fault ((if_neg hwhole).trans ((if_neg (by omega)).trans (if_pos hmarks)))

/-- A checksum byte that is no digit (R201, R202). -/
theorem txtDecode_txtLine_of_no_digits {cfg : Config} {j : Bytes} {h l : Byte} (hlen : j.length + 6 ≤ cfg.txtMaxLine)
    (hdigits : hexPair h l = none) : txtDecode cfg (txtLine j h l) = .reject .txtHex := by
  refine txtDecode_of_fault ?_
  rw [txtFramingFault_txtLine, if_neg (by omega), hdigits]

/-- Digits that spell another value than the exclusive-or of the payload (R82, R202). -/
theorem txtDecode_txtLine_of_wrong_digits {cfg : Config} {j : Bytes} {h l : Byte} (hlen : j.length + 6 ≤ cfg.txtMaxLine)
    (hdigits : hexPair h l ≠ none) (hne : hexPair h l ≠ some (xorBytes j)) :
    txtDecode cfg (txtLine j h l) = .reject .txtChecksum := by
  refine txtDecode_of_fault ?_
  obtain ⟨v, hv⟩ := Option.ne_none_iff_exists'.1 hdigits
  rw [hv, ne_eq, Option.some.injEq] at hne
  rw [txtFramingFault_txtLine, if_neg (by omega), hv]
  exact if_pos hne

/-- TXT_DECODE looks at the value of the checksum digits alone. -/
theorem txtDecode_txtLine_congr (cfg : Config) (j : Bytes) {h l h' l' : Byte} (hdigits : hexPair h' l' = hexPair h l) :
    txtDecode cfg (txtLine j h' l') = txtDecode cfg (txtLine j h l) := by
  simp only [txtDecode, txtFramingFault_txtLine, txtPayload_txtLine, hdigits]

/-- A line with the right digits goes on to the grammar and the schema (R202, R264). -/
theorem txtFramingFault_txtLine_eq_none {cfg : Config} {j : Bytes} {h l : Byte} (hlen : j.length + 6 ≤ cfg.txtMaxLine)
    (hdigits : hexPair h l = some (xorBytes j)) : txtFramingFault cfg (txtLine j h l) = none := by
  rw [txtFramingFault_txtLine, if_neg (by omega), hdigits]
  exact if_neg (not_not.2 rfl)

/-- A payload that spells no object (R203). -/
theorem txtDecode_txtLine_of_no_object {cfg : Config} {j : Bytes} {h l : Byte} (hlen : j.length + 6 ≤ cfg.txtMaxLine)
    (hdigits : hexPair h l = some (xorBytes j)) (hj : ∀ o, objectOk o = true → j ≠ objectBytes o) :
    txtDecode cfg (txtLine j h l) = .reject .txtJson := by
  have hnone : parseJson j = none := by
    refine Option.eq_none_iff_forall_ne_some.2 fun o ho => ?_
    obtain ⟨hok, hspelled⟩ := parseJson_eq_some ho
    exact hj o hok hspelled
  simp only [txtDecode, txtFramingFault_txtLine_eq_none hlen hdigits, txtPayload_txtLine, hnone]

theorem txtDecode_txtLine_of_object {cfg : Config} {h l : Byte} {o : JObj} (hok : objectOk o = true)
    (hlen : (objectBytes o).length + 6 ≤ cfg.txtMaxLine) (hdigits : hexPair h l = some (xorBytes (objectBytes o))) :
    txtDecode cfg (txtLine (objectBytes o) h l) = txtSchemaOf cfg o := by
  simp only [txtDecode, txtFramingFault_txtLine_eq_none hlen hdigits, txtPayload_txtLine, parseJson_objectBytes hok]

/-- Past the digits a line is rejected for its grammar or its fields alone (R264). -/
theorem reject_of_right_digits {cfg : Config} {j : Bytes} {h l : Byte} {r : RejectReason}
    (hlen : j.length + 6 ≤ cfg.txtMaxLine) (hdigits : hexPair h l = some (xorBytes j))
    (hr : txtDecode cfg (txtLine j h l) = .reject r) : r = .txtJson ∨ r = .txtFields := by
  by_cases hj : ∃ o, objectOk o = true ∧ j = objectBytes o
  · obtain ⟨o, hok, rfl⟩ := hj
    rw [txtDecode_txtLine_of_object hok hlen hdigits] at hr
    exact .inr (eq_txtFields_of_txtSchemaOf hr)
  · rw [txtDecode_txtLine_of_no_object hlen hdigits fun o hok he => hj ⟨o, hok, he⟩] at hr
    exact .inl (TxtResult.reject.inj hr).symm

theorem txtDecode_txtLine_eq_txtHex_iff {cfg : Config} {j : Bytes} {h l : Byte} (hlen : j.length + 6 ≤ cfg.txtMaxLine) :
    txtDecode cfg (txtLine j h l) = .reject .txtHex ↔ hexPair h l = none := by
  refine ⟨fun hr => ?_, txtDecode_txtLine_of_no_digits hlen⟩
  by_contra hdigits
  by_cases hxor : hexPair h l = some (xorBytes j)
  · obtain hjson | hfields := reject_of_right_digits hlen hxor hr
    · cases hjson
    · cases hfields
  · cases (txtDecode_txtLine_of_wrong_digits hlen hdigits hxor).symm.trans hr

theorem txtDecode_txtLine_eq_txtChecksum_iff {cfg : Config} {j : Bytes} {h l : Byte}
    (hlen : j.length + 6 ≤ cfg.txtMaxLine) (hdigits : hexPair h l ≠ none) :
    txtDecode cfg (txtLine j h l) = .reject .txtChecksum ↔ hexPair h l ≠ some (xorBytes j) := by
  refine ⟨fun hr hxor => ?_, txtDecode_txtLine_of_wrong_digits hlen hdigits⟩
  obtain hjson | hfields := reject_of_right_digits hlen hxor hr
  · cases hjson
  · cases hfields

end Sys2Proof

/-! ## Rows and requests of the text port -/

namespace Sys2Proof

open Machine

/-! ### An object's selection -/

/-- TXT_DECODE's result says what it answers. -/
theorem exec_txtDecode_eq_iff {f : Bytes} {s : State} {r : TxtResult} :
    exec (.txtDecode f) s = .next (s.answered (.txtDecoded r)) ↔ txtDecode s.cfg f = r := by
  rw [exec_txtDecode]
  refine ⟨fun h => ?_, fun h => by rw [h]⟩
  exact Result.txtDecoded.inj (congrArg State.result (Host.Outcome.next.inj h))

theorem txtCommandOf_eq_none_iff (cmd : Bytes) :
    txtCommandOf cmd = none ↔
      cmd ∉ [ascii "feedback_grant", ascii "feedback_deny", ascii "identify", ascii "set_address"] := by
  simp only [txtCommandOf, List.mem_cons, List.not_mem_nil, or_false, not_or]
  split_ifs <;> simp_all

theorem txtTypeOf_eq_none_iff (cfg : Config) (ty : Bytes) :
    txtTypeOf cfg ty = none ↔
      ty ∉ [ascii "card_read", ascii "heartbeat", ascii "event_rex", ascii "event_door_contact",
        ascii "ack_set_address"] ∧ ty ∉ cfg.deviceKinds := by
  simp only [txtTypeOf, List.mem_cons, List.not_mem_nil, or_false, not_or]
  split_ifs <;> simp_all

/-- An object without a string type, or a command without a string cmd, selects nothing (R206). -/
theorem txtSelect_of_no_type {cfg : Config} {o : JObj} (h : ∀ ty, o.lookup kType ≠ some (.str ty)) :
    txtSelect cfg o = .noType := by
  have hnone : getStr o kType = none :=
    Option.eq_none_iff_forall_ne_some.2 fun ty hty => h ty (getStr_eq_some_iff.1 hty)
  simp only [txtSelect, hnone]

theorem txtSelect_of_no_cmd {cfg : Config} {o : JObj} (hty : o.lookup kType = some (.str tCommand))
    (h : ∀ cmd, o.lookup kCmd ≠ some (.str cmd)) : txtSelect cfg o = .noType := by
  have hnone : getStr o kCmd = none :=
    Option.eq_none_iff_forall_ne_some.2 fun cmd hcmd => h cmd (getStr_eq_some_iff.1 hcmd)
  simp only [txtSelect, getStr_eq_some_iff.2 hty, hnone, if_true]

/-- A type that is no fixed tag and no device kind selects an Unknown (R218). -/
theorem txtSelect_of_unassigned_type {cfg : Config} {o : JObj} {ty : Bytes} (hty : o.lookup kType = some (.str ty))
    (hne : ty ≠ tCommand) (h : txtTypeOf cfg ty = none) : txtSelect cfg o = .unknown ty none := by
  simp only [txtSelect, getStr_eq_some_iff.2 hty, if_neg hne, h]

/-- A cmd that is no command selects an Unknown with both strings (R218). -/
theorem txtSelect_of_unassigned_cmd {cfg : Config} {o : JObj} {cmd : Bytes}
    (hty : o.lookup kType = some (.str tCommand)) (hcmd : o.lookup kCmd = some (.str cmd))
    (h : txtCommandOf cmd = none) : txtSelect cfg o = .unknown tCommand (some cmd) := by
  simp only [txtSelect, getStr_eq_some_iff.2 hty, getStr_eq_some_iff.2 hcmd, h, if_true]

/-! ### Rows and their lines -/

theorem exec_txtUnknown {s : State} {o : JObj} {ty : Bytes} {cmd : Option Bytes}
    (h : txtSelect s.cfg o = .unknown ty cmd) :
    exec (.txtUnknown o) s = .next (s.answered (.txtDecoded (.unknown ty cmd))) := by
  show execTxtUnknown o s = _
  simp only [execTxtUnknown, h]
  rfl

/-- TXT_DECODE of a line that is not too long is the schema's answer to its object (R202, R206). -/
theorem exec_txtDecode_txtFrame {s : State} {o : JObj} (hok : objectOk o = true)
    (hlen : (txtFrame (objectBytes o)).length ≤ s.cfg.txtMaxLine) :
    exec (.txtDecode (txtFrame (objectBytes o))) s = .next (s.answered (.txtDecoded (txtSchemaOf s.cfg o))) := by
  rw [length_txtFrame] at hlen
  rw [exec_txtDecode, txtDecode_txtFrame s.cfg hok, if_neg (by omega)]

/-- A variant's row does what TXT_DECODE does with its line. -/
theorem exec_txtRowOf_eq_exec_txtDecode {s : State} {k : TxtKind} {o : JObj}
    (h : txtRowWf s.cfg (.variant k) o = true) :
    exec (txtRowOf k o) s = exec (.txtDecode (txtFrame (objectBytes o))) s := by
  simp only [txtRowWf, Bool.and_eq_true, decide_eq_true_iff] at h
  obtain ⟨⟨hok, hsel⟩, hlen⟩ := h
  rw [exec_txtRowOf hsel, exec_txtDecode_txtFrame hok hlen, txtSchemaOf_of_variant hsel]

theorem exec_txtUnknown_eq_exec_txtDecode {s : State} {o : JObj} (h : txtUnknownWf s.cfg o = true) :
    exec (.txtUnknown o) s = exec (.txtDecode (txtFrame (objectBytes o))) s := by
  simp only [txtUnknownWf, Bool.and_eq_true, decide_eq_true_iff] at h
  obtain ⟨⟨hok, hsel⟩, hlen⟩ := h
  cases hs : txtSelect s.cfg o with
  | unknown ty cmd => rw [exec_txtUnknown hs, exec_txtDecode_txtFrame hok hlen, txtSchemaOf_of_unknown hs]
  | noType | variant k => simp [hs] at hsel

/-! ### EV2TXT -/

/-- The CardRead of an event (R219). -/
theorem txtEncode_cardRead (cfg : Config) (a r b : Byte) (k : Code) :
    txtEncode cfg (.cardRead a r k b) =
      if cfg.txtMaxLine < (txtFrame (objectBytes (txtObject (.cardRead a r k b)))).length then .unencodable
      else .frame (txtFrame (objectBytes (txtObject (.cardRead a r k b)))) :=
  txtEncode_of_stringsOk cfg rfl

/-- EV2TXT returns what TXT_ENCODE makes of the event's CardRead, and reports an Unencodable (R219). -/
theorem exec_ev2txt (ev : ReaderEvent) (a : Byte) (s : State) {r : EncResult}
    (hr : txtEncode s.cfg (.cardRead a ev.readerId ev.code ev.bitLength) = r) :
    exec (.ev2txt ev a) s = .next { s with
      diags := if r = .unencodable then [⟨.unencodable, ev.readerId⟩] else []
      result := .encoded r } := by
  show execEv2txt ev a s = _
  rw [execEv2txt, hr]
  by_cases hu : r = .unencodable
  · simp only [if_pos hu]
    rfl
  · simp only [if_neg hu]
    rfl

end Sys2Proof

/-! ## The line receiver -/

namespace Sys2Proof.Machine

/-! ### One byte -/

/-- A newline ends the throwing away of a line (R230). -/
theorem exec_rxbyte_discarded_newline {s : State} (h : s.rxdiscard = true) :
    exec (.rxbyte newline) s = .next { s.answered (.received none) with rxdiscard := false } := by
  show Host.Outcome.next (receive newline s.begin) = _
  rw [receive, begin_rxdiscard, if_pos h, if_pos rfl]
  rfl

theorem exec_rxbyte_discarded {s : State} {x : Byte} (h : s.rxdiscard = true) (hx : x ≠ newline) :
    exec (.rxbyte x) s = .next (s.answered (.received none)) := by
  show Host.Outcome.next (receive x s.begin) = _
  rw [receive, begin_rxdiscard, if_pos h, if_neg hx]
  rfl

/-- A newline hands the buffered line to TXT_DECODE (R230). -/
theorem exec_rxbyte_newline {s : State} (h : s.rxdiscard = false) :
    exec (.rxbyte newline) s = .next
      { s.answered (.received (some (txtDecode s.cfg (s.rxbuf ++ [newline])))) with rxbuf := [] } := by
  show Host.Outcome.next (receive newline s.begin) = _
  rw [receive, begin_rxdiscard, if_neg (by simp [h]), if_pos rfl]
  rfl

/-- The byte that leaves no room for the newline makes the line overlong (R230). -/
theorem exec_rxbyte_overflow {s : State} {x : Byte} (h : s.rxdiscard = false) (hx : x ≠ newline)
    (hfull : s.rxbuf.length = s.cfg.txtMaxLine - 1) :
    exec (.rxbyte x) s = .next
      { s.answered (.received (some (.reject .txtOverlong))) with rxbuf := [], rxdiscard := true } := by
  show Host.Outcome.next (receive x s.begin) = _
  rw [receive, begin_rxdiscard, if_neg (by simp [h]), if_neg hx, begin_rxbuf, begin_cfg, if_pos hfull]
  rfl

theorem exec_rxbyte_buffered {s : State} {x : Byte} (h : s.rxdiscard = false) (hx : x ≠ newline)
    (hroom : s.rxbuf.length ≠ s.cfg.txtMaxLine - 1) :
    exec (.rxbyte x) s = .next { s.answered (.received none) with rxbuf := s.rxbuf ++ [x] } := by
  show Host.Outcome.next (receive x s.begin) = _
  rw [receive, begin_rxdiscard, if_neg (by simp [h]), if_neg hx, begin_rxbuf, begin_cfg, if_neg hroom]
  rfl

/-! ### A run of bytes -/

theorem feedBytes_cons {x : Byte} {l : Bytes} {s s₁ s₂ : State} {rs : List Result}
    (hx : exec (.rxbyte x) s = .next s₁) (hl : feedBytes l s₁ = some (s₂, rs)) :
    feedBytes (x :: l) s = some (s₂, s₁.result :: rs) := by
  simp only [feedBytes, hx, hl, Option.map_some]

theorem feedBytes_append {a b : Bytes} {s s₁ s₂ : State} {rs₁ rs₂ : List Result}
    (ha : feedBytes a s = some (s₁, rs₁)) (hb : feedBytes b s₁ = some (s₂, rs₂)) :
    feedBytes (a ++ b) s = some (s₂, rs₁ ++ rs₂) := by
  induction a generalizing s rs₁ with
  | nil =>
    obtain ⟨rfl, rfl⟩ := Prod.mk.inj (Option.some.inj ha)
    exact hb
  | cons x l ih =>
    rw [feedBytes] at ha
    split at ha
    · next u hu =>
      obtain ⟨p, hp, hpair⟩ := Option.map_eq_some_iff.1 ha
      obtain ⟨rfl, rfl⟩ := Prod.mk.inj hpair
      exact feedBytes_cons hu (ih hp)
    · cases ha
    · cases ha

/-- A run of bytes has been fed: the receiver's registers after it, the results, and the rest as before. -/
structure Fed (l : Bytes) (s : State) (buf : Bytes) (discard : Bool) (rs : List Result) (s' : State) : Prop where
  feed : feedBytes l s = some (s', rs)
  rxbuf : s'.rxbuf = buf
  rxdiscard : s'.rxdiscard = discard
  cfg : s'.cfg = s.cfg
  chans : s'.chans = s.chans
  evq : s'.evq = s.evq

theorem Fed.nil {s : State} {buf : Bytes} {d : Bool} (hbuf : s.rxbuf = buf) (hd : s.rxdiscard = d) :
    Fed [] s buf d [] s := ⟨rfl, hbuf, hd, rfl, rfl, rfl⟩

theorem Fed.single {x : Byte} {s s' : State} {buf : Bytes} {d : Bool} {r : Result}
    (h : exec (.rxbyte x) s = .next s') (hbuf : s'.rxbuf = buf) (hd : s'.rxdiscard = d) (hr : s'.result = r) :
    Fed [x] s buf d [r] s' := by
  have hframe : receive x s.begin = s' := Host.Outcome.next.inj h
  obtain ⟨hchans, hevq, ⟨hcfg, -⟩, -⟩ := hframe ▸ receive_frame x s.begin
  exact ⟨hr ▸ feedBytes_cons h rfl, hbuf, hd, hcfg, hchans, hevq⟩

theorem Fed.append {a b : Bytes} {s s₁ s₂ : State} {buf₁ buf₂ : Bytes} {d₁ d₂ : Bool} {rs₁ rs₂ : List Result}
    (h₁ : Fed a s buf₁ d₁ rs₁ s₁) (h₂ : Fed b s₁ buf₂ d₂ rs₂ s₂) : Fed (a ++ b) s buf₂ d₂ (rs₁ ++ rs₂) s₂ :=
  ⟨feedBytes_append h₁.feed h₂.feed, h₂.rxbuf, h₂.rxdiscard, h₂.cfg.trans h₁.cfg, h₂.chans.trans h₁.chans,
    h₂.evq.trans h₁.evq⟩

/-- The bytes of a line that fits are buffered, one after another. -/
theorem fed_buffered {l : Bytes} {s : State} (hd : s.rxdiscard = false) (hl : newline ∉ l)
    (hroom : s.rxbuf.length + l.length ≤ s.cfg.txtMaxLine - 1) :
    ∃ s', Fed l s (s.rxbuf ++ l) false (List.replicate l.length (.received none)) s' := by
  induction l generalizing s with
  | nil => exact ⟨s, .nil (List.append_nil _).symm hd⟩
  | cons x l ih =>
    simp only [List.mem_cons, not_or] at hl
    obtain ⟨hx, hl⟩ := hl
    simp only [List.length_cons] at hroom
    obtain ⟨s₁, hfirst⟩ : ∃ s₁, Fed [x] s (s.rxbuf ++ [x]) false [.received none] s₁ :=
      ⟨_, .single (exec_rxbyte_buffered hd (Ne.symm hx) (by omega)) rfl hd rfl⟩
    obtain ⟨s', hrest⟩ := ih hfirst.rxdiscard hl (by
      rw [hfirst.rxbuf, hfirst.cfg, List.length_append, List.length_singleton]
      omega)
    rw [hfirst.rxbuf, List.append_assoc] at hrest
    exact ⟨s', hfirst.append hrest⟩

/-- The bytes of the rest of an overlong line are thrown away. -/
theorem fed_discarded {l : Bytes} {s : State} (hd : s.rxdiscard = true) (hl : newline ∉ l) :
    ∃ s', Fed l s s.rxbuf true (List.replicate l.length (.received none)) s' := by
  induction l generalizing s with
  | nil => exact ⟨s, .nil rfl hd⟩
  | cons x l ih =>
    simp only [List.mem_cons, not_or] at hl
    obtain ⟨hx, hl⟩ := hl
    obtain ⟨s₁, hfirst⟩ : ∃ s₁, Fed [x] s s.rxbuf true [.received none] s₁ :=
      ⟨_, .single (exec_rxbyte_discarded hd (Ne.symm hx)) rfl hd rfl⟩
    obtain ⟨s', hrest⟩ := ih hfirst.rxdiscard hl
    rw [hfirst.rxbuf] at hrest
    exact ⟨s', hfirst.append hrest⟩

/-- A line that fits is delivered at its newline (R230). -/
theorem fed_whole_line {l : Bytes} {s : State} (hbuf : s.rxbuf = []) (hd : s.rxdiscard = false) (hl : newline ∉ l)
    (hfits : l.length ≤ s.cfg.txtMaxLine - 1) :
    ∃ s', Fed (l ++ [newline]) s [] false
      (List.replicate l.length (.received none) ++ [.received (some (txtDecode s.cfg (l ++ [newline])))]) s' := by
  obtain ⟨s₁, hline⟩ := fed_buffered hd hl (by simpa [hbuf] using hfits)
  rw [hbuf, List.nil_append] at hline
  have hend := exec_rxbyte_newline hline.rxdiscard
  rw [hline.cfg, hline.rxbuf] at hend
  exact ⟨_, hline.append (.single hend rfl hline.rxdiscard rfl)⟩

/-- A line that does not fit is reported where it overflows, and its rest is thrown away up to its newline (R230). -/
theorem fed_overlong_line {a b : Bytes} {x : Byte} {s : State} (hbuf : s.rxbuf = []) (hd : s.rxdiscard = false)
    (hl : newline ∉ a ++ x :: b) (ha : a.length = s.cfg.txtMaxLine - 1) :
    ∃ s', Fed (a ++ x :: b ++ [newline]) s [] false
      (List.replicate a.length (.received none) ++
        .received (some (.reject .txtOverlong)) :: List.replicate (b.length + 1) (.received none)) s' := by
  simp only [List.mem_append, List.mem_cons, not_or] at hl
  obtain ⟨hal, hx, hbl⟩ := hl
  obtain ⟨s₁, hfull⟩ := fed_buffered hd hal (by rw [hbuf, ha, List.length_nil, Nat.zero_add])
  rw [hbuf, List.nil_append] at hfull
  obtain ⟨s₂, hover⟩ : ∃ s₂, Fed [x] s₁ [] true [.received (some (.reject .txtOverlong))] s₂ :=
    ⟨_, .single (exec_rxbyte_overflow hfull.rxdiscard (Ne.symm hx) (by rw [hfull.rxbuf, hfull.cfg, ha])) rfl rfl rfl⟩
  obtain ⟨s₃, hrest⟩ := fed_discarded hover.rxdiscard hbl
  rw [hover.rxbuf] at hrest
  have hend : Fed [newline] s₃ [] false [.received none] _ :=
    .single (exec_rxbyte_discarded_newline hrest.rxdiscard) hrest.rxbuf rfl rfl
  have hall := hfull.append (hover.append (hrest.append hend))
  rw [← List.replicate_succ'] at hall
  exact ⟨_, by simpa using hall⟩

end Sys2Proof.Machine

/-! ## The statements of 42_text_codec.md -/

namespace Sys2Proof.TextCodec

open Sys2Proof Sys2Proof.Machine

/-- Settles O15: each production of the grammar reads exactly what the encoder writes for it (`scanMembers_append`,
`scanMembers_eq_some`). -/
theorem parseJsonAcceptsExactlyTheSpelledObjects : Obligations.ParseJsonAcceptsExactlyTheSpelledObjects :=
  fun _ _ => parseJson_eq_some_iff

/-- Settles O44: a frame is the line of the message's object, which spells the message (`txtDecode_of_txtEncode`). -/
theorem textFramesRoundTrip : Obligations.TextFramesRoundTrip := by
  intro s s' m f hcfg hok hexec hresult
  rw [exec_txtEncode hok] at hexec
  obtain rfl := Host.Outcome.next.inj hexec
  have hframe : txtEncode s.cfg m = .frame f := Result.encoded.inj hresult
  rw [exec_txtDecode, txtDecode_of_txtEncode hcfg hok hframe]

/-- Settles O46: the bytes of one text are those of the other in another order, and the schema looks its keys up. -/
theorem memberOrderIsIrrelevant : Obligations.MemberOrderIsIrrelevant := by
  intro s o o' hok hperm
  have hbytes := objectBytes_perm hperm
  have hok' : objectOk o' = true := objectOk_perm hperm ▸ hok
  obtain ⟨-, hnodup⟩ := (objectOk_iff o).1 hok
  refine ⟨xorBytes_perm hbytes, ?_⟩
  simp only [exec_txtDecode, txtDecode_txtFrame s.cfg hok, txtDecode_txtFrame s.cfg hok', hbytes.length_eq,
    txtSchemaOf_perm s.cfg hperm hnodup]

/-- Settles O47: the changed line has the same payload and one digit replaced, and its digits spell the checksum exactly
where each has its old value. -/
theorem corruptedChecksumDigitIsDetected : Obligations.CorruptedChecksumDigitIsDetected := by
  intro s m f k old x hcfg hok hencode hk hold
  have hmsg := txtDecode_of_txtEncode hcfg hok hencode
  obtain ⟨-, rfl, hlen⟩ := txtEncode_eq_frame_iff.1 hencode
  rw [length_txtFrame] at hlen
  have hdigits := hexPair_hex2 (xorBytes (objectBytes (txtObject m)))
  rw [txtFrame_eq_txtLine] at hmsg hk hold
  obtain ⟨h', l', hset, hrep⟩ := set_txtLine hk hold x
  simp only [exec_txtDecode_eq_iff, txtFrame_eq_txtLine, hset]
  refine ⟨fun hx => txtDecode_txtLine_of_no_digits hlen (hrep.no_digits hx), fun v hx hne => ?_,
    fun hx => (txtDecode_txtLine_congr s.cfg _ (hrep.same_digits hx)).trans hmsg⟩
  obtain ⟨hnone, hother⟩ := hrep.other_digits hdigits hx hne
  exact txtDecode_txtLine_of_wrong_digits hlen hnone hother

/-- Settles O50: an operation that is spelled as a line is a row, and each row holds its object to the schema that
TXT_DECODE selects. -/
theorem txtRowsAgreeWithTxtDecode : Obligations.TxtRowsAgreeWithTxtDecode := by
  intro s o _ _ i hwf hencode
  cases i with
  | txtCardRead o' | txtHeartbeat o' | txtRexEvent o' | txtDoorContact o' | txtFeedbackGrant o'
  | txtFeedbackDeny o' | txtIdentify o' | txtSetAddress o' | txtIdentifyResponse o' | txtAddressAck o' =>
    rw [← Input.line.inj hencode]
    exact exec_txtRowOf_eq_exec_txtDecode hwf
  | txtUnknown o' =>
    rw [← Input.line.inj hencode]
    exact exec_txtUnknown_eq_exec_txtDecode hwf
  | _ => cases hencode

/-- Settles O51: a `type` or `cmd` outside the assigned ones selects an Unknown, and a message's line decodes to the
message. -/
theorem unassignedTextTypeGivesUnknown : Obligations.UnassignedTextTypeGivesUnknown := by
  refine ⟨fun s o ty cmd hty hunassigned => ?_, fun cfg m f hcfg hok hencode ty cmd hunknown => ?_⟩
  · have hsel : txtSelect s.cfg o = .unknown ty cmd := by
      obtain ⟨rfl, hfixed, hkind⟩ | ⟨rfl, c, rfl, hcmd, hc⟩ := hunassigned
      · rw [List.mem_cons, not_or] at hfixed
        obtain ⟨hcommand, hfixed⟩ := hfixed
        exact txtSelect_of_unassigned_type hty hcommand ((txtTypeOf_eq_none_iff s.cfg ty).2 ⟨hfixed, hkind⟩)
      · exact txtSelect_of_unassigned_cmd hty hcmd ((txtCommandOf_eq_none_iff c).2 hc)
    refine ⟨exec_txtUnknown hsel, fun hok hlen => ?_⟩
    rw [exec_txtDecode_txtFrame hok hlen, txtSchemaOf_of_unknown hsel]
  · cases (txtDecode_of_txtEncode hcfg hok hencode).symm.trans hunknown

/-- Settles O52: a CardRead has no string of its own, so its frame has at most 93 bytes and is Unencodable for its
length alone. -/
theorem ev2TxtFramesTheEvent : Obligations.Ev2TxtFramesTheEvent := by
  intro s ev a frame
  have hshort : (objectBytes (txtObject (.cardRead a ev.readerId ev.code ev.bitLength))).length ≤ 87 :=
    length_objectBytes_of_no_string (by simp) (by simp)
  refine ⟨_, exec_txtEncode rfl, exec_ev2txt ev a s rfl, txtEncode_cardRead _ _ _ _ _, ?_⟩
  rw [length_txtFrame]
  exact Nat.add_le_add_right hshort 6

/-- Settles O53 by the receiver's step in each of its cases. -/
theorem rxbyteFollowsTheLineReceiver : Obligations.RxbyteFollowsTheLineReceiver := by
  intro s x
  refine ⟨?_, fun hd hx => exec_rxbyte_discarded hd hx, ?_, fun hd hx hfull => exec_rxbyte_overflow hd hx hfull,
    fun hd hx hroom => exec_rxbyte_buffered hd hx hroom⟩
  · rintro hd rfl
    exact exec_rxbyte_discarded_newline hd
  · rintro hd rfl
    exact ⟨_, exec_txtDecode _ s, exec_rxbyte_newline hd⟩

/-- Settles O54: a line that fits is buffered up to its newline (`fed_whole_line`), and a longer one up to the byte that
leaves no room for it (`fed_overlong_line`). -/
theorem lineReceiverDeliversWholeLines : Obligations.LineReceiverDeliversWholeLines := by
  intro s l hmax hbuf hd hl
  by_cases hfits : l.length ≤ s.cfg.txtMaxLine - 1
  · obtain ⟨s', hfed⟩ := fed_whole_line hbuf hd hl hfits
    exact ⟨s', _, hfed.feed, hfed.rxbuf, hfed.rxdiscard, hfed.chans, hfed.evq, fun _ => rfl, fun hlong => by omega⟩
  · obtain ⟨a, x, b, rfl, ha⟩ : ∃ a x b, l = a ++ x :: b ∧ a.length = s.cfg.txtMaxLine - 1 :=
      ⟨l.take (s.cfg.txtMaxLine - 1), l[s.cfg.txtMaxLine - 1], l.drop (s.cfg.txtMaxLine - 1 + 1), by simp,
        by simp; omega⟩
    obtain ⟨s', hfed⟩ := fed_overlong_line hbuf hd hl ha
    refine ⟨s', _, hfed.feed, hfed.rxbuf, hfed.rxdiscard, hfed.chans, hfed.evq, fun h => absurd h hfits, fun _ => ?_⟩
    have hrest : (a ++ x :: b).length - s.cfg.txtMaxLine = b.length := by
      rw [List.length_append, List.length_cons]
      omega
    rw [ha, hrest]

/-- Settles O57 by the steps of R202 in their order; past the digits the payload is the text of an object or of none. -/
theorem txtDecodeChecksInItsOrder : Obligations.TxtDecodeChecksInItsOrder := by
  intro s f gives
  have answer {r : RejectReason} (h : txtDecode s.cfg f = .reject r) : gives r := exec_txtDecode_eq_iff.2 h
  refine ⟨fun h => answer (txtDecode_of_truncated s.cfg h),
    fun hlen hlast hmax => answer (txtDecode_of_overlong hlen hlast hmax),
    fun hlen hlast hmax hmarks => answer (txtDecode_of_envelope hlen hlast hmax hmarks), fun j h l hf hmax => ?_⟩
  rw [lineOfParts_eq_txtLine] at hf
  subst hf
  rw [length_txtLine] at hmax
  refine ⟨fun hnone => answer (txtDecode_txtLine_of_no_digits hmax (hexPair_eq_none_iff.2 ?_)), fun a b ha hb => ?_⟩
  · simpa only [hexVal_eq_none_iff] using hnone
  · have hspells : hexPair h l = some (xorBytes j) ↔ 16 * a + b = (xorBytes j).toNat :=
      hexPair_eq_some_iff_of_digits ha hb
    refine ⟨fun hne => answer (txtDecode_txtLine_of_wrong_digits hmax (hexPair_ne_none ha hb) (mt hspells.1 hne)),
      fun hxor => ⟨fun hj => answer (txtDecode_txtLine_of_no_object hmax (hspells.2 hxor) hj), fun o hok hj => ?_⟩⟩
    subst hj
    have hschema := txtDecode_txtLine_of_object hok hmax (hspells.2 hxor)
    exact ⟨fun hty => answer (hschema.trans (txtSchemaOf_of_noType (txtSelect_of_no_type hty))),
      fun hty hcmd => answer (hschema.trans (txtSchemaOf_of_noType (txtSelect_of_no_cmd hty hcmd)))⟩

/-- Settles O58: `hexVal` reads the ranges of R201, `hex2` writes the row of digits in upper case, and past the digits
no line is rejected for them (`reject_of_right_digits`). -/
theorem checksumDigitsAreUppercaseOutAndEitherCaseIn : Obligations.ChecksumDigitsAreUppercaseOutAndEitherCaseIn := by
  unfold Obligations.ChecksumDigitsAreUppercaseOutAndEitherCaseIn
  intro digit
  have hdigit {n : Nat} (hn : n < 16) : hexDigit n = digit n := hexDigit_eq_getD hn
  have hnibbles (v : Byte) : v.toNat / 16 < 16 ∧ v.toNat % 16 < 16 := by
    have hv := v.isLt
    omega
  refine ⟨fun v => ?_, fun b n => hexVal_eq_some_iff, fun s m f hexec => ?_, fun s j h l hmax => ?_⟩
  · obtain ⟨hhigh, hlow⟩ := hnibbles v
    rw [hex2, hdigit hhigh, hdigit hlow]
  · obtain ⟨-, hstate⟩ := eq_of_guard_next hexec
    have hencode : txtEncode s.cfg m = .frame f := (Result.encoded.inj (congrArg State.result hstate)).symm
    obtain ⟨-, rfl, -⟩ := txtEncode_eq_frame_iff.1 hencode
    obtain ⟨hhigh, hlow⟩ := hnibbles (xorBytes (objectBytes (txtObject m)))
    exact ⟨_, by rw [lineOfParts_eq_txtLine, ← hdigit hhigh, ← hdigit hlow, txtFrame_eq_txtLine]⟩
  · intro rejects
    have hrejects (r : RejectReason) : rejects r ↔ txtDecode s.cfg (txtLine j h l) = .reject r := by
      rw [← lineOfParts_eq_txtLine]
      exact exec_txtDecode_eq_iff
    rw [lineOfParts_eq_txtLine, length_txtLine] at hmax
    rw [hrejects, hrejects]
    refine ⟨?_, fun a b ha hb => ?_⟩
    · rw [txtDecode_txtLine_eq_txtHex_iff hmax, hexPair_eq_none_iff, hexVal_eq_none_iff, hexVal_eq_none_iff,
        not_and_or, not_exists, not_exists]
    · rw [txtDecode_txtLine_eq_txtChecksum_iff hmax (hexPair_ne_none ha hb), ne_eq,
        hexPair_eq_some_iff_of_digits ha hb]

end Sys2Proof.TextCodec

/-! ## Records that spell an operation, and operations that get no step -/

namespace Sys2Proof

/-! ### A record's integers fit their widths -/

/-- A reading of several operands succeeds exactly where the first and then the rest do. -/
theorem bind_eq_ok_iff {ε α β : Type} {x : Except ε α} {f : α → Except ε β} {y : β} :
    (x >>= f) = .ok y ↔ ∃ a, x = .ok a ∧ f a = .ok y := by
  cases x with
  | error e => simp [bind, Except.bind]
  | ok a => simp [bind, Except.bind]

/-- A guarded reading that succeeds has passed its guard. -/
theorem eq_of_guard_ok {ε α : Type} {g : Prop} [Decidable g] {a v : α} {e : ε}
    (h : (if g then .ok a else .error e : Except ε α) = .ok v) : g ∧ a = v := by
  split at h
  · next hg => exact ⟨hg, Except.ok.inj h⟩
  · cases h

/-- A `u8` operand reads as a byte exactly where it is the byte's number. -/
theorem operandU8_eq_ok_iff {op : PortOp} {n : Nat} {v : Byte} : operandU8 op n = .ok v ↔ n = v.toNat := by
  constructor
  · intro h
    obtain ⟨hn, rfl⟩ := eq_of_guard_ok h
    exact (Nat.mod_eq_of_lt hn).symm
  · rintro rfl
    exact operandU8_toNat op v

/-- A `u64` operand reads as a code exactly where it is the code's number. -/
theorem operandU64_eq_ok_iff {op : PortOp} {n : Nat} {v : Code} : operandU64 op n = .ok v ↔ n = v.toNat := by
  constructor
  · intro h
    obtain ⟨hn, rfl⟩ := eq_of_guard_ok h
    exact (Nat.mod_eq_of_lt hn).symm
  · rintro rfl
    exact operandU64_toNat op v

/-- Only a message's own operands read as the message: the converse of `operandTxt_txtOperands`. -/
theorem eq_txtOperands_of_operandTxt {args : List Operand} {m : TxtMsg} (h : operandTxt args = .ok m) :
    args = txtOperands m := by
  unfold operandTxt at h
  split at h
  case h_7 => -- Identify
    cases h
    rfl
  case h_12 => cases h -- no message's operands
  all_goals simp only [bind_eq_ok_iff, operandU8_eq_ok_iff, operandU64_eq_ok_iff] at h
  case h_1 => -- CardRead
    obtain ⟨a, rfl, r, rfl, k, rfl, b, rfl, ⟨⟩⟩ := h
    rfl
  case h_2 | h_8 | h_9 => -- Heartbeat, SetAddress without and with a target
    obtain ⟨a, rfl, ⟨⟩⟩ := h
    rfl
  case h_3 | h_4 | h_5 | h_6 | h_10 | h_11 => -- the rows with two integers
    obtain ⟨a, rfl, b, rfl, ⟨⟩⟩ := h
    rfl

/-- A record of TXT_ENCODE that spells an operation is the record of a message. -/
theorem eq_txtEncode_of_decode {cfg : Config} {args : List Operand} {i : Instr}
    (h : decode cfg (.record .txtEncode args) = .ok i) : ∃ m, i = .txtEncode m ∧ args = txtOperands m := by
  obtain ⟨m, hm, hi⟩ := bind_eq_ok_iff.1 h
  exact ⟨m, (Except.ok.inj hi).symm, eq_txtOperands_of_operandTxt hm⟩

end Sys2Proof

namespace Sys2Proof.Machine

/-! ### Refusals -/

theorem edgeOk_iff (cfg : Config) (c b : Nat) :
    edgeOk cfg c b = true ↔ c < cfg.numReaders ∧ (b = 0 ∨ b = 1) := by
  rw [edgeOk, decide_eq_true_iff, Nat.le_one_iff_eq_zero_or_eq_one]

theorem exec_edge_refused {c b : Nat} {s : State} (t : Stamp) (h : ¬edgeOk s.cfg c b = true) :
    exec (.edge c b t) s = .refused .badEdge := if_neg h

theorem exec_sample_refused {d0 d1 : List Nat} {s : State} (t : Stamp) (h : ¬sampleOk s.cfg d0 d1 = true) :
    exec (.sample t d0 d1) s = .refused .badSample := if_neg h

theorem exec_binEncode_refused {m : Option BinMsg} (s : State) (h : ¬binRequestOk m = true) :
    exec (.binEncode m) s = .refused .badBinMsg := if_neg h

theorem exec_txtEncode_refused {m : TxtMsg} {s : State} (h : ¬txtMsgOk s.cfg m = true) :
    exec (.txtEncode m) s = .refused .badTxtMsg := if_neg h

/-! ### Steps without an operation -/

/-- The step with no input to come is idle (log entry 3). -/
theorem step_of_no_input {s : State} (hcfg : configOk s.cfg = true) (h : s.input = []) : step s = .next s := by
  have hf : s.fetch = none := by rw [State.fetch, h, List.head?_nil, Option.map_none]
  rw [step, if_pos hcfg]
  simp only [hf]

/-- A step whose next input spells no operation refuses it by the decoder's name (R276). -/
theorem step_of_decode_error {s : State} {x : Input} {rest : List Input} {e : DecodeError}
    (hcfg : configOk s.cfg = true) (hinput : s.input = x :: rest) (hdecode : decode s.cfg x = .error e) :
    step s = .refused (.badRecord e) := by
  have hf : s.fetch = some (.error e) := by rw [State.fetch, hinput, List.head?_cons, Option.map_some, hdecode]
  rw [step, if_pos hcfg]
  simp only [hf]

end Sys2Proof.Machine

/-! ## The statements of 60_exceptions.md -/

namespace Sys2Proof.Exceptions

open Sys2Proof Sys2Proof.Machine

/-- Settles O5: an operation answers a next state or is ill-formed (`exec_answers`). -/
theorem wellFormedOperationsComplete : Obligations.WellFormedOperationsComplete := by
  intro i s hwf
  have hanswers := exec_answers i s
  rw [hwf] at hanswers
  generalize exec i s = out at hanswers ⊢
  cases hanswers with
  | next s' => exact ⟨s', rfl⟩
  | refused r hill => cases hill

/-- Settles O2: the idle step, and the refusal of an input that spells no operation. -/
theorem stepWithoutAnOperation : Obligations.StepWithoutAnOperation :=
  fun _ hcfg => ⟨step_of_no_input hcfg, fun _ _ _ => step_of_decode_error hcfg⟩

/-- Settles O4: each listed input fails the check of its own operation; a record of TXT_ENCODE is held to its widths
where it is decoded, and the configuration before that. -/
theorem boundaryInputsGetNoStep : Obligations.BoundaryInputsGetNoStep := by
  refine ⟨fun s c b t hbad => ?_, fun s t d0 d1 hbad => ?_, fun s uid hlong => ?_, fun s k uid a n hk => ?_,
    fun _ _ _ => eq_txtEncode_of_decode, fun s hcfg => ?_⟩
  · refine exec_edge_refused t fun hok => ?_
    obtain ⟨hc, hb⟩ := (edgeOk_iff s.cfg c b).1 hok
    exact hbad.elim (Nat.not_le.2 hc) fun hline => hline hb
  · refine exec_sample_refused t fun hok => ?_
    obtain ⟨⟨hlen0, hlen1⟩, hlevels0, hlevels1⟩ := (sampleOk_iff s.cfg d0 d1).1 hok
    obtain hbad | hbad | ⟨v, hv, hlevel⟩ := hbad
    · exact hbad hlen0
    · exact hbad hlen1
    · exact hlevel (Nat.le_one_iff_eq_zero_or_eq_one.1 ((List.mem_append.1 hv).elim (hlevels0 v) (hlevels1 v)))
  · refine exec_binEncode_refused s fun hok => ?_
    have hle : uid.length ≤ 254 := of_decide_eq_true hok
    omega
  · exact exec_txtEncode_refused fun hok => hk (List.contains_iff_mem.1 hok)
  · exact (step_eq_badConfiguration_iff s).2 (Bool.eq_false_iff.1 hcfg)

end Sys2Proof.Exceptions
